-- ==== Sys2Proof/Word.lean ====
section
/-! DEFINITION. The engine's data words: bytes, halfwords, 32-bit words, the two-word block and the
four-word key (spec/00_scope.md R7 to R9, spec/41_xtea.md R150). -/

namespace Sys2Proof

/-- One byte of BUF. -/
abbrev Byte := BitVec 8

/-- A 16-bit quantity: a trailer, a chunk count, an additive sum. -/
abbrev Half := BitVec 16

/-- A 32-bit word (R7 `WORD`): a register, a cipher half, a command. -/
abbrev Word := BitVec 32

/-- A 64-bit block of two words (R7 `BLOCK`, R12): `v0` is the word at the lower address. Also the
shape of the feedback F = (F0, F1) and of BLK0/BLK1. -/
structure Block where
  v0 : Word
  v1 : Word
deriving DecidableEq, Repr

/-- The XOR of two blocks, lane by lane (R177). -/
def Block.xor (a b : Block) : Block := ⟨a.v0 ^^^ b.v0, a.v1 ^^^ b.v1⟩

/-- The 128-bit key as four words, k[i] = KEYi (R38, R150). -/
structure Key where
  k0 : Word
  k1 : Word
  k2 : Word
  k3 : Word
deriving DecidableEq, Repr

end Sys2Proof
end

