-- ==== Sys2Proof/Syntax.lean ====
section
/-! DEFINITION. The engine's ten commands (spec/30_encoding.md R122, spec/opcode_table.json), one
constructor per row, with the modifiers a row admits. -/

namespace Sys2Proof

/-- A command. CHAIN_ENC and CHAIN_DEC carry their modifiers SWI, SWO, CONT (R120, R178); the
others admit none (R122). All operands come from registers (R123). -/
inductive Instr where
  | nop
  | encBlock
  | decBlock
  | swap
  | chainEnc (swi swo cont : Bool)
  | chainDec (swi swo cont : Bool)
  | sum16
  | crc32
  | parse
  | chunkDec
deriving DecidableEq, Repr

/-- The suffix of one modifier in the written form of a command (R127). -/
def modifierText (swi swo cont : Bool) : String :=
  (if swi then ".SWI" else "") ++ (if swo then ".SWO" else "") ++ (if cont then ".CONT" else "")

/-- The written form of a command: its mnemonic and its set modifiers (R127). -/
def Instr.text : Instr → String
  | .nop => "NOP"
  | .encBlock => "ENC_BLOCK"
  | .decBlock => "DEC_BLOCK"
  | .swap => "SWAP"
  | .chainEnc swi swo cont => "CHAIN_ENC" ++ modifierText swi swo cont
  | .chainDec swi swo cont => "CHAIN_DEC" ++ modifierText swi swo cont
  | .sum16 => "SUM16"
  | .crc32 => "CRC32"
  | .parse => "PARSE"
  | .chunkDec => "CHUNK_DEC"

/-- The pseudo-instruction ENCODE (R128). -/
def pseudoEncode : Instr := .chainEnc true true false

/-- The pseudo-instruction DECODE (R128). -/
def pseudoDecode : Instr := .chainDec true true false

/-- The pseudo-instruction ENCODE.CONT (R128). -/
def pseudoEncodeCont : Instr := .chainEnc true true true

/-- The pseudo-instruction DECODE.CONT (R128). -/
def pseudoDecodeCont : Instr := .chainDec true true true

end Sys2Proof
end

