-- ==== Sys2Proof/WellFormed.lean ====
section
/-! DEFINITION. Which commands an engine admits. The command set has one condition of its own: CRC32
is a command only of an engine with the CRC unit (spec/30_encoding.md R125, R126; R7 `HAS_CRC32`).
The modifiers a command carries are admitted by the type of its constructor (R122). -/

namespace Sys2Proof

/-- `wellFormed hasCrc32 i`: an engine whose parameter HAS_CRC32 is `hasCrc32` has command `i`. -/
def wellFormed (hasCrc32 : Bool) : Instr → Bool
  | .crc32 => hasCrc32
  | .nop => true
  | .encBlock => true
  | .decBlock => true
  | .swap => true
  | .chainEnc _ _ _ => true
  | .chainDec _ _ _ => true
  | .sum16 => true
  | .parse => true
  | .chunkDec => true

end Sys2Proof
end

