-- ==== Sys2Proof/Decode.lean ====
section
/-! DEFINITION. Decoding a command word (spec/30_encoding.md R120 to R126) and, after it, the encoder.
Decoding is total on all 2^32 words (R126) and refuses by name. -/

namespace Sys2Proof

/-- Why a word is no command (the four cases of R125). -/
inductive DecodeError where
  /-- `w[31:11] ≠ 0`. -/
  | reservedBits
  /-- `w[7:0]` is in 0x0A to 0xFF. -/
  | reservedOpcode
  /-- A modifier bit is set on an opcode that does not admit it. -/
  | modifierNotAdmitted
  /-- `w[7:0] = 0x07` on an engine with `HAS_CRC32 = 0`. -/
  | noCrcUnit
deriving DecidableEq, Repr

/-- The opcode OP = `w[7:0]` (R120). -/
def opField (w : Word) : Nat := (w.extractLsb' 0 8).toNat

/-- The modifier bits `w[10:8]` (R120). -/
def modField (w : Word) : Nat := (w.extractLsb' 8 3).toNat

/-- The reserved bits `w[31:11]` (R120). -/
def rsvField (w : Word) : Nat := (w.extractLsb' 11 21).toNat

/-- The command without modifiers of an opcode (R122). -/
def plainOp : Nat → Option Instr
  | 0 => some .nop
  | 1 => some .encBlock
  | 2 => some .decBlock
  | 3 => some .swap
  | 6 => some .sum16
  | 7 => some .crc32
  | 8 => some .parse
  | 9 => some .chunkDec
  | _ => none

/-- `decode(w)` of R126 for an engine whose `HAS_CRC32` is `hasCrc32`. -/
def decode (hasCrc32 : Bool) (w : Word) : Except DecodeError Instr :=
  if rsvField w ≠ 0 then .error .reservedBits
  else if opField w = 4 then .ok (.chainEnc (w.getLsbD 8) (w.getLsbD 9) (w.getLsbD 10))
  else if opField w = 5 then .ok (.chainDec (w.getLsbD 8) (w.getLsbD 9) (w.getLsbD 10))
  else match plainOp (opField w) with
    | none => .error .reservedOpcode
    | some i =>
      if modField w ≠ 0 then .error .modifierNotAdmitted
      else if wellFormed hasCrc32 i then .ok i
      else .error .noCrcUnit

/-- The word with an opcode and the three modifier bits at bits 8, 9 and 10 (R120). -/
def commandWord (op : Nat) (swi swo cont : Bool) : Word :=
  BitVec.ofNat 32 (op + 256 * swi.toNat + 512 * swo.toNat + 1024 * cont.toNat)

/-- The word of a command, from the opcode map (R122). -/
def encode : Instr → Word
  | .nop => commandWord 0x00 false false false
  | .encBlock => commandWord 0x01 false false false
  | .decBlock => commandWord 0x02 false false false
  | .swap => commandWord 0x03 false false false
  | .chainEnc swi swo cont => commandWord 0x04 swi swo cont
  | .chainDec swi swo cont => commandWord 0x05 swi swo cont
  | .sum16 => commandWord 0x06 false false false
  | .crc32 => commandWord 0x07 false false false
  | .parse => commandWord 0x08 false false false
  | .chunkDec => commandWord 0x09 false false false

/-- The command the decoder reads from an instruction whose `nbits` bits are `w`. A command is one
32-bit word (R121), which is its own storage: CMD holds it whole (R28). -/
def decodeTableWord (nbits w : Nat) : Option Instr :=
  match decode true (BitVec.ofNat 32 (w % 2 ^ nbits)) with
  | .ok i => some i
  | .error _ => none

end Sys2Proof
end

