-- ==== Sys2Proof/Config.lean ====
section
/-! DEFINITION. The engine's parameters (spec/00_scope.md R7, spec/93_implementation_defined.md P1 to
P6) and its free values (U1 to U4). A parameter is an argument of the model: it stands in the record
`Params`, which a state carries and no step changes, so that a statement about every state is about
every engine. A free value is a constant WITHOUT A BODY applied to plain data: nothing can be proved
of which value it is. -/

namespace Sys2Proof

/-- The two readings of the last chunk index (R7 `CHUNK_END`, conflict C2, D13). -/
inductive ChunkEnd where
  /-- The last index is `count - 1` (the default). -/
  | excl
  /-- The last index is `count`. -/
  | incl
deriving DecidableEq, Repr

/-- The parameters of one engine (R7). -/
structure Params where
  /-- `KEY_RESET`: the key after reset (P1, N3). -/
  keyReset : Key
  /-- `BUF_SIZE`: the bytes of buffer RAM (P2). -/
  bufSize : Nat
  /-- `HOST_BASE`: the host address of the engine's window (P3). -/
  hostBase : Nat
  /-- `CHUNK_END` (P5). -/
  chunkEnd : ChunkEnd
  /-- `HAS_CRC32` (P6). -/
  hasCrc32 : Bool
deriving DecidableEq, Repr

/-- The bounds R7 sets on `BUF_SIZE`: a multiple of 8, from 8 to 0x0100_0000. -/
def Params.wf (p : Params) : Bool :=
  p.bufSize % 8 == 0 && decide (8 ≤ p.bufSize) && decide (p.bufSize ≤ 0x1000000)

/-- Word i of `KEY_RESET` of the device family, whose value no source gives (N3, P1; log 2). -/
opaque Config.keyReset : Nat → Word

/-- The byte BUF holds at an address after the power-on reset of the given number and before anything
is written there (U1; log 4): arguments, the reset's number and the address. -/
opaque Config.powerOnByte : Nat → Nat → Byte

/-- A fresh free byte, for the destination of a command stopped by soft reset (U2; log 6). -/
opaque Config.freeByte : Nat → Byte

/-- A fresh free word, for the host reads whose value R48 leaves open and for when an abort is taken (U3, U4, U6;
logs 6, 7, 15). -/
opaque Config.freeWord : Nat → Word

/-- The parameters State.reset is written with: the suggested `BUF_SIZE`, the default `CHUNK_END`, the
fixed `HAS_CRC32` (R7), and a `HOST_BASE` of 0 (DESIGN CHOICE, log 1). -/
def Params.suggested : Params where
  keyReset := ⟨Config.keyReset 0, Config.keyReset 1, Config.keyReset 2, Config.keyReset 3⟩
  bufSize := 0x100000
  hostBase := 0
  chunkEnd := .excl
  hasCrc32 := true

end Sys2Proof
end

