-- ==== Sys2Proof/Machine/State.lean ====
section
/-! DEFINITION. The engine's state (spec/10_state.md R20 to R50, spec/20_memory.md R80), the events that
act on it (R100), the reasons a step can stop, and the state after reset (R290). -/

namespace Sys2Proof.Machine

/-- Who raises it, and whether that is safe, stands at each constructor. -/
inductive Fault where
  /-- Raised by a checked access of `Machine/Ops.lean` to BUF at addresses that reach BUF_SIZE or beyond.
  R84 says the sequencer never makes one and R215 that the chunk view never does; no rule defines one.
  SAFE: the model stops where the spec says the machine never is. -/
  | outsideBuf (address : Nat)
deriving DecidableEq, Repr

/-- Who raises it, and whether that is safe, stands at each constructor. -/
inductive Refusal where
  /-- Raised only by an arm of `exec` whose command has no meaning yet; SAFE. No arm raises it now. -/
  | notModelled (mnemonic : String)
deriving DecidableEq, Repr

/-- What an operation of the machine answers. -/
abbrev Result (α : Type) := Host.Outcome α Fault Refusal

/-- `SEQ` (R49). `STATUS.BUSY = 1` exactly when it is `run`. -/
inductive Seq where
  | idle
  | run
deriving DecidableEq, Repr

/-- Whether the running command's first step, the one with its checks, is still to be taken (R260). -/
inductive Phase where
  | check
  | loop
deriving DecidableEq, Repr

/-- The error codes of R263, by name. -/
inductive CmdError where
  | badCmd
  | range
  | align
  | overlap
  | checksum
  | frame
  | noFrame
  | chunkIndex
  | aborted
deriving DecidableEq, Repr

/-- The width of a host access (R90, R91). -/
inductive Width where
  | byte
  | half
  | word
  /-- An access of another number of bytes, which neither space accepts (R90, log 10). -/
  | other (bytes : Nat)
deriving DecidableEq, Repr

/-- One host transaction, at a host address (R82). A narrow write uses the low bits of its data. -/
inductive Access where
  | read (address : Nat) (width : Width)
  | write (address : Nat) (width : Width) (data : Word)
deriving DecidableEq, Repr

/-- One event of the total order of R100, or the host's WAIT (R127). -/
inductive Event where
  /-- The host performs one transaction. -/
  | host (access : Access)
  /-- The sequencer takes its next step, if a command is running. -/
  | sequencer
  /-- The platform applies power-on reset (R290). -/
  | powerOn
  /-- The host polls STATUS until BUSY = 0; until then the sequencer runs (R127 WAIT, R303). -/
  | wait
deriving DecidableEq, Repr

/-- The engine's state. Names are the spec's; INVENTORY.md lists each with its rule and reset value. -/
structure State where
  /-- The implementation's parameters (R7); no step changes them. -/
  params : Params
  /-- CMD (R28). -/
  cmd : Word
  /-- STATUS.DONE (R31). -/
  done : Bool
  /-- STATUS.FRAME_VALID (R44). -/
  frameValid : Bool
  /-- STATUS.ERR_CODE (R32). -/
  errCode : BitVec 8
  /-- ERR_INFO (R34). -/
  errInfo : Word
  /-- CUR (R33). -/
  cur : Word
  /-- INT_STATUS: DONE_IS bit 0, ERR_IS bit 1, ACC_IS bit 2 (R35). -/
  intStatus : BitVec 3
  /-- INT_ENABLE (R36). -/
  intEnable : BitVec 3
  /-- SRC (R37). -/
  src : Word
  /-- DST (R37). -/
  dst : Word
  /-- LEN (R37). -/
  len : Word
  /-- KEY0..KEY3 (R38). -/
  key : Key
  /-- FB0, FB1 (R39). -/
  fb : Block
  /-- BLK0, BLK1 (R40). -/
  blk : Block
  /-- CHK (R41). -/
  chk : Word
  /-- CHK_REF (R42). -/
  chkRef : Half
  /-- CRC_POLY (R43). -/
  crcPoly : Word
  /-- CRC_INIT (R43). -/
  crcInit : Word
  /-- CRC_XOROUT (R43). -/
  crcXorout : Word
  /-- CRC_CFG: REFIN bit 0, REFOUT bit 1 (R43). -/
  crcCfg : BitVec 2
  /-- FRAME_BASE (R44). -/
  frameBase : Word
  /-- FRAME_LEN (R44). -/
  frameLen : Word
  /-- CHUNK_COUNT (R44). -/
  chunkCount : Half
  /-- CHUNK_SEL (R45). -/
  chunkSel : Half
  /-- SEQ (R49), seen by the host as STATUS.BUSY. -/
  seq : Seq
  /-- ABORT_PEND (R49, R242). -/
  abortPend : Bool
  /-- Whether the first step of the running command is still to be taken (R260). -/
  phase : Phase
  /-- The block, word or byte index k of the running command (R49). -/
  index : Nat
  /-- The number of blocks, words or bytes the running command processes (R244, R304). -/
  count : Nat
  /-- The BUF address the running command reads from: SRC, or the chunk's address `a` (R220). -/
  srcBase : Nat
  /-- The running 16-bit sum s of SUM16 and PARSE (R191, R212). -/
  sum16 : Half
  /-- The CRC shift register (R49, R194). -/
  crc : Word
  /-- The XTEA round counter r, 0 to 31 (R49). -/
  round : BitVec 5
  /-- The running round sum of the XTEA unit (R49, R152). -/
  roundSum : Word
  /-- The latched block (w0, w1) (R49). -/
  latch : Block
  /-- BUF (R80, R81): the bytes written since power-on, addresses strictly rising. -/
  buf : List Host.Cell
  /-- The model's own: how many power-on resets came before (log 4). -/
  epoch : Nat
  /-- The model's own: how many free values have been drawn (log 6). -/
  draws : Nat
  /-- The model's own: the last value a CUR read returned while this command runs (R48, log 7). -/
  curSeen : Word
  /-- The model's own: the block, word or byte before which a pending abort is taken (R242, U6, log 15). -/
  abortAt : Nat
  /-- The model's own: what the last host read returned (log 8). -/
  readData : Word
  /-- The model's own: the events still to happen, in their total order (R100, log 3). -/
  pending : List Event
deriving DecidableEq, Repr

/-- STATUS.BUSY (R30, R49). -/
def State.busy (s : State) : Bool := s.seq == .run

/-- The state right after power-on reset of an engine with parameters `p` (R21, R290). The hidden fields
to which R290 gives no meaning, and the model's own fields, take 0 (DESIGN CHOICE, log 5). -/
def State.resetWith (p : Params) : State where
  params := p
  cmd := 0
  done := false
  frameValid := false
  errCode := 0
  errInfo := 0
  cur := 0
  intStatus := 0
  intEnable := 0
  src := 0
  dst := 0
  len := 0
  key := p.keyReset
  fb := ⟨0, 0⟩
  blk := ⟨0, 0⟩
  chk := 0
  chkRef := 0
  crcPoly := 0x04C11DB7
  crcInit := 0xFFFFFFFF
  crcXorout := 0xFFFFFFFF
  crcCfg := 3
  frameBase := 0
  frameLen := 0
  chunkCount := 0
  chunkSel := 0
  seq := .idle
  abortPend := false
  phase := .check
  index := 0
  count := 0
  srcBase := 0
  sum16 := 0
  crc := 0
  round := 0
  roundSum := 0
  latch := ⟨0, 0⟩
  buf := []
  epoch := 0
  draws := 0
  curSeen := 0
  abortAt := 0
  readData := 0
  pending := []

/-- The machine right after reset (R290), with the suggested parameters (log 1). -/
def State.reset : State := State.resetWith Params.suggested

end Sys2Proof.Machine
end

