-- ==== Sys2Proof/Machine/Ops.lean ====
section
/-! DEFINITION. The named operations over BUF and the registers: the pseudocode primitives of
spec/00_scope.md R10, acceptance and the two completions of spec/60_exceptions.md R260 to R262, and the
skeleton every command's steps run in (R260, R242). -/

namespace Sys2Proof.Machine

/-! ### Results -/

/-- Continue with a value, or stop with the reason. -/
def andThen {α β : Type} (x : Result α) (f : α → Result β) : Result β :=
  match x with
  | .next a => f a
  | .fault r => .fault r
  | .refused r => .refused r

/-! ### Bytes of words (R87, R89: the lowest address holds bits [7:0]) -/

/-- Byte i of a word: bits `[8i+7 : 8i]`. -/
def byteOf (w : Word) (i : Nat) : Byte := w.extractLsb' (8 * i) 8

/-- The word with the given bytes, bits [7:0] first: the sum of `byte i << 8i` (R10). -/
def wordOfBytes (b0 b1 b2 b3 : Byte) : Word :=
  BitVec.ofNat 32 (b0.toNat + 0x100 * b1.toNat + 0x10000 * b2.toNat + 0x1000000 * b3.toNat)

/-- The halfword with the given bytes, bits [7:0] first (R10). -/
def halfOfBytes (b0 b1 : Byte) : Half := BitVec.ofNat 16 (b0.toNat + 0x100 * b1.toNat)

/-- The first `n` bytes of a word in address order, as `MemWrite(a, n, v)` stores them (R10). -/
def bytesOfWord (w : Word) : Nat → List Byte
  | 0 => []
  | n + 1 => bytesOfWord w n ++ [byteOf w n]

/-! ### BUF as a list of cells (R81) -/

/-- The byte listed at an address, if any. -/
def memGet : List Host.Cell → Nat → Option Byte
  | [], _ => none
  | (x, b) :: m, a => if x = a then some b else memGet m a

/-- List byte `v` at address `a`, keeping the addresses rising. -/
def memSet : List Host.Cell → Nat → Byte → List Host.Cell
  | [], a, v => [(a, v)]
  | (x, b) :: m, a, v =>
    if a < x then (a, v) :: (x, b) :: m
    else if x = a then (a, v) :: m
    else (x, b) :: memSet m a v

/-- List bytes at consecutive addresses from `a`, in ascending order. -/
def memPut : List Host.Cell → Nat → List Byte → List Host.Cell
  | m, _, [] => m
  | m, a, b :: bs => memPut (memSet m a b) (a + 1) bs

/-- The canonical form of BUF: addresses strictly rising. An unlisted address holds no written value, so
no entry can repeat what an unlisted address holds (log 4). -/
def memWf : List Host.Cell → Bool
  | [] => true
  | [_] => true
  | (x, _) :: (y, c) :: m => decide (x < y) && memWf ((y, c) :: m)

/-- Every listed address lies below `n`. -/
def memBelow (n : Nat) (m : List Host.Cell) : Bool := m.all fun c => decide (c.1 < n)

/-! ### Reading and writing BUF -/

/-- The byte at a BUF address: the last one written, or the unspecified one since power-on (U1). -/
def byteAt (s : State) (a : Nat) : Byte :=
  match memGet s.buf a with
  | some b => b
  | none => Config.powerOnByte s.epoch a

/-- The value of `MemRead(a, 2)` (R10). -/
def halfAt (s : State) (a : Nat) : Half := halfOfBytes (byteAt s a) (byteAt s (a + 1))

/-- The value of `MemRead(a, 4)` (R10). -/
def wordAt (s : State) (a : Nat) : Word :=
  wordOfBytes (byteAt s a) (byteAt s (a + 1)) (byteAt s (a + 2)) (byteAt s (a + 3))

/-- `MemRead(a, 1)`: an address at or beyond BUF_SIZE does not exist (R81, R84). -/
def memRead8 (s : State) (a : Nat) : Result Byte :=
  if a + 1 ≤ s.params.bufSize then .next (byteAt s a) else .fault (.outsideBuf a)

/-- `MemRead(a, 2)`. -/
def memRead16 (s : State) (a : Nat) : Result Half :=
  if a + 2 ≤ s.params.bufSize then .next (halfAt s a) else .fault (.outsideBuf a)

/-- `MemRead(a, 4)`; no alignment is needed (R85). -/
def memRead32 (s : State) (a : Nat) : Result Word :=
  if a + 4 ≤ s.params.bufSize then .next (wordAt s a) else .fault (.outsideBuf a)

/-- BUF with bytes stored from an address up. -/
def State.storeBytes (s : State) (a : Nat) (bs : List Byte) : State :=
  { s with buf := memPut s.buf a bs }

/-- `MemWrite(a, n, v)` for n bytes in address order (R10). -/
def memWrite (s : State) (a : Nat) (bs : List Byte) : Result State :=
  if a + bs.length ≤ s.params.bufSize then .next (s.storeBytes a bs) else .fault (.outsideBuf a)

/-! ### Completion and errors -/

/-- The code of an error (R263). -/
def CmdError.code : CmdError → BitVec 8
  | .badCmd => 0x01
  | .range => 0x02
  | .align => 0x03
  | .overlap => 0x04
  | .checksum => 0x05
  | .frame => 0x06
  | .noFrame => 0x07
  | .chunkIndex => 0x08
  | .aborted => 0x09

/-- `complete()` (R261): the counterpart of a return. -/
def State.complete (s : State) : State :=
  { s with seq := .idle, done := true, intStatus := s.intStatus ||| 1, abortPend := false }

/-- `raise ERR_<NAME>(info)` (R262): taking an exception. The engine records the code and the detail, keeps
CMD and CUR, transfers control nowhere and is idle again (R267); nothing is rolled back. -/
def State.raiseError (s : State) (e : CmdError) (info : Word) : State :=
  { s with errCode := e.code, errInfo := info, seq := .idle, done := true,
           intStatus := s.intStatus ||| 3, abortPend := false }

/-- The registers an acceptance writes (R260), and the command's progress at its start (R33, R49). -/
def State.latchCommand (s : State) (w : Word) : State :=
  { s with cmd := w, seq := .run, done := false, errCode := 0, errInfo := 0, cur := 0,
           abortPend := false, phase := .check, index := 0, curSeen := 0 }

/-- The command CMD holds, as the sequencer takes it (R105, R126). -/
def currentCommand (s : State) : Except DecodeError Instr := decode s.params.hasCrc32 s.cmd

/-- Acceptance of word `w` as one event (R260): an illegal word completes at once with ERR_BAD_CMD. -/
def State.accept (s : State) (w : Word) : State :=
  match decode s.params.hasCrc32 w with
  | .ok _ => s.latchCommand w
  | .error _ => (s.latchCommand w).raiseError .badCmd w

/-- A host access error (R265): ACC_IS is set and nothing else changes. -/
def State.accessError (s : State) : State := { s with intStatus := s.intStatus ||| 4 }

/-! ### The steps of a command -/

/-- The progress of a command whose checks have passed: what it reads from, and its step count (R244). -/
def State.beginLoop (s : State) (base count : Nat) : State :=
  { s with phase := .loop, index := 0, count := count, srcBase := base }

/-- One more block, word or byte of `granule` bytes is consumed (R33). -/
def State.advance (s : State) (granule : Nat) : State :=
  { s with index := s.index + 1, cur := BitVec.ofNat 32 (granule * (s.index + 1)) }

/-- A pending abort has reached the element before which it is taken (R242, U6, log 15). -/
def abortDue (s : State) : Bool := s.abortPend && decide (s.abortAt ≤ s.index)

/-- `abort_point()` (R242): an abort that is due ends the command here, keeping every finished step. -/
def abortPoint (s : State) (body : State → Result State) : Result State :=
  if abortDue s then .next (State.raiseError { s with abortPend := false } .aborted s.cur) else body s

/-- The next step of a command in its loop: `abort_point()` and one block, word or byte, or, when all are
done, what stands after the loop (R102, R304). -/
def loopStep (body last : State → Result State) (s : State) : Result State :=
  if s.index < s.count then abortPoint s body else last s

/-- The next step of a looping command. Its first step makes the checks, and everything up to the first
`abort_point()` belongs to it (R260); a failed check is the error completion. -/
def commandStep (checks : State → Result (Option (CmdError × Word))) (start : State → State)
    (body last : State → Result State) (s : State) : Result State :=
  match s.phase with
  | .check =>
    andThen (checks s) fun
      | some (e, info) => .next (s.raiseError e info)
      | none => loopStep body last (start s)
  | .loop => loopStep body last s

/-- What stands after the loop of a command that writes no result register: `complete()`. -/
def finishPlain (s : State) : Result State := .next s.complete

end Sys2Proof.Machine
end

