-- ==== Sys2Proof/Machine/Operands.lean ====
section
/-! DEFINITION. The operand forms: word views with a byte order (spec/20_memory.md R86, R88), ranges of BUF
and their meeting (spec/00_scope.md R9, R10), chunk indices and descriptors (spec/44_frame.md R211, R219),
and the check lists of the commands in their order (spec/60_exceptions.md R264). -/

namespace Sys2Proof.Machine

/-! ### Word views -/

/-- `bswap32(w)` (R9, R140): the four bytes reversed. -/
def bswap32 (w : Word) : Word := wordOfBytes (byteOf w 3) (byteOf w 2) (byteOf w 1) (byteOf w 0)

/-- A word in the order a flag selects: reversed when the flag is 1 (R10 RdWord and WrWord). -/
def orderWord (swap : Bool) (w : Word) : Word := if swap then bswap32 w else w

/-- `RdWord(a, s)` (R10, R86). -/
def rdWord (s : State) (a : Nat) (swap : Bool) : Result Word :=
  andThen (memRead32 s a) fun w => .next (orderWord swap w)

/-- `WrWord(a, v, s)` (R10, R86). -/
def wrWord (s : State) (a : Nat) (v : Word) (swap : Bool) : Result State :=
  memWrite s a (bytesOfWord (orderWord swap v) 4)

/-- The block of words at `a` and `a + 4` (R12, R177). -/
def rdBlock (s : State) (a : Nat) (swap : Bool) : Result Block :=
  andThen (rdWord s a swap) fun w0 =>
    andThen (rdWord s (a + 4) swap) fun w1 => .next ⟨w0, w1⟩

/-- The block a `rdBlock` inside BUF reads. -/
def blockAt (s : State) (a : Nat) (swap : Bool) : Block :=
  ⟨orderWord swap (wordAt s a), orderWord swap (wordAt s (a + 4))⟩

/-- The bytes of a block as `WrWord` stores its two words. -/
def bytesOfBlock (b : Block) (swap : Bool) : List Byte :=
  bytesOfWord (orderWord swap b.v0) 4 ++ bytesOfWord (orderWord swap b.v1) 4

/-- Store a block's words at `a` and `a + 4`. -/
def wrBlock (s : State) (a : Nat) (b : Block) (swap : Bool) : Result State :=
  andThen (wrWord s a b.v0 swap) fun s1 => wrWord s1 (a + 4) b.v1 swap

/-! ### Ranges -/

/-- `[a, a+n) meets [b, b+m)` (R10): the ranges share at least one byte. -/
def meets (a n b m : Nat) : Bool :=
  decide (0 < n) && decide (0 < m) && decide (a < b + m) && decide (b < a + n)

/-- `[a, a+n)` passes the end of BUF; the sum never wraps (R9, R124). -/
def pastBuf (s : State) (a n : Nat) : Bool := decide (s.params.bufSize < a + n)

/-- `[a, a+n)` meets the recorded frame's bytes (R93, R94, R220). -/
def meetsFrame (s : State) (a n : Nat) : Bool := meets a n s.frameBase.toNat s.frameLen.toNat

/-- A write into the parsed frame invalidates it (R93, R94). -/
def State.clearFrame (s : State) (a n : Nat) : State :=
  { s with frameValid := s.frameValid && !meetsFrame s a n }

/-! ### Chunks -/

/-- `LastIdx(c)` (R211). Read in the naturals: for `c = 0` under EXCL it is 0 where the rule has -1, and
`1 <= i <= LastIdx(c)` holds of no `i` either way. -/
def lastIdx : ChunkEnd → Nat → Nat
  | .excl, c => c - 1
  | .incl, c => c

/-- `i` is a valid index of the recorded frame (R211). -/
def validIndex (s : State) (i : Nat) : Bool :=
  decide (1 ≤ i) && decide (i ≤ lastIdx s.params.chunkEnd s.chunkCount.toNat)

/-- The BUF address of the offset field of descriptor `i` (R46, R219). -/
def chunkOffAddr (s : State) (i : Nat) : Nat := s.frameBase.toNat + 8 * i + 4

/-- The BUF address of the length field of descriptor `i` (R46, R219). -/
def chunkLenAddr (s : State) (i : Nat) : Nat := s.frameBase.toNat + 8 * i + 8

/-! ### Check lists -/

/-- What a list of checks answers: the first error and its ERR_INFO, or none. -/
abbrev CheckResult := Option (CmdError × Word)

/-- The blocks of a chained command over LEN bytes (R170). -/
def blockCount (n : Nat) : Nat := n / 8

/-- The checks of SWAP (R141). -/
def swapChecks (s : State) : CheckResult :=
  if pastBuf s s.src.toNat s.len.toNat then some (.range, 1)
  else if pastBuf s s.dst.toNat s.len.toNat then some (.range, 2)
  else if s.len.toNat % 4 ≠ 0 then some (.align, s.len)
  else if s.dst ≠ s.src ∧ meets s.src.toNat s.len.toNat s.dst.toNat s.len.toNat = true then
    some (.overlap, 0)
  else none

/-- The checks of CHAIN_ENC and CHAIN_DEC (R172, R173). -/
def chainChecks (s : State) : CheckResult :=
  if pastBuf s s.src.toNat s.len.toNat then some (.range, 1)
  else if pastBuf s s.dst.toNat (8 * blockCount s.len.toNat) then some (.range, 2)
  else if s.dst ≠ s.src ∧
      meets s.src.toNat (8 * blockCount s.len.toNat) s.dst.toNat (8 * blockCount s.len.toNat) = true then
    some (.overlap, 0)
  else none

/-- The check of SUM16 and CRC32 (R191, R194). -/
def sourceChecks (s : State) : CheckResult :=
  if pastBuf s s.src.toNat s.len.toNat then some (.range, 1) else none

/-- The checks of PARSE before its sum (R212). -/
def parseChecks (s : State) : CheckResult :=
  if pastBuf s s.src.toNat s.len.toNat then some (.range, 1)
  else if s.len.toNat < 4 then some (.frame, 1)
  else none

/-- The checks of CHUNK_DEC on a chunk's offset and length (R220, from ERR_RANGE(3) on). -/
def chunkExtentChecks (s : State) (off len : Word) : CheckResult :=
  if s.frameLen.toNat < off.toNat + len.toNat then some (.range, 3)
  else if pastBuf s s.dst.toNat (8 * blockCount len.toNat) then some (.range, 2)
  else if meetsFrame s s.dst.toNat (8 * blockCount len.toNat) then some (.overlap, 0)
  else none

/-- The checks of CHUNK_DEC (R220). -/
def chunkChecks (s : State) : Result CheckResult :=
  if s.frameValid = false then .next (some (.noFrame, 0))
  else if validIndex s s.chunkSel.toNat = false then
    .next (some (.chunkIndex, s.chunkSel.setWidth 32))
  else
    andThen (memRead32 s (chunkOffAddr s s.chunkSel.toNat)) fun off =>
      andThen (memRead32 s (chunkLenAddr s s.chunkSel.toNat)) fun len =>
        .next (chunkExtentChecks s off len)

/-- The checks of a command, before its first step does anything else (R264). -/
def commandChecks (s : State) : Instr → Result CheckResult
  | .nop => .next none
  | .encBlock => .next none
  | .decBlock => .next none
  | .swap => .next (swapChecks s)
  | .chainEnc _ _ _ => .next (chainChecks s)
  | .chainDec _ _ _ => .next (chainChecks s)
  | .sum16 => .next (sourceChecks s)
  | .crc32 => .next (sourceChecks s)
  | .parse => .next (parseChecks s)
  | .chunkDec => chunkChecks s

/-- Every check of the command passes. -/
def checksPass (s : State) (i : Instr) : Bool :=
  match commandChecks s i with
  | .next none => true
  | _ => false

/-- The number of blocks, words or bytes of a command, fixed at acceptance (spec/45_control.md R244,
spec/70_reset_and_hazards.md R304). -/
def elementCount (s : State) : Instr → Nat
  | .nop => 0
  | .encBlock => 0
  | .decBlock => 0
  | .swap => s.len.toNat / 4
  | .chainEnc _ _ _ => s.len.toNat / 8
  | .chainDec _ _ _ => s.len.toNat / 8
  | .sum16 => s.len.toNat
  | .crc32 => s.len.toNat
  | .parse => s.len.toNat - 2
  | .chunkDec => (wordAt s (chunkLenAddr s s.chunkSel.toNat)).toNat / 8

end Sys2Proof.Machine
end

