-- ==== Sys2Proof/Machine/Flags.lean ====
section
/-! DEFINITION. The engine's flags and the words made of them: STATUS (spec/10_state.md R29 to R32), CAP
(R25), the interrupt output (R36, spec/60_exceptions.md R270), and the granule of CUR (R33). -/

namespace Sys2Proof.Machine

/-- ID's value (R24). -/
def idValue : Word := 0x58544541

/-- STATUS.ERR: 1 exactly when ERR_CODE ≠ 0 (R32). -/
def errFlag (s : State) : Bool := s.errCode != 0

/-- The word a read of STATUS returns (R29). -/
def statusWord (s : State) : Word :=
  BitVec.ofNat 32 (s.busy.toNat + 2 * s.done.toNat + 4 * (errFlag s).toNat + 8 * s.frameValid.toNat
    + 256 * s.errCode.toNat)

/-- The word a read of CAP returns (R25): NROUNDS = 32, HAS_CRC32, CHUNK_END_INCL. -/
def capWord (p : Params) : Word :=
  BitVec.ofNat 32 (32 + 256 * p.hasCrc32.toNat + 512 * (p.chunkEnd == .incl).toNat)

/-- The interrupt output (R270). -/
def irq (s : State) : Bool := (s.intStatus &&& s.intEnable) != 0

/-- How many source bytes one step of a command consumes (R33). NOP has no step: CUR stays 0. -/
def granule : Instr → Nat
  | .encBlock => 8
  | .decBlock => 8
  | .chainEnc _ _ _ => 8
  | .chainDec _ _ _ => 8
  | .chunkDec => 8
  | .swap => 4
  | .sum16 => 1
  | .crc32 => 1
  | .parse => 1
  | .nop => 1

/-- The CUR a command completes with after its `n` blocks, words or bytes (R33): PARSE ends at N (R212), the block
commands at 8 (R155, R156). -/
def completedCur (s : State) (n : Nat) : Instr → Nat
  | .nop => 0
  | .encBlock => 8
  | .decBlock => 8
  | .swap => 4 * n
  | .chainEnc _ _ _ => 8 * n
  | .chainDec _ _ _ => 8 * n
  | .chunkDec => 8 * n
  | .sum16 => n
  | .crc32 => n
  | .parse => s.len.toNat

/-- The CUR a command of `n` blocks, words or bytes ends with once its checks have passed: that of its completion,
or that of the pending abort that is taken before one of them (R242). -/
def endingCur (s : State) (n : Nat) (i : Instr) : Nat :=
  if s.abortPend && decide (s.abortAt < n) then granule i * s.abortAt else completedCur s n i

/-- The running command's final CUR (R48), if neither an abort nor a reset comes after this. A command that fails its
checks leaves 0 (R33). -/
def finalCur (s : State) (i : Instr) : Nat :=
  match s.phase with
  | .loop => endingCur s s.count i
  | .check => if checksPass s i then endingCur s (elementCount s i) i else 0

/-- The commands that have abort points (R243). -/
def abortable : Instr → Bool
  | .swap => true
  | .chainEnc _ _ _ => true
  | .chainDec _ _ _ => true
  | .sum16 => true
  | .crc32 => true
  | .parse => true
  | .chunkDec => true
  | .nop => false
  | .encBlock => false
  | .decBlock => false

end Sys2Proof.Machine
end

