-- ==== Sys2Proof/Machine/ByteOrder.lean ====
section
/-! DEFINITION. The byte-order unit's command SWAP (spec/40_byteorder.md R141). -/

namespace Sys2Proof.Machine

/-- What SWAP does once its checks have passed, before its loop: a destination that meets the recorded frame
invalidates it (R94), and the loop has LEN/4 words. -/
def swapStart (s : State) : State :=
  (s.clearFrame s.dst.toNat s.len.toNat).beginLoop s.src.toNat (s.len.toNat / 4)

/-- Word j of SWAP (R141): read little-endian, stored with its bytes reversed. -/
def swapWord (s : State) : Result State :=
  andThen (memRead32 s (s.srcBase + 4 * s.index)) fun w =>
    andThen (memWrite s (s.dst.toNat + 4 * s.index) (bytesOfWord (bswap32 w) 4)) fun s1 =>
      .next (s1.advance 4)

/-- SWAP (R141): the command's next step. -/
def execSwap (s : State) : Result State :=
  commandStep (fun s => .next (swapChecks s)) swapStart swapWord finishPlain s

end Sys2Proof.Machine
end

