-- ==== Sys2Proof/Machine/Xtea.lean ====
section
/-! DEFINITION. The XTEA unit (spec/41_xtea.md R150 to R153) and its two commands, ENC_BLOCK (R155) and
DEC_BLOCK (R156). -/

namespace Sys2Proof.Machine

/-- `NROUNDS` (R7, R150). -/
def numRounds : Nat := 32

/-- `DELTA` (R150). -/
def delta : Word := 0x9E3779B9

/-- `DELTA * NROUNDS mod 2^32`, where deciphering starts (R153). -/
def sumEnd : Word := 0xC6EF3720

/-- `MIX(x)` (R151). -/
def mix (x : Word) : Word := ((x <<< 4) ^^^ (x >>> 5)) + x

/-- Key word `k[i]` (R38). -/
def keyWord (k : Key) (i : BitVec 2) : Word :=
  if i = 0 then k.k0 else if i = 1 then k.k1 else if i = 2 then k.k2 else k.k3

/-- `KA(sum) = k[sum[1:0]]` (R151). -/
def keyA (k : Key) (sum : Word) : Word := keyWord k (sum.extractLsb' 0 2)

/-- `KB(sum) = k[sum[12:11]]` (R151). -/
def keyB (k : Key) (sum : Word) : Word := keyWord k (sum.extractLsb' 11 2)

/-- The XTEA unit between two rounds: the block and the running `sum` (R49, R152). -/
structure Rounds where
  blk : Block
  sum : Word
deriving DecidableEq, Repr

/-- One iteration of the encipher loop (R152). -/
def encRound (k : Key) (x : Rounds) : Rounds :=
  let v0 := x.blk.v0 + (mix x.blk.v1 ^^^ (x.sum + keyA k x.sum))
  let sum := x.sum + delta
  let v1 := x.blk.v1 + (mix v0 ^^^ (sum + keyB k sum))
  ⟨⟨v0, v1⟩, sum⟩

/-- One iteration of the decipher loop (R153). -/
def decRound (k : Key) (x : Rounds) : Rounds :=
  let v1 := x.blk.v1 - (mix x.blk.v0 ^^^ (x.sum + keyB k x.sum))
  let sum := x.sum - delta
  let v0 := x.blk.v0 - (mix v1 ^^^ (sum + keyA k sum))
  ⟨⟨v0, v1⟩, sum⟩

/-- `n` iterations of the encipher loop. -/
def encRounds (k : Key) : Nat → Rounds → Rounds
  | 0, x => x
  | n + 1, x => encRounds k n (encRound k x)

/-- `n` iterations of the decipher loop. -/
def decRounds (k : Key) : Nat → Rounds → Rounds
  | 0, x => x
  | n + 1, x => decRounds k n (decRound k x)

/-- `XTEA_ENC` with the sum it ends at (R152). -/
def xteaEncRun (b : Block) (k : Key) : Rounds := encRounds k numRounds ⟨b, 0⟩

/-- `XTEA_DEC` with the sum it ends at (R153). -/
def xteaDecRun (b : Block) (k : Key) : Rounds := decRounds k numRounds ⟨b, sumEnd⟩

/-- `XTEA_ENC(v0, v1, k)` (R152). -/
def xteaEnc (b : Block) (k : Key) : Block := (xteaEncRun b k).blk

/-- `XTEA_DEC(v0, v1, k)` (R153). -/
def xteaDec (b : Block) (k : Key) : Block := (xteaDecRun b k).blk

/-- What a run of the XTEA unit leaves in its hidden counter and sum (R49): the last iteration's number and
the sum after it (log 5). -/
def State.ranXtea (s : State) (x : Rounds) : State := { s with round := 31, roundSum := x.sum }

/-- ENC_BLOCK (R155): BLK0/BLK1 enciphered in place. -/
def execEncBlock (s : State) : Result State :=
  .next (State.complete
    (State.advance { s.ranXtea (xteaEncRun s.blk s.key) with blk := xteaEnc s.blk s.key, index := 0 } 8))

/-- DEC_BLOCK (R156): BLK0/BLK1 deciphered in place. -/
def execDecBlock (s : State) : Result State :=
  .next (State.complete
    (State.advance { s.ranXtea (xteaDecRun s.blk s.key) with blk := xteaDec s.blk s.key, index := 0 } 8))

end Sys2Proof.Machine
end

