-- ==== Sys2Proof/Machine/Chain.lean ====
section
/-! DEFINITION. The chaining controller (spec/42_chain.md R170 to R178): CHAIN_ENC (R172) and CHAIN_DEC (R173). -/

namespace Sys2Proof.Machine

/-- The feedback a chained command starts from (R171): zero, or FB0/FB1 as they stand when CONT = 1. -/
def State.startFeedback (s : State) (cont : Bool) : State :=
  { s with fb := if cont then s.fb else ⟨0, 0⟩ }

/-- What a chained command does once its checks have passed, before its loop (R172, R173). -/
def chainStart (cont : Bool) (s : State) : State :=
  ((s.startFeedback cont).clearFrame s.dst.toNat (8 * blockCount s.len.toNat)).beginLoop
    s.src.toNat (blockCount s.len.toNat)

/-- After one run of the XTEA unit in a chain: its counter and sum, the block read, and the new feedback (R49,
R172, R173). -/
def State.chained (s : State) (x : Rounds) (w f : Block) : State := { s.ranXtea x with latch := w, fb := f }

/-- One block enciphered: `C = XTEA_ENC(P ^ F)`, `F = C`, `C` stored (R172). -/
def chainEncBlock (swi swo : Bool) (s : State) : Result State :=
  andThen (rdBlock s (s.srcBase + 8 * s.index) swi) fun w =>
    andThen (wrBlock (s.chained (xteaEncRun (w.xor s.fb) s.key) w (xteaEnc (w.xor s.fb) s.key))
        (s.dst.toNat + 8 * s.index) (xteaEnc (w.xor s.fb) s.key) swo)
      fun s1 => .next (s1.advance 8)

/-- One block deciphered: `P = XTEA_DEC(C) ^ F`, `F = C`, `P` stored (R173). The ciphertext is latched
before its bytes are overwritten. -/
def chainDecBlock (swi swo : Bool) (s : State) : Result State :=
  andThen (rdBlock s (s.srcBase + 8 * s.index) swi) fun w =>
    andThen (wrBlock (s.chained (xteaDecRun w s.key) w w) (s.dst.toNat + 8 * s.index)
        ((xteaDec w s.key).xor s.fb) swo)
      fun s1 => .next (s1.advance 8)

/-- CHAIN_ENC (R172): the command's next step. -/
def execChainEnc (swi swo cont : Bool) (s : State) : Result State :=
  commandStep (fun s => .next (chainChecks s)) (chainStart cont) (chainEncBlock swi swo) finishPlain s

/-- CHAIN_DEC (R173): the command's next step. -/
def execChainDec (swi swo cont : Bool) (s : State) : Result State :=
  commandStep (fun s => .next (chainChecks s)) (chainStart cont) (chainDecBlock swi swo) finishPlain s

end Sys2Proof.Machine
end

