-- ==== Sys2Proof/Machine/Check.lean ====
section
/-! DEFINITION. The check generator (spec/43_checksum.md): SUM16 (R190, R191) and CRC32 (R193, R194). -/

namespace Sys2Proof.Machine

/-- Begin a run over LEN source bytes with the 16-bit sum at 0 (R191, R212). -/
def State.beginSum (s : State) (count : Nat) : State :=
  { s.beginLoop s.src.toNat count with sum16 := 0 }

/-- One byte is added to the 16-bit sum, unsigned (R190, R191, R212). -/
def sumByte (s : State) : Result State :=
  andThen (memRead8 s (s.srcBase + s.index)) fun b =>
    .next (State.advance { s with sum16 := s.sum16 + b.setWidth 16 } 1)

/-- The end of SUM16: CHK takes the sum, zero-extended (R191). -/
def sumFinish (s : State) : Result State :=
  .next (State.complete { s with chk := s.sum16.setWidth 32 })

/-- SUM16 (R191): the command's next step. -/
def execSum16 (s : State) : Result State :=
  commandStep (fun s => .next (sourceChecks s)) (fun s => s.beginSum s.len.toNat) sumByte sumFinish s

/-- `reflect8(b)` (R193). -/
def reflect8 (b : Byte) : Byte := b.reverse

/-- `reflect32(x)` (R193). -/
def reflect32 (x : Word) : Word := x.reverse

/-- One bit of the CRC loop (R194). -/
def crcBit (poly crc : Word) : Word :=
  if crc.getLsbD 31 then (crc <<< 1) ^^^ poly else crc <<< 1

/-- `n` bits of the CRC loop. -/
def crcBits (poly : Word) : Nat → Word → Word
  | 0, crc => crc
  | n + 1, crc => crcBits poly n (crcBit poly crc)

/-- One byte of the CRC loop: reflected when REFIN = 1, XORed into bits [31:24], eight bits shifted (R194). -/
def crcByte (poly : Word) (refin : Bool) (crc : Word) (b : Byte) : Word :=
  crcBits poly 8 (crc ^^^ ((if refin then reflect8 b else b).setWidth 32 <<< 24))

/-- The result of a CRC run: reflected when REFOUT = 1, then XORed (R194). -/
def crcResult (refout : Bool) (xorout crc : Word) : Word :=
  (if refout then reflect32 crc else crc) ^^^ xorout

/-- What CRC32 does once its check has passed, before its loop (R194). -/
def crcStart (s : State) : State :=
  { s.beginLoop s.src.toNat s.len.toNat with crc := s.crcInit }

/-- One byte of CRC32 (R194). -/
def crcStep (s : State) : Result State :=
  andThen (memRead8 s (s.srcBase + s.index)) fun b =>
    .next (State.advance { s with crc := crcByte s.crcPoly (s.crcCfg.getLsbD 0) s.crc b } 1)

/-- The end of CRC32: the shift register is reflected when REFOUT = 1, and CHK takes it XORed with
CRC_XOROUT (R194). -/
def crcFinish (s : State) : Result State :=
  .next (State.complete
    { s with crc := if s.crcCfg.getLsbD 1 then reflect32 s.crc else s.crc,
             chk := crcResult (s.crcCfg.getLsbD 1) s.crcXorout s.crc })

/-- CRC32 (R194): the command's next step. -/
def execCrc32 (s : State) : Result State :=
  commandStep (fun s => .next (sourceChecks s)) crcStart crcStep crcFinish s

end Sys2Proof.Machine
end

