-- ==== Sys2Proof/Machine/Control.lean ====
section
/-! DEFINITION. NOP (spec/45_control.md R240). -/

namespace Sys2Proof.Machine

/-- NOP (R240): `complete()`. -/
def execNop (s : State) : Result State := .next s.complete

end Sys2Proof.Machine
end

