-- ==== Sys2Proof/Machine/Frame.lean ====
section
/-! DEFINITION. The CRP frame parser (spec/44_frame.md): PARSE (R212 to R217) and CHUNK_DEC (R220). -/

namespace Sys2Proof.Machine

/-- PARSE clears FRAME_VALID before anything else, even before its checks (R212). -/
def parseChecksStart (s : State) : State :=
  match s.phase with
  | .check => { s with frameValid := false }
  | .loop => s

/-- The registers PARSE writes once the frame is summed, whether the check then passes or not (R214). -/
def State.summedFrame (s : State) (trailer : Half) : State :=
  { s with chk := s.sum16.setWidth 32, chkRef := trailer, cur := s.len }

/-- The descriptor table of a frame of N bytes with count `c` reaches the trailer (R215). -/
def tableTooLong (e : ChunkEnd) (n c : Nat) : Bool :=
  decide (1 ≤ lastIdx e c) && decide (n - 2 < 8 * lastIdx e c + 12)

/-- A successful parse (R216). -/
def State.recordFrame (s : State) (count : Half) : State :=
  { s with frameBase := s.src, frameLen := s.len, chunkCount := count, frameValid := true }

/-- What stands after PARSE's loop (R212): the trailer, the checksum rule (R213), the count, the table check
(R215), and the recording of the frame. -/
def parseFinish (s : State) : Result State :=
  andThen (memRead16 s (s.srcBase + s.len.toNat - 2)) fun t =>
    if s.sum16 ≠ t then .next ((s.summedFrame t).raiseError .checksum (t ++ s.sum16))
    else andThen (memRead16 s s.srcBase) fun c =>
      if tableTooLong s.params.chunkEnd s.len.toNat c.toNat then
        .next ((s.summedFrame t).raiseError .frame 2)
      else .next ((s.summedFrame t).recordFrame c).complete

/-- PARSE (R212): the command's next step. -/
def execParse (s : State) : Result State :=
  commandStep (fun s => .next (parseChecks s)) (fun s => s.beginSum (s.len.toNat - 2)) sumByte parseFinish
    (parseChecksStart s)

/-- What CHUNK_DEC does once its checks have passed, before its loop (R220): F is zeroed, and the loop reads
the chunk's whole blocks at `FRAME_BASE + off`. -/
def chunkStart (s : State) : State :=
  (s.startFeedback false).beginLoop
    (s.frameBase.toNat + (wordAt s (chunkOffAddr s s.chunkSel.toNat)).toNat)
    (blockCount (wordAt s (chunkLenAddr s s.chunkSel.toNat)).toNat)

/-- CHUNK_DEC (R220): the command's next step. Both byte-order transforms are fixed. -/
def execChunkDec (s : State) : Result State :=
  commandStep chunkChecks chunkStart (chainDecBlock true true) finishPlain s

end Sys2Proof.Machine
end

