-- ==== Sys2Proof/Machine/Dispatch.lean ====
section
/-! DEFINITION. One arm per command: the next step of the sequencer running that command (spec/60_exceptions.md
R260, spec/20_memory.md R100). -/

namespace Sys2Proof.Machine

def exec (i : Instr) (s : State) : Host.Outcome State Fault Refusal :=
  match i with
  | .nop => Sys2Proof.Machine.execNop s
  | .encBlock => Sys2Proof.Machine.execEncBlock s
  | .decBlock => Sys2Proof.Machine.execDecBlock s
  | .swap => Sys2Proof.Machine.execSwap s
  | .chainEnc swi swo cont => Sys2Proof.Machine.execChainEnc swi swo cont s
  | .chainDec swi swo cont => Sys2Proof.Machine.execChainDec swi swo cont s
  | .sum16 => Sys2Proof.Machine.execSum16 s
  | .crc32 => Sys2Proof.Machine.execCrc32 s
  | .parse => Sys2Proof.Machine.execParse s
  | .chunkDec => Sys2Proof.Machine.execChunkDec s

end Sys2Proof.Machine
end

