-- ==== Sys2Proof/Machine/HostPort.lean ====
section
/-! DEFINITION. The host's side of the engine: the window (spec/20_memory.md R82), register and BUF accesses
(R90 to R93, spec/10_state.md R21 to R48), soft reset (spec/70_reset_and_hazards.md R291, R292), abort
requests (spec/45_control.md R242) and power-on reset (R290). -/

namespace Sys2Proof.Machine

/-! ### The window -/

/-- The bytes of the host window (R82). -/
def windowSize : Nat := 0x2000000

/-- The window offset at which BUF begins (R82). -/
def bufWindow : Nat := 0x1000000

/-- What a window offset belongs to (R82). -/
inductive Region where
  /-- The register space, with the offset. -/
  | register (offset : Nat)
  /-- Reserved: reads 0, writes ignored, no access error. -/
  | reserved
  /-- BUF and what lies beyond it, with the BUF address. -/
  | buffer (address : Nat)
  /-- Not in the engine's window: the transaction does not reach the engine. -/
  | outside
deriving DecidableEq, Repr

/-- The region of a host address on an engine whose window stands at `base` (R82). The first byte of an
access decides (log 10). -/
def regionOf (base address : Nat) : Region :=
  if address < base ∨ base + windowSize ≤ address then .outside
  else if address - base < 0x100 then .register (address - base)
  else if address - base < bufWindow then .reserved
  else .buffer (address - base - bufWindow)

/-! ### Registers -/

/-- The registers of R21, in the order of their offsets. -/
inductive Reg where
  | id | cap | bufsz | ctrl | cmd | status | errInfo | cur | intStatus | intEnable | src | dst | len
  | key0 | key1 | key2 | key3 | fb0 | fb1 | blk0 | blk1 | chk | chkRef | crcPoly | crcInit | crcXorout
  | crcCfg | frameBase | frameLen | chunkCount | chunkSel | chunkOff | chunkLen
deriving DecidableEq, Repr

/-- A register's offset (R21). -/
def Reg.offset : Reg → Nat
  | .id => 0x000
  | .cap => 0x004
  | .bufsz => 0x008
  | .ctrl => 0x00C
  | .cmd => 0x010
  | .status => 0x014
  | .errInfo => 0x018
  | .cur => 0x01C
  | .intStatus => 0x020
  | .intEnable => 0x024
  | .src => 0x028
  | .dst => 0x02C
  | .len => 0x030
  | .key0 => 0x040
  | .key1 => 0x044
  | .key2 => 0x048
  | .key3 => 0x04C
  | .fb0 => 0x050
  | .fb1 => 0x054
  | .blk0 => 0x058
  | .blk1 => 0x05C
  | .chk => 0x060
  | .chkRef => 0x064
  | .crcPoly => 0x068
  | .crcInit => 0x06C
  | .crcXorout => 0x070
  | .crcCfg => 0x074
  | .frameBase => 0x078
  | .frameLen => 0x07C
  | .chunkCount => 0x080
  | .chunkSel => 0x084
  | .chunkOff => 0x088
  | .chunkLen => 0x08C

/-- The register at an offset; the other offsets of `[0x000, 0x100)` are reserved (R21, R22). -/
def regAt : Nat → Option Reg
  | 0x000 => some .id
  | 0x004 => some .cap
  | 0x008 => some .bufsz
  | 0x00C => some .ctrl
  | 0x010 => some .cmd
  | 0x014 => some .status
  | 0x018 => some .errInfo
  | 0x01C => some .cur
  | 0x020 => some .intStatus
  | 0x024 => some .intEnable
  | 0x028 => some .src
  | 0x02C => some .dst
  | 0x030 => some .len
  | 0x040 => some .key0
  | 0x044 => some .key1
  | 0x048 => some .key2
  | 0x04C => some .key3
  | 0x050 => some .fb0
  | 0x054 => some .fb1
  | 0x058 => some .blk0
  | 0x05C => some .blk1
  | 0x060 => some .chk
  | 0x064 => some .chkRef
  | 0x068 => some .crcPoly
  | 0x06C => some .crcInit
  | 0x070 => some .crcXorout
  | 0x074 => some .crcCfg
  | 0x078 => some .frameBase
  | 0x07C => some .frameLen
  | 0x080 => some .chunkCount
  | 0x084 => some .chunkSel
  | 0x088 => some .chunkOff
  | 0x08C => some .chunkLen
  | _ => none

/-! ### Reads -/

/-- CHUNK_OFF or CHUNK_LEN (R46): the descriptor field at an address, or 0 without a valid frame and index. -/
def chunkView (s : State) (address : Nat) : Result Word :=
  if s.frameValid && validIndex s s.chunkSel.toNat then memRead32 s address else .next 0

/-- The value a register read returns while the engine is idle (R21, R29, R46). -/
def regValue (s : State) : Reg → Result Word
  | .id => .next idValue
  | .cap => .next (capWord s.params)
  | .bufsz => .next (BitVec.ofNat 32 s.params.bufSize)
  | .ctrl => .next 0
  | .cmd => .next s.cmd
  | .status => .next (statusWord s)
  | .errInfo => .next s.errInfo
  | .cur => .next s.cur
  | .intStatus => .next (s.intStatus.setWidth 32)
  | .intEnable => .next (s.intEnable.setWidth 32)
  | .src => .next s.src
  | .dst => .next s.dst
  | .len => .next s.len
  | .key0 => .next s.key.k0
  | .key1 => .next s.key.k1
  | .key2 => .next s.key.k2
  | .key3 => .next s.key.k3
  | .fb0 => .next s.fb.v0
  | .fb1 => .next s.fb.v1
  | .blk0 => .next s.blk.v0
  | .blk1 => .next s.blk.v1
  | .chk => .next s.chk
  | .chkRef => .next (s.chkRef.setWidth 32)
  | .crcPoly => .next s.crcPoly
  | .crcInit => .next s.crcInit
  | .crcXorout => .next s.crcXorout
  | .crcCfg => .next (s.crcCfg.setWidth 32)
  | .frameBase => .next s.frameBase
  | .frameLen => .next s.frameLen
  | .chunkCount => .next (s.chunkCount.setWidth 32)
  | .chunkSel => .next (s.chunkSel.setWidth 32)
  | .chunkOff => chunkView s (chunkOffAddr s s.chunkSel.toNat)
  | .chunkLen => chunkView s (chunkLenAddr s s.chunkSel.toNat)

/-- What a read of a register returns while a command runs (R48). -/
inductive BusyRead where
  /-- Its current value. -/
  | current
  /-- A draw of so many low bits, the others being reserved (R23). -/
  | draw (bits : Nat)
  /-- CUR's constrained draw. -/
  | cursor
deriving DecidableEq, Repr

/-- R48's three lists. -/
def Reg.busyRead : Reg → BusyRead
  | .cur => .cursor
  | .fb0 => .draw 32
  | .fb1 => .draw 32
  | .blk0 => .draw 32
  | .blk1 => .draw 32
  | .chk => .draw 32
  | .chkRef => .draw 16
  | .frameBase => .draw 32
  | .frameLen => .draw 32
  | .chunkCount => .draw 16
  | .chunkOff => .draw 32
  | .chunkLen => .draw 32
  | .id => .current
  | .cap => .current
  | .bufsz => .current
  | .ctrl => .current
  | .cmd => .current
  | .status => .current
  | .errInfo => .current
  | .intStatus => .current
  | .intEnable => .current
  | .src => .current
  | .dst => .current
  | .len => .current
  | .key0 => .current
  | .key1 => .current
  | .key2 => .current
  | .key3 => .current
  | .crcPoly => .current
  | .crcInit => .current
  | .crcXorout => .current
  | .crcCfg => .current
  | .chunkSel => .current

/-- The host receives a value. -/
def State.answer (s : State) (v : Word) : State := { s with readData := v }

/-- What a CUR read returns while a command runs (R48): from the value of the last such read, up by a free number of
granules, no further than the command's final CUR (log 7). -/
def cursorDraw (s : State) : Word :=
  match currentCommand s with
  | .ok i => BitVec.ofNat 32 (s.curSeen.toNat + granule i *
      ((Config.freeWord s.draws).toNat % ((finalCur s i - s.curSeen.toNat) / granule i + 1)))
  | .error _ => s.curSeen

/-- An aligned 32-bit register read (R21, R48, R95). -/
def readReg (r : Reg) (s : State) : Result State :=
  if s.busy then
    match r.busyRead with
    | .current => andThen (regValue s r) fun v => .next (s.answer v)
    | .draw bits =>
      .next (State.answer { s with draws := s.draws + 1 }
        (((Config.freeWord s.draws).setWidth bits).setWidth 32))
    | .cursor =>
      .next (State.answer { s with draws := s.draws + 1, curSeen := cursorDraw s } (cursorDraw s))
  else andThen (regValue s r) fun v => .next (s.answer v)

/-! ### Soft reset and abort -/

/-- The length of a command's output (R94, R292): what it writes, or would write, from DST up. CHUNK_DEC's is
taken from the selected descriptor. -/
def outLen (s : State) : Instr → Nat
  | .swap => s.len.toNat
  | .chainEnc _ _ _ => 8 * blockCount s.len.toNat
  | .chainDec _ _ _ => 8 * blockCount s.len.toNat
  | .chunkDec =>
    if s.frameValid && validIndex s s.chunkSel.toNat then
      8 * blockCount (wordAt s (chunkLenAddr s s.chunkSel.toNat)).toNat
    else 0
  | .nop => 0
  | .encBlock => 0
  | .decBlock => 0
  | .sum16 => 0
  | .crc32 => 0
  | .parse => 0

/-- The bytes of BUF a soft reset leaves unspecified: those of the running command's destination that exist
(R292, log 9). -/
def scrambleLen (s : State) : Nat :=
  if s.busy then
    match currentCommand s with
    | .ok i => min (outLen s i) (s.params.bufSize - s.dst.toNat)
    | .error _ => 0
  else 0

/-- `n` fresh free bytes (log 6). -/
def freeBytes (first n : Nat) : List Byte := (List.range n).map fun i => Config.freeByte (first + i)

/-- Soft reset (R241, R291, R292): every register and the hidden state as after power-on, BUF unchanged but
for the destination of a running command. The model's own records of the world outside go on. -/
def State.softReset (s : State) : State :=
  { State.resetWith s.params with
    buf := memPut s.buf s.dst.toNat (freeBytes s.draws (scrambleLen s))
    epoch := s.epoch
    draws := s.draws + scrambleLen s
    readData := s.readData
    pending := s.pending }

/-- Power-on reset (R290, R278): everything is lost, and BUF is unspecified anew. -/
def State.powerOnReset (s : State) : State :=
  { State.resetWith s.params with
    epoch := s.epoch + 1
    draws := s.draws
    readData := s.readData
    pending := s.pending }

/-- The first element before which an abort requested now can be taken: not before the next one, so that CUR keeps the
steps already done (R242, U6), nor before what a CUR read has already returned (R48). -/
def abortFloor (s : State) (i : Instr) : Nat :=
  max s.index ((s.curSeen.toNat + (granule i - 1)) / granule i)

/-- CTRL.ABORT (R242): remembered while an abortable command runs, otherwise without effect. How many more steps run
before it is taken is a free draw; past the last step it is lost (U6, log 15). -/
def State.requestAbort (s : State) : State :=
  if s.busy then
    match currentCommand s with
    | .ok i =>
      if abortable i && !s.abortPend then
        { s with abortPend := true, abortAt := abortFloor s i + (Config.freeWord s.draws).toNat,
                 draws := s.draws + 1 }
      else s
    | .error _ => s
  else s

/-- A write of CTRL (R27): with both bits set, the soft reset only. -/
def writeCtrl (v : Word) (s : State) : State :=
  if v.getLsbD 0 then s.softReset
  else if v.getLsbD 1 then s.requestAbort
  else s

/-! ### Register writes -/

/-- The registers whose writes are accepted while a command runs (R47). -/
def Reg.openWhileBusy : Reg → Bool
  | .ctrl => true
  | .intStatus => true
  | .intEnable => true
  | .id => false
  | .cap => false
  | .bufsz => false
  | .cmd => false
  | .status => false
  | .errInfo => false
  | .cur => false
  | .src => false
  | .dst => false
  | .len => false
  | .key0 => false
  | .key1 => false
  | .key2 => false
  | .key3 => false
  | .fb0 => false
  | .fb1 => false
  | .blk0 => false
  | .blk1 => false
  | .chk => false
  | .chkRef => false
  | .crcPoly => false
  | .crcInit => false
  | .crcXorout => false
  | .crcCfg => false
  | .frameBase => false
  | .frameLen => false
  | .chunkCount => false
  | .chunkSel => false
  | .chunkOff => false
  | .chunkLen => false

/-- The effect of an accepted register write (R21, R23): a read-only register ignores it, a narrower field
keeps its own bits. -/
def setReg (s : State) (v : Word) : Reg → State
  | .ctrl => writeCtrl v s
  | .cmd => s.accept v
  | .intStatus => { s with intStatus := s.intStatus &&& ~~~(v.setWidth 3) }
  | .intEnable => { s with intEnable := v.setWidth 3 }
  | .src => { s with src := v }
  | .dst => { s with dst := v }
  | .len => { s with len := v }
  | .key0 => { s with key := { s.key with k0 := v } }
  | .key1 => { s with key := { s.key with k1 := v } }
  | .key2 => { s with key := { s.key with k2 := v } }
  | .key3 => { s with key := { s.key with k3 := v } }
  | .fb0 => { s with fb := { s.fb with v0 := v } }
  | .fb1 => { s with fb := { s.fb with v1 := v } }
  | .blk0 => { s with blk := { s.blk with v0 := v } }
  | .blk1 => { s with blk := { s.blk with v1 := v } }
  | .crcPoly => { s with crcPoly := v }
  | .crcInit => { s with crcInit := v }
  | .crcXorout => { s with crcXorout := v }
  | .crcCfg => { s with crcCfg := v.setWidth 2 }
  | .chunkSel => { s with chunkSel := v.setWidth 16 }
  | .id => s
  | .cap => s
  | .bufsz => s
  | .status => s
  | .errInfo => s
  | .cur => s
  | .chk => s
  | .chkRef => s
  | .frameBase => s
  | .frameLen => s
  | .chunkCount => s
  | .chunkOff => s
  | .chunkLen => s

/-- An aligned 32-bit register write (R21, R47). -/
def writeReg (r : Reg) (v : Word) (s : State) : State :=
  if s.busy && !r.openWhileBusy then s.accessError else setReg s v r

/-! ### BUF accesses -/

/-- The bytes of an access the BUF space takes (R91). -/
def Width.bytes : Width → Option Nat
  | .byte => some 1
  | .half => some 2
  | .word => some 4
  | .other _ => none

/-- The bytes a host BUF access at `a` touches, if it is accepted: idle engine, natural alignment, inside BUF
(R91, R92). -/
def bufAccess (s : State) (a : Nat) (w : Width) : Option Nat :=
  match w.bytes with
  | some n => if !s.busy && a % n == 0 && decide (a + n ≤ s.params.bufSize) then some n else none
  | none => none

/-- The `n`-byte little-endian value at a BUF address, zero-extended (R89). -/
def bufValue (s : State) (a : Nat) : Nat → Word
  | 1 => (byteAt s a).setWidth 32
  | 2 => (halfAt s a).setWidth 32
  | _ => wordAt s a

/-- A host BUF read (R89, R91, R92). -/
def readBuf (a : Nat) (w : Width) (s : State) : State :=
  match bufAccess s a w with
  | some n => s.answer (bufValue s a n)
  | none => s.accessError.answer 0

/-- A host BUF write (R89, R91 to R93). -/
def writeBuf (a : Nat) (w : Width) (v : Word) (s : State) : State :=
  match bufAccess s a w with
  | some n => (s.clearFrame a n).storeBytes a (bytesOfWord v n)
  | none => s.accessError

/-! ### Transactions -/

/-- One host transaction, as one event (R82, R90 to R92, R95). -/
def hostAccess (x : Access) (s : State) : Result State :=
  match x with
  | .read address w =>
    match regionOf s.params.hostBase address with
    | .outside => .next s
    | .reserved => .next (s.answer 0)
    | .buffer a => .next (readBuf a w s)
    | .register off =>
      if w == .word && off % 4 == 0 then
        match regAt off with
        | some r => readReg r s
        | none => .next (s.answer 0)
      else .next (s.accessError.answer 0)
  | .write address w v =>
    match regionOf s.params.hostBase address with
    | .outside => .next s
    | .reserved => .next s
    | .buffer a => .next (writeBuf a w v s)
    | .register off =>
      if w == .word && off % 4 == 0 then
        match regAt off with
        | some r => .next (writeReg r v s)
        | none => .next s
      else .next s.accessError

end Sys2Proof.Machine
end

