-- ==== Sys2Proof/Machine/Sequencer.lean ====
section
/-! DEFINITION. The events of the total order (spec/20_memory.md R100): the sequencer's step, and what each
event does. -/

namespace Sys2Proof.Machine

/-- The sequencer's next step (R100, R260, R303): it takes the command CMD holds (R28, R105) and runs its next
step; idle, it does nothing (R293). A word that is no command never runs (R260); met here, it ends in the
same ERR_BAD_CMD. -/
def sequencerStep (s : State) : Result State :=
  match s.seq with
  | .idle => .next s
  | .run =>
    match currentCommand s with
    | .ok i => exec i s
    | .error _ => .next (s.raiseError .badCmd s.cmd)

/-- The host's WAIT, still at the head of the order while a command runs (R127, R303): the sequencer steps;
once BUSY = 0 the host has read STATUS and goes on. -/
def waitStep (rest : List Event) (s : State) : Result State :=
  match s.seq with
  | .run => sequencerStep s
  | .idle => .next (State.answer { s with pending := rest } (statusWord s))

/-- What the next event does. With nothing pending, a running sequencer steps (fairness, R303). -/
def nextEvent (s : State) : Result State :=
  match s.pending with
  | [] => sequencerStep s
  | .sequencer :: rest => sequencerStep { s with pending := rest }
  | .host x :: rest => hostAccess x { s with pending := rest }
  | .powerOn :: rest => .next (State.powerOnReset { s with pending := rest })
  | .wait :: rest => waitStep rest s

/-- The state in which the sequencer's next step is the first step of the command whose bits are `w`: the word
is accepted into CMD and the next event is the sequencer's. -/
def placeCommand (s : State) (nbits w : Nat) : State :=
  { s.latchCommand (BitVec.ofNat 32 (w % 2 ^ nbits)) with pending := .sequencer :: s.pending }

end Sys2Proof.Machine
end

