-- ==== Sys2Proof/Machine/Step.lean ====
section
/-! DEFINITION. The machine's step: the next event of the total order (spec/20_memory.md R100). -/

namespace Sys2Proof.Machine

/-- One step of the machine: the next event. -/
def step (s : State) : Host.Outcome State Fault Refusal := nextEvent s

/-- `s` with the instruction of bits `w` where the next step fetches: in CMD, accepted, with the sequencer to
move (log 11). -/
def State.withFetchWord (s : State) (nbits w : Nat) : State := placeCommand s nbits w

end Sys2Proof.Machine
end

