-- ==== Sys2Proof/Safety.lean ====
section
/-! DEFINITION. What counts as a legal state of the engine (the invariant `EngineInv`), how a command runs to its
completion, and the functions of the spec's prose that a command's results are stated with: the cipher
sequence of a chain, the plaintext of a chain, the byte sum and the CRC of a range. -/

namespace Sys2Proof.Machine

/-! ### Running a command -/

/-- At most `n` sequencer steps of command `i`, stopping when it has completed (spec/60_exceptions.md R260,
spec/70_reset_and_hazards.md R304). No other event comes between. -/
def runCommand (i : Instr) : Nat → State → Result State
  | 0, s => .next s
  | n + 1, s =>
    match s.seq with
    | .idle => .next s
    | .run => andThen (exec i s) (runCommand i n)

/-- A command is accepted, no abort is pending, and its first step is still to be taken (R260). -/
def AtStart (s : State) : Prop := s.seq = .run ∧ s.phase = .check ∧ s.abortPend = false

/-- A command is in its loop, with another block, word or byte to process and no abort due before it. -/
def AtElement (s : State) : Prop :=
  s.seq = .run ∧ s.phase = .loop ∧ abortDue s = false ∧ s.index < s.count

/-- A command has processed every block, word or byte. -/
def AtEnd (s : State) : Prop := s.seq = .run ∧ s.phase = .loop ∧ s.count ≤ s.index

/-- The state `s` with the sequencer's hidden working state taken from `t` (spec/10_state.md R49: no part of it is
observable but through CUR). -/
def State.withScratch (s t : State) : State :=
  { s with phase := t.phase, index := t.index, count := t.count, srcBase := t.srcBase, sum16 := t.sum16,
           crc := t.crc, round := t.round, roundSum := t.roundSum, latch := t.latch }

/-! ### Results in the spec's own terms -/

/-- `s` after a successful completion and nothing else (R261). -/
def successOf (s : State) : State :=
  { s with seq := .idle, done := true, intStatus := s.intStatus ||| 0b001, abortPend := false }

/-- `s` after an error completion with a code of R263's table and nothing else (R262). -/
def errorOf (s : State) (code : BitVec 8) (info : Word) : State :=
  { s with errCode := code, errInfo := info, seq := .idle, done := true,
           intStatus := s.intStatus ||| 0b011, abortPend := false }

/-- The feedback a command's start leaves, once its checks have passed (spec/42_chain.md R171, spec/44_frame.md
R220). -/
def startFb (s : State) : Instr → Block
  | .chainEnc _ _ cont => if cont then s.fb else ⟨0, 0⟩
  | .chainDec _ _ cont => if cont then s.fb else ⟨0, 0⟩
  | .chunkDec => ⟨0, 0⟩
  | .nop => s.fb
  | .encBlock => s.fb
  | .decBlock => s.fb
  | .swap => s.fb
  | .sum16 => s.fb
  | .crc32 => s.fb
  | .parse => s.fb

/-- FRAME_VALID as a command's start leaves it, once its checks have passed (spec/20_memory.md R94,
spec/44_frame.md R212). -/
def startFrameValid (s : State) : Instr → Bool
  | .swap => s.frameValid && !meetsFrame s s.dst.toNat s.len.toNat
  | .chainEnc _ _ _ => s.frameValid && !meetsFrame s s.dst.toNat (8 * (s.len.toNat / 8))
  | .chainDec _ _ _ => s.frameValid && !meetsFrame s s.dst.toNat (8 * (s.len.toNat / 8))
  | .parse => false
  | .nop => s.frameValid
  | .encBlock => s.frameValid
  | .decBlock => s.frameValid
  | .sum16 => s.frameValid
  | .crc32 => s.frameValid
  | .chunkDec => s.frameValid

/-- What every register reads right after a reset of an engine with parameters `p` (spec/10_state.md R21,
spec/70_reset_and_hazards.md R290). -/
def ResetReads (p : Params) (s : State) : Prop :=
  regValue s .id = .next 0x58544541 ∧
  regValue s .cap =
    .next ((if p.chunkEnd = .incl then 0x200 else 0) + (if p.hasCrc32 then 0x100 else 0) + 0x20) ∧
  regValue s .bufsz = .next (BitVec.ofNat 32 p.bufSize) ∧
  regValue s .key0 = .next p.keyReset.k0 ∧ regValue s .key1 = .next p.keyReset.k1 ∧
  regValue s .key2 = .next p.keyReset.k2 ∧ regValue s .key3 = .next p.keyReset.k3 ∧
  regValue s .crcPoly = .next 0x04C11DB7 ∧ regValue s .crcInit = .next 0xFFFFFFFF ∧
  regValue s .crcXorout = .next 0xFFFFFFFF ∧ regValue s .crcCfg = .next 3 ∧
  (∀ r ∈ [Reg.ctrl, .cmd, .status, .errInfo, .cur, .intStatus, .intEnable, .src, .dst, .len, .fb0, .fb1,
    .blk0, .blk1, .chk, .chkRef, .frameBase, .frameLen, .chunkCount, .chunkSel, .chunkOff, .chunkLen],
    regValue s r = .next 0) ∧
  s.seq = .idle ∧ s.abortPend = false ∧ irq s = false

/-- An illegal command word, by the four cases of spec/30_encoding.md R125. -/
def illegalWord (hasCrc32 : Bool) (w : Word) : Prop :=
  0x0A ≤ opField w ∨ rsvField w ≠ 0 ∨ (modField w ≠ 0 ∧ opField w ≠ 4 ∧ opField w ≠ 5) ∨
  (opField w = 7 ∧ hasCrc32 = false)

/-- The next event is an aligned word write of `v` to register `r`; `rest` comes after it. -/
def NextWrites (s : State) (r : Reg) (v : Word) (rest : List Event) : Prop :=
  s.pending = .host (.write (s.params.hostBase + r.offset) .word v) :: rest

/-- The next event is an aligned word read of register `r`; `rest` comes after it. -/
def NextReads (s : State) (r : Reg) (rest : List Event) : Prop :=
  s.pending = .host (.read (s.params.hostBase + r.offset) .word) :: rest

/-- The feedback after `n` blocks of a chain that starts from `f`: C_{n-1}, where `C_k = E(P_k ^ C_{k-1})`
(spec/42_chain.md R172, R176). -/
def chainCipher (k : Key) (f : Block) (p : Nat → Block) : Nat → Block
  | 0 => f
  | n + 1 => xteaEnc ((p n).xor (chainCipher k f p n)) k

/-- The feedback before block `j` of a chain of ciphertext blocks that starts from `f` (R173). -/
def chainFeedback (f : Block) (c : Nat → Block) : Nat → Block
  | 0 => f
  | n + 1 => c n

/-- Plaintext block `j` of a chain: `P_j = D(C_j) ^ C_{j-1}` (R173). -/
def chainPlain (k : Key) (f : Block) (c : Nat → Block) (j : Nat) : Block :=
  (xteaDec (c j) k).xor (chainFeedback f c j)

/-- `Sum16(a, n)`: the unsigned bytes of a range, modulo 2^16 (spec/43_checksum.md R190). -/
def byteSum (s : State) (a : Nat) : Nat → Half
  | 0 => 0
  | n + 1 => byteSum s a n + (byteAt s (a + n)).setWidth 16

/-- The CRC shift register after `n` bytes of a range (spec/43_checksum.md R194). -/
def crcOver (s : State) (a : Nat) : Nat → Word
  | 0 => s.crcInit
  | n + 1 => crcByte s.crcPoly (s.crcCfg.getLsbD 0) (crcOver s a n) (byteAt s (a + n))

/-! ### The invariant -/

/-- The recorded frame lies in BUF, is at least 4 bytes long, and its descriptor table ends before the trailer
(spec/44_frame.md R215, R216). -/
def FrameFits (s : State) : Prop :=
  4 ≤ s.frameLen.toNat ∧ s.frameBase.toNat + s.frameLen.toNat ≤ s.params.bufSize ∧
  (1 ≤ lastIdx s.params.chunkEnd s.chunkCount.toNat →
    8 * lastIdx s.params.chunkEnd s.chunkCount.toNat + 12 ≤ s.frameLen.toNat - 2)

/-- What the checks of a command have established, as long as it runs: the ranges it still reads and writes lie
in BUF (spec/20_memory.md R84). -/
def RangesFit (s : State) : Instr → Prop
  | .swap => s.srcBase + 4 * s.count ≤ s.params.bufSize ∧ s.dst.toNat + 4 * s.count ≤ s.params.bufSize
  | .chainEnc _ _ _ =>
    s.srcBase + 8 * s.count ≤ s.params.bufSize ∧ s.dst.toNat + 8 * s.count ≤ s.params.bufSize
  | .chainDec _ _ _ =>
    s.srcBase + 8 * s.count ≤ s.params.bufSize ∧ s.dst.toNat + 8 * s.count ≤ s.params.bufSize
  | .sum16 => s.srcBase + s.count ≤ s.params.bufSize
  | .crc32 => s.srcBase + s.count ≤ s.params.bufSize
  | .parse =>
    s.srcBase = s.src.toNat ∧ s.count + 2 = s.len.toNat ∧ 4 ≤ s.len.toNat ∧
    s.src.toNat + s.len.toNat ≤ s.params.bufSize
  | .chunkDec =>
    s.srcBase + 8 * s.count ≤ s.params.bufSize ∧ s.dst.toNat + 8 * s.count ≤ s.params.bufSize ∧
    s.frameValid = true ∧ meetsFrame s s.dst.toNat (8 * s.count) = false
  | .nop => False
  | .encBlock => False
  | .decBlock => False

/-- A running command's progress: nothing consumed before its first step, and in its loop a cursor of so many
granules (spec/10_state.md R33, R49). -/
def Progress (s : State) (i : Instr) : Prop :=
  match s.phase with
  | .check => s.cur = 0 ∧ s.index = 0
  | .loop => s.index ≤ s.count ∧ s.cur.toNat = granule i * s.index ∧ RangesFit s i

/-- A running command: CMD holds it, STATUS and ERR_INFO are as acceptance left them (R260), only an abortable
command has an abort pending, still to be taken (R242), and CUR reads have returned whole granules up to the final
CUR (R48). -/
def RunningFits (s : State) (i : Instr) : Prop :=
  s.done = false ∧ s.errCode = 0 ∧ s.errInfo = 0 ∧
  (s.abortPend = true → abortable i = true ∧ s.index ≤ s.abortAt) ∧
  s.curSeen.toNat ≤ finalCur s i ∧ s.curSeen.toNat % granule i = 0 ∧ Progress s i

/-- The invariant of the engine. -/
structure EngineInv (s : State) : Prop where
  /-- The parameters are within the bounds of R7. -/
  params : s.params.wf = true
  /-- BUF is in its canonical form. -/
  canonical : memWf s.buf = true
  /-- BUF lists no address at or beyond BUF_SIZE (R81). -/
  inside : memBelow s.params.bufSize s.buf = true
  /-- CUR never exceeds BUF_SIZE (R33). -/
  cursor : s.cur.toNat ≤ s.params.bufSize
  /-- Only the codes of R263 are produced. -/
  codes : s.errCode.toNat ≤ 9
  /-- An error code stands only after a completion (R31, R32). -/
  errDone : s.errCode ≠ 0 → s.done = true
  /-- A valid frame fits in BUF with its table (R215). -/
  frame : s.frameValid = true → FrameFits s
  /-- No abort is pending while the engine is idle (R242, R261, R262). -/
  quiet : s.seq = .idle → s.abortPend = false
  /-- A running engine runs a command. -/
  running : s.seq = .run → ∃ i, currentCommand s = .ok i ∧ RunningFits s i
  /-- A completed command's CUR is no less than any CUR read made while it ran (R48). -/
  seen : s.seq = .idle → s.curSeen.toNat ≤ s.cur.toNat

end Sys2Proof.Machine
end

