-- ==== Sys2Proof/Certificates/Slice0/Obligations.lean ====
section
/-! DEFINITION. The statements for the provers. Each docstring names the rules of spec/ it formalises, or, where
it rests on a choice of the model, the log entry. -/

open Sys2Proof Sys2Proof.Machine

/-! ### Encoding -/

/-- Words written out from the opcode map (30_encoding.md R122) and the examples of R127 and R128. -/
def Obligations.SpecWordsDecode : Prop :=
  decode true 0x00000000 = .ok .nop ∧ decode true 0x00000001 = .ok .encBlock ∧
  decode true 0x00000002 = .ok .decBlock ∧ decode true 0x00000003 = .ok .swap ∧
  decode true 0x00000304 = .ok (.chainEnc true true false) ∧
  decode true 0x00000405 = .ok (.chainDec false false true) ∧
  decode true 0x00000006 = .ok .sum16 ∧ decode true 0x00000007 = .ok .crc32 ∧
  decode true 0x00000008 = .ok .parse ∧ decode true 0x00000009 = .ok .chunkDec

/-- Decode and encode agree in both directions (30_encoding.md R120 to R122, R126): a word decodes to a command
exactly when the engine has that command and the word is the command's encoding. -/
def Obligations.DecodeExactlyInvertsEncode : Prop :=
  ∀ (hasCrc32 : Bool) (w : Word) (i : Instr),
    decode hasCrc32 w = .ok i ↔ wellFormed hasCrc32 i = true ∧ encode i = w

/-- 30_encoding.md R125: the words of its four cases, and no others, are illegal, and such a word written to CMD
while idle completes with ERR_BAD_CMD(w); CMD keeps the word (10_state.md R28). -/
def Obligations.IllegalWordCompletesWithBadCmd : Prop :=
  ∀ (s : State) (w : Word) (rest : List Event), s.seq = .idle → NextWrites s .cmd w rest →
    (illegalWord s.params.hasCrc32 w →
      ∃ t, step s = .next t ∧
        t = { errorOf (s.withScratch t) 0x01 w with cmd := w, cur := 0, curSeen := 0, pending := rest }) ∧
    (¬ illegalWord s.params.hasCrc32 w → ∃ t, step s = .next t ∧ t.seq = .run ∧ t.cmd = w ∧ t.errCode = 0)

/-- 60_exceptions.md R260: what the acceptance of a legal word writes, as one event. -/
def Obligations.AcceptanceLatchesCommand : Prop :=
  ∀ (s : State) (w : Word) (i : Instr) (rest : List Event), s.seq = .idle → NextWrites s .cmd w rest →
    decode s.params.hasCrc32 w = .ok i →
    step s = .next { s with
      cmd := w, seq := .run, done := false, errCode := 0, errInfo := 0, cur := 0, abortPend := false,
      phase := .check, index := 0, curSeen := 0, pending := rest }

/-! ### The step -/

/-- 20_memory.md R100, R105, 60_exceptions.md R260: when a command runs and the next event is the sequencer's, the
machine's step is the meaning of the command CMD holds. THE MODEL'S CHOICE (log 3, DESIGN CHOICE): with no
event pending, and while the host waits, the sequencer steps too; that is the model's form of the fairness of
70_reset_and_hazards.md R303. -/
def Obligations.StepRunsTheCommandInCmd : Prop :=
  ∀ (s : State) (i : Instr), s.seq = .run → decode s.params.hasCrc32 s.cmd = .ok i →
    (∀ rest, s.pending = .sequencer :: rest → step s = exec i { s with pending := rest }) ∧
    (s.pending = [] → step s = exec i s) ∧
    (∀ rest, s.pending = .wait :: rest → step s = exec i s)

/-! ### NOP, ENC_BLOCK, DEC_BLOCK -/

/-- 45_control.md R240, 60_exceptions.md R261: NOP is `complete()` and nothing else. -/
def Obligations.NopOnlyCompletes : Prop :=
  ∀ s : State, exec .nop s = .next
    { s with seq := .idle, done := true, intStatus := s.intStatus ||| 0b001, abortPend := false }

/-- 41_xtea.md R155 and R156: in every state, also with an abort pending (45_control.md R243), the two block
commands replace BLK0/BLK1 by the cipher's result, set CUR to 8 and complete; nothing else that can be
observed changes. -/
def Obligations.BlockCommandsRunXtea : Prop :=
  ∀ s : State,
    (∃ t, exec .encBlock s = .next t ∧
      t = { successOf (s.withScratch t) with blk := xteaEnc s.blk s.key, cur := 8 }) ∧
    (∃ t, exec .decBlock s = .next t ∧
      t = { successOf (s.withScratch t) with blk := xteaDec s.blk s.key, cur := 8 })

/-- 41_xtea.md R154: deciphering and enciphering are inverse, in both orders, for every key and block. -/
def Obligations.XteaDecipherInvertsEncipher : Prop :=
  ∀ (k : Key) (b : Block), xteaDec (xteaEnc b k) k = b ∧ xteaEnc (xteaDec b k) k = b

/-- 41_xtea.md R156, corner case: DEC_BLOCK after ENC_BLOCK with the same key restores BLK0/BLK1. -/
def Obligations.DecBlockUndoesEncBlock : Prop :=
  ∀ (s : State) (w : Word), ∃ t u, exec .encBlock s = .next t ∧
    exec .decBlock (t.latchCommand w) = .next u ∧ u.blk = s.blk ∧ u.key = s.key

/-- 41_xtea.md R152, R153: the round sum ends at 0xC6EF_3720 after enciphering, and at 0 after deciphering, which
starts from 32 times DELTA. -/
def Obligations.XteaRoundSums : Prop :=
  ∀ (k : Key) (b : Block), (xteaEncRun b k).sum = 0xC6EF3720 ∧ (xteaDecRun b k).sum = 0 ∧
    sumEnd = BitVec.ofNat 32 (32 * 0x9E3779B9)

/-! ### Byte order and SWAP -/

/-- 40_byteorder.md R140: bswap32 moves byte i to byte 3 - i, and undoes itself. -/
def Obligations.BswapReversesBytes : Prop :=
  ∀ w : Word, bswap32 (bswap32 w) = w ∧
    (bswap32 w).toNat = (w.extractLsb' 24 8).toNat + 0x100 * (w.extractLsb' 16 8).toNat
      + 0x10000 * (w.extractLsb' 8 8).toNat + 0x1000000 * (w.extractLsb' 0 8).toNat

/-- 20_memory.md R88: with SWI = 1 the word seen at `a` has BUF[a] in bits [31:24]; with SWO = 1 a word is stored
with bits [31:24] at the lowest address. -/
def Obligations.BigEndianWordView : Prop :=
  ∀ (s : State) (a : Nat) (v : Word), a + 4 ≤ s.params.bufSize →
    (∃ w, rdWord s a true = .next w ∧ w.toNat = 0x1000000 * (byteAt s a).toNat
      + 0x10000 * (byteAt s (a + 1)).toNat + 0x100 * (byteAt s (a + 2)).toNat + (byteAt s (a + 3)).toNat) ∧
    (∃ t, wrWord s a v true = .next t ∧ byteAt t a = v.extractLsb' 24 8 ∧
      byteAt t (a + 1) = v.extractLsb' 16 8 ∧ byteAt t (a + 2) = v.extractLsb' 8 8 ∧
      byteAt t (a + 3) = v.extractLsb' 0 8 ∧ t = { s with buf := t.buf } ∧
      ∀ c, c < a ∨ a + 4 ≤ c → byteAt t c = byteAt s c)

/-- 40_byteorder.md R141, 60_exceptions.md R264: SWAP's checks, in their order; a failed one is the error completion
and changes nothing else. -/
def Obligations.SwapReportsFirstError : Prop :=
  ∀ s : State, s.phase = .check →
    (s.params.bufSize < s.src.toNat + s.len.toNat → exec .swap s = .next (errorOf s 0x02 1)) ∧
    (s.src.toNat + s.len.toNat ≤ s.params.bufSize → s.params.bufSize < s.dst.toNat + s.len.toNat →
      exec .swap s = .next (errorOf s 0x02 2)) ∧
    (s.src.toNat + s.len.toNat ≤ s.params.bufSize → s.dst.toNat + s.len.toNat ≤ s.params.bufSize →
      s.len.toNat % 4 ≠ 0 → exec .swap s = .next (errorOf s 0x03 s.len)) ∧
    (s.src.toNat + s.len.toNat ≤ s.params.bufSize → s.dst.toNat + s.len.toNat ≤ s.params.bufSize →
      s.len.toNat % 4 = 0 → 0 < s.len.toNat → s.dst ≠ s.src → s.src.toNat < s.dst.toNat + s.len.toNat →
      s.dst.toNat < s.src.toNat + s.len.toNat → exec .swap s = .next (errorOf s 0x04 0))

/-- 40_byteorder.md R141: one word of SWAP's loop, with its frame. -/
def Obligations.SwapReversesOneWord : Prop :=
  ∀ s : State, AtElement s → s.srcBase + 4 * s.index + 4 ≤ s.params.bufSize →
    s.dst.toNat + 4 * s.index + 4 ≤ s.params.bufSize →
    ∃ t, exec .swap s = .next t ∧
      t = { s with buf := t.buf, index := s.index + 1, cur := BitVec.ofNat 32 (4 * (s.index + 1)) } ∧
      wordAt t (s.dst.toNat + 4 * s.index) = bswap32 (wordAt s (s.srcBase + 4 * s.index)) ∧
      ∀ a, a < s.dst.toNat + 4 * s.index ∨ s.dst.toNat + 4 * s.index + 4 ≤ a → byteAt t a = byteAt s a

/-- 40_byteorder.md R141: SWAP from its first step to its completion, when its checks pass: every word is stored
reversed, also in place, CUR is LEN, a destination meeting the frame clears FRAME_VALID (20_memory.md
R94), and nothing else that can be observed changes. -/
def Obligations.SwapReversesEveryWord : Prop :=
  ∀ s : State, AtStart s → s.src.toNat + s.len.toNat ≤ s.params.bufSize →
    s.dst.toNat + s.len.toNat ≤ s.params.bufSize → s.len.toNat % 4 = 0 →
    (s.dst = s.src ∨ s.dst.toNat + s.len.toNat ≤ s.src.toNat ∨ s.src.toNat + s.len.toNat ≤ s.dst.toNat) →
    ∃ t, runCommand .swap (s.len.toNat / 4 + 1) s = .next t ∧
      t = { successOf (s.withScratch t) with
              buf := t.buf, cur := if s.len = 0 then s.cur else s.len,
              frameValid := s.frameValid && !meetsFrame s s.dst.toNat s.len.toNat } ∧
      (∀ j, j < s.len.toNat / 4 →
        wordAt t (s.dst.toNat + 4 * j) = bswap32 (wordAt s (s.src.toNat + 4 * j))) ∧
      ∀ a, a < s.dst.toNat ∨ s.dst.toNat + s.len.toNat ≤ a → byteAt t a = byteAt s a

/-- 40_byteorder.md R142: SWAP in place, twice over the same range, leaves BUF unchanged. -/
def Obligations.SwapTwiceInPlaceRestoresBuf : Prop :=
  ∀ (s : State) (w : Word), AtStart s → s.src.toNat + s.len.toNat ≤ s.params.bufSize →
    s.len.toNat % 4 = 0 → s.dst = s.src →
    ∃ t u, runCommand .swap (s.len.toNat / 4 + 1) s = .next t ∧ t.seq = .idle ∧
      runCommand .swap (s.len.toNat / 4 + 1) (t.latchCommand w) = .next u ∧
      u.seq = .idle ∧ u.errCode = 0 ∧ ∀ a, byteAt u a = byteAt s a

/-! ### Chaining -/

/-- 42_chain.md R172, R173, 60_exceptions.md R264: the checks of both chained commands, in their order; a failed
check changes nothing else, FB0/FB1 included (R171). -/
def Obligations.ChainReportsFirstError : Prop :=
  ∀ (s : State) (i : Instr) (swi swo cont : Bool), s.phase = .check →
    i = .chainEnc swi swo cont ∨ i = .chainDec swi swo cont →
    (s.params.bufSize < s.src.toNat + s.len.toNat → exec i s = .next (errorOf s 0x02 1)) ∧
    (s.src.toNat + s.len.toNat ≤ s.params.bufSize →
      s.params.bufSize < s.dst.toNat + 8 * (s.len.toNat / 8) → exec i s = .next (errorOf s 0x02 2)) ∧
    (s.src.toNat + s.len.toNat ≤ s.params.bufSize →
      s.dst.toNat + 8 * (s.len.toNat / 8) ≤ s.params.bufSize → 8 ≤ s.len.toNat → s.dst ≠ s.src →
      s.src.toNat < s.dst.toNat + 8 * (s.len.toNat / 8) →
      s.dst.toNat < s.src.toNat + 8 * (s.len.toNat / 8) → exec i s = .next (errorOf s 0x04 0))

/-- 42_chain.md R171: with no whole block, a chained command completes having zeroed F, or kept it with CONT = 1; with
a block to process and an abort already due, the abort is taken before the first block, after F started. -/
def Obligations.ChainStartsFeedback : Prop :=
  ∀ (s : State) (i : Instr) (swi swo cont : Bool), s.seq = .run → s.phase = .check →
    i = .chainEnc swi swo cont ∨ i = .chainDec swi swo cont →
    s.src.toNat + s.len.toNat ≤ s.params.bufSize →
    s.dst.toNat + 8 * (s.len.toNat / 8) ≤ s.params.bufSize →
    (s.dst = s.src ∨ s.dst.toNat + 8 * (s.len.toNat / 8) ≤ s.src.toNat ∨
      s.src.toNat + 8 * (s.len.toNat / 8) ≤ s.dst.toNat) →
    (s.len.toNat < 8 → ∃ t, exec i s = .next t ∧
      t = { successOf (s.withScratch t) with fb := if cont then s.fb else ⟨0, 0⟩ }) ∧
    (8 ≤ s.len.toNat → s.abortPend = true → s.abortAt = 0 → ∃ t, exec i s = .next t ∧
      t = { errorOf (s.withScratch t) 0x09 s.cur with
              fb := if cont then s.fb else ⟨0, 0⟩,
              frameValid := s.frameValid && !meetsFrame s s.dst.toNat (8 * (s.len.toNat / 8)) })

/-- 42_chain.md R172, R177: one block of CHAIN_ENC's loop, with its frame: C = XTEA_ENC(P XOR F), F = C, C stored. -/
def Obligations.ChainEncEnciphersOneBlock : Prop :=
  ∀ (s : State) (swi swo cont : Bool), AtElement s → s.srcBase + 8 * s.index + 8 ≤ s.params.bufSize →
    s.dst.toNat + 8 * s.index + 8 ≤ s.params.bufSize →
    ∃ t, exec (.chainEnc swi swo cont) s = .next t ∧
      t = { s with
              buf := t.buf, fb := xteaEnc ((blockAt s (s.srcBase + 8 * s.index) swi).xor s.fb) s.key,
              index := s.index + 1, cur := BitVec.ofNat 32 (8 * (s.index + 1)),
              round := t.round, roundSum := t.roundSum, latch := t.latch } ∧
      blockAt t (s.dst.toNat + 8 * s.index) swo = t.fb ∧
      ∀ a, a < s.dst.toNat + 8 * s.index ∨ s.dst.toNat + 8 * s.index + 8 ≤ a → byteAt t a = byteAt s a

/-- 42_chain.md R173, 44_frame.md R220: one block of the loop of CHAIN_DEC, and of CHUNK_DEC with both byte orders
reversed, with its frame: P = XTEA_DEC(C) XOR F, F = C, P stored. -/
def Obligations.ChainDecDeciphersOneBlock : Prop :=
  ∀ (s : State) (i : Instr) (swi swo cont : Bool),
    i = .chainDec swi swo cont ∨ (i = .chunkDec ∧ swi = true ∧ swo = true) →
    AtElement s → s.srcBase + 8 * s.index + 8 ≤ s.params.bufSize →
    s.dst.toNat + 8 * s.index + 8 ≤ s.params.bufSize →
    ∃ t, exec i s = .next t ∧
      t = { s with
              buf := t.buf, fb := blockAt s (s.srcBase + 8 * s.index) swi,
              index := s.index + 1, cur := BitVec.ofNat 32 (8 * (s.index + 1)),
              round := t.round, roundSum := t.roundSum, latch := t.latch } ∧
      blockAt t (s.dst.toNat + 8 * s.index) swo =
        (xteaDec (blockAt s (s.srcBase + 8 * s.index) swi) s.key).xor s.fb ∧
      ∀ a, a < s.dst.toNat + 8 * s.index ∨ s.dst.toNat + 8 * s.index + 8 ≤ a → byteAt t a = byteAt s a

/-- 42_chain.md R170 to R172, R176: CHAIN_ENC from its first step to its completion, when its checks pass. Block j
of the destination is C_j, F ends at the last ciphertext block, CUR at 8·nb; the tail of source and
destination, and everything else that can be observed, is unchanged. -/
def Obligations.ChainEncRunsTheChain : Prop :=
  ∀ (s : State) (swi swo cont : Bool), AtStart s → s.src.toNat + s.len.toNat ≤ s.params.bufSize →
    s.dst.toNat + 8 * (s.len.toNat / 8) ≤ s.params.bufSize →
    (s.dst = s.src ∨ s.dst.toNat + 8 * (s.len.toNat / 8) ≤ s.src.toNat ∨
      s.src.toNat + 8 * (s.len.toNat / 8) ≤ s.dst.toNat) →
    ∃ t, runCommand (.chainEnc swi swo cont) (s.len.toNat / 8 + 1) s = .next t ∧
      t = { successOf (s.withScratch t) with
              buf := t.buf,
              cur := if s.len.toNat < 8 then s.cur else BitVec.ofNat 32 (8 * (s.len.toNat / 8)),
              fb := chainCipher s.key (if cont then s.fb else ⟨0, 0⟩)
                (fun j => blockAt s (s.src.toNat + 8 * j) swi) (s.len.toNat / 8),
              frameValid := s.frameValid && !meetsFrame s s.dst.toNat (8 * (s.len.toNat / 8)) } ∧
      (∀ j, j < s.len.toNat / 8 → blockAt t (s.dst.toNat + 8 * j) swo =
        chainCipher s.key (if cont then s.fb else ⟨0, 0⟩)
          (fun j => blockAt s (s.src.toNat + 8 * j) swi) (j + 1)) ∧
      ∀ a, a < s.dst.toNat ∨ s.dst.toNat + 8 * (s.len.toNat / 8) ≤ a → byteAt t a = byteAt s a

/-- 42_chain.md R170, R171, R173: CHAIN_DEC from its first step to its completion, when its checks pass. -/
def Obligations.ChainDecRunsTheChain : Prop :=
  ∀ (s : State) (swi swo cont : Bool), AtStart s → s.src.toNat + s.len.toNat ≤ s.params.bufSize →
    s.dst.toNat + 8 * (s.len.toNat / 8) ≤ s.params.bufSize →
    (s.dst = s.src ∨ s.dst.toNat + 8 * (s.len.toNat / 8) ≤ s.src.toNat ∨
      s.src.toNat + 8 * (s.len.toNat / 8) ≤ s.dst.toNat) →
    ∃ t, runCommand (.chainDec swi swo cont) (s.len.toNat / 8 + 1) s = .next t ∧
      t = { successOf (s.withScratch t) with
              buf := t.buf,
              cur := if s.len.toNat < 8 then s.cur else BitVec.ofNat 32 (8 * (s.len.toNat / 8)),
              fb := chainFeedback (if cont then s.fb else ⟨0, 0⟩)
                (fun j => blockAt s (s.src.toNat + 8 * j) swi) (s.len.toNat / 8),
              frameValid := s.frameValid && !meetsFrame s s.dst.toNat (8 * (s.len.toNat / 8)) } ∧
      (∀ j, j < s.len.toNat / 8 → blockAt t (s.dst.toNat + 8 * j) swo =
        chainPlain s.key (if cont then s.fb else ⟨0, 0⟩)
          (fun j => blockAt s (s.src.toNat + 8 * j) swi) j) ∧
      ∀ a, a < s.dst.toNat ∨ s.dst.toNat + 8 * (s.len.toNat / 8) ≤ a → byteAt t a = byteAt s a

/-- 42_chain.md R170: the tail bytes of the source never influence a chained command, and no byte from `DST + 8·nb`
up is written: two states that differ only in the source's tail give the same block results. -/
def Obligations.ChainIgnoresTheTail : Prop :=
  ∀ (s s' : State) (i : Instr) (swi swo cont : Bool),
    i = .chainEnc swi swo cont ∨ i = .chainDec swi swo cont → AtStart s →
    s.src.toNat + s.len.toNat ≤ s.params.bufSize →
    s.dst.toNat + 8 * (s.len.toNat / 8) ≤ s.params.bufSize →
    (s.dst = s.src ∨ s.dst.toNat + 8 * (s.len.toNat / 8) ≤ s.src.toNat ∨
      s.src.toNat + 8 * (s.len.toNat / 8) ≤ s.dst.toNat) →
    s' = { s with buf := s'.buf } →
    (∀ a, ¬ (s.src.toNat + 8 * (s.len.toNat / 8) ≤ a ∧ a < s.src.toNat + s.len.toNat) →
      byteAt s' a = byteAt s a) →
    ∃ t t', runCommand i (s.len.toNat / 8 + 1) s = .next t ∧
      runCommand i (s.len.toNat / 8 + 1) s' = .next t' ∧
      t' = { t.withScratch t' with buf := t'.buf } ∧
      (∀ a, s.dst.toNat ≤ a → a < s.dst.toNat + 8 * (s.len.toNat / 8) → byteAt t' a = byteAt t a) ∧
      (∀ a, s.dst.toNat + 8 * (s.len.toNat / 8) ≤ a → byteAt t a = byteAt s a ∧ byteAt t' a = byteAt s' a)

/-- 42_chain.md R174: CHAIN_ENC with (SWI, SWO) from A to B, then CHAIN_DEC with (SWO, SWI) from B to C, both with
CONT = 0, makes C equal to A byte for byte. -/
def Obligations.ChainRoundTripRestoresBytes : Prop :=
  ∀ (s : State) (c : Word) (w : Word) (swi swo : Bool), AtStart s → s.len.toNat % 8 = 0 →
    s.src.toNat + s.len.toNat ≤ s.params.bufSize → s.dst.toNat + s.len.toNat ≤ s.params.bufSize →
    c.toNat + s.len.toNat ≤ s.params.bufSize →
    (s.dst = s.src ∨ s.dst.toNat + s.len.toNat ≤ s.src.toNat ∨ s.src.toNat + s.len.toNat ≤ s.dst.toNat) →
    (c = s.dst ∨ c.toNat + s.len.toNat ≤ s.dst.toNat ∨ s.dst.toNat + s.len.toNat ≤ c.toNat) →
    ∃ t v, runCommand (.chainEnc swi swo false) (s.len.toNat / 8 + 1) s = .next t ∧ t.seq = .idle ∧
      runCommand (.chainDec swo swi false) (s.len.toNat / 8 + 1)
        (State.latchCommand { t with src := s.dst, dst := c } w) = .next v ∧
      v.seq = .idle ∧ v.errCode = 0 ∧
      ∀ j, j < s.len.toNat → byteAt v (c.toNat + j) = byteAt s (s.src.toNat + j)

/-- 42_chain.md R175: a chain over `8·(n1 + n2)` bytes gives the same output and final F as a first command over `8·n1`
bytes with CONT = 0 and a second over the remaining `8·n2` with CONT = 1, in both directions. -/
def Obligations.SplitChainEqualsWholeChain : Prop :=
  ∀ (s : State) (w : Word) (enc swi swo : Bool) (n1 n2 : Nat), s.params.wf = true → AtStart s →
    s.len.toNat = 8 * (n1 + n2) →
    s.src.toNat + s.len.toNat ≤ s.params.bufSize → s.dst.toNat + s.len.toNat ≤ s.params.bufSize →
    (s.dst = s.src ∨ s.dst.toNat + s.len.toNat ≤ s.src.toNat ∨ s.src.toNat + s.len.toNat ≤ s.dst.toNat) →
    let first := if enc then Instr.chainEnc swi swo false else .chainDec swi swo false
    let second := if enc then Instr.chainEnc swi swo true else .chainDec swi swo true
    ∃ t t1 t2, runCommand first (n1 + n2 + 1) s = .next t ∧
      runCommand first (n1 + 1) { s with len := BitVec.ofNat 32 (8 * n1) } = .next t1 ∧
      runCommand second (n2 + 1)
        (State.latchCommand { t1 with
            src := BitVec.ofNat 32 (s.src.toNat + 8 * n1), dst := BitVec.ofNat 32 (s.dst.toNat + 8 * n1),
            len := BitVec.ofNat 32 (8 * n2) } w) = .next t2 ∧
      t.errCode = s.errCode ∧ t2.errCode = 0 ∧ t2.fb = t.fb ∧ ∀ a, byteAt t2 a = byteAt t a

/-! ### Checks -/

/-- 43_checksum.md R191, R194, 60_exceptions.md R264: the one check of SUM16 and CRC32. -/
def Obligations.CheckCommandsRefuseRangePastBuf : Prop :=
  ∀ (s : State) (i : Instr), s.phase = .check → i = .sum16 ∨ i = .crc32 →
    s.params.bufSize < s.src.toNat + s.len.toNat → exec i s = .next (errorOf s 0x02 1)

/-- 43_checksum.md R191, R194: one byte of the loops of SUM16 and CRC32, with its frame: CHK is untouched until the
end, so an abort leaves it unchanged. -/
def Obligations.CheckCommandsTakeOneByte : Prop :=
  ∀ s : State, AtElement s → s.srcBase + s.index + 1 ≤ s.params.bufSize →
    exec .sum16 s = .next { s with
      sum16 := s.sum16 + (byteAt s (s.srcBase + s.index)).setWidth 16,
      index := s.index + 1, cur := BitVec.ofNat 32 (1 * (s.index + 1)) } ∧
    exec .crc32 s = .next { s with
      crc := crcByte s.crcPoly (s.crcCfg.getLsbD 0) s.crc (byteAt s (s.srcBase + s.index)),
      index := s.index + 1, cur := BitVec.ofNat 32 (1 * (s.index + 1)) }

/-- 43_checksum.md R190, R191: SUM16 from its first step to its completion: CHK is the sum of the unsigned bytes modulo
2^16, CUR is LEN, and nothing else that can be observed changes. -/
def Obligations.Sum16AddsTheBytes : Prop :=
  ∀ s : State, AtStart s → s.src.toNat + s.len.toNat ≤ s.params.bufSize →
    ∃ t, runCommand .sum16 (s.len.toNat + 1) s = .next t ∧
      t = { successOf (s.withScratch t) with
              cur := if s.len = 0 then s.cur else s.len,
              chk := (byteSum s s.src.toNat s.len.toNat).setWidth 32 } ∧
      t.chk.toNat = ((List.range s.len.toNat).map fun j => (byteAt s (s.src.toNat + j)).toNat).sum % 2 ^ 16

/-- 43_checksum.md R194: CRC32 from its first step to its completion: CHK is the parameterised CRC of the range. -/
def Obligations.Crc32ComputesTheCrc : Prop :=
  ∀ s : State, AtStart s → s.src.toNat + s.len.toNat ≤ s.params.bufSize →
    ∃ t, runCommand .crc32 (s.len.toNat + 1) s = .next t ∧
      t = { successOf (s.withScratch t) with
              cur := if s.len = 0 then s.cur else s.len,
              chk := (if s.crcCfg.getLsbD 1 then reflect32 (crcOver s s.src.toNat s.len.toNat)
                else crcOver s s.src.toNat s.len.toNat) ^^^ s.crcXorout }

/-- 43_checksum.md R193: bit i of a reflected byte is bit 7 - i, bit i of a reflected word is bit 31 - i. -/
def Obligations.ReflectionReversesBits : Prop :=
  (∀ (b : Byte) (i : Nat), i < 8 → (reflect8 b).getLsbD i = b.getLsbD (7 - i)) ∧
  (∀ (x : Word) (i : Nat), i < 32 → (reflect32 x).getLsbD i = x.getLsbD (31 - i))

/-! ### Frames -/

/-- 44_frame.md R212, R214: PARSE clears FRAME_VALID first, then checks the range and the length; CHK, CHK_REF and the
frame registers stay. -/
def Obligations.ParseReportsFirstError : Prop :=
  ∀ s : State, s.phase = .check →
    (s.params.bufSize < s.src.toNat + s.len.toNat →
      exec .parse s = .next (errorOf { s with frameValid := false } 0x02 1)) ∧
    (s.src.toNat + s.len.toNat ≤ s.params.bufSize → s.len.toNat < 4 →
      exec .parse s = .next (errorOf { s with frameValid := false } 0x06 1))

/-- 44_frame.md R212: one byte of PARSE's sum, with its frame. -/
def Obligations.ParseSumsOneByte : Prop :=
  ∀ s : State, AtElement s → s.srcBase + s.index + 1 ≤ s.params.bufSize →
    exec .parse s = .next { s with
      sum16 := s.sum16 + (byteAt s (s.srcBase + s.index)).setWidth 16,
      index := s.index + 1, cur := BitVec.ofNat 32 (1 * (s.index + 1)) }

/-- 44_frame.md R212 to R217: PARSE from its first step to its completion, when its first checks pass: ERR_CHECKSUM when
the sum differs from the trailer, ERR_FRAME(2) when the table reaches the trailer, else the frame is recorded;
CHK, CHK_REF and CUR are written in each case, BUF never. -/
def Obligations.ParseDecidesTheFrame : Prop :=
  ∀ s : State, AtStart s → 4 ≤ s.len.toNat → s.src.toNat + s.len.toNat ≤ s.params.bufSize →
    let total := byteSum s s.src.toNat (s.len.toNat - 2)
    let trailer := halfAt s (s.src.toNat + s.len.toNat - 2)
    let count := halfAt s s.src.toNat
    let last := lastIdx s.params.chunkEnd count.toNat
    ∃ t, runCommand .parse (s.len.toNat - 1) s = .next t ∧
      let summed := { s.withScratch t with
        chk := total.setWidth 32, chkRef := trailer, cur := s.len, frameValid := false }
      (total ≠ trailer → t = errorOf summed 0x05 (trailer ++ total)) ∧
      (total = trailer → 1 ≤ last → s.len.toNat - 2 < 8 * last + 12 → t = errorOf summed 0x06 2) ∧
      (total = trailer → (last < 1 ∨ 8 * last + 12 ≤ s.len.toNat - 2) →
        t = { successOf summed with
                frameBase := s.src, frameLen := s.len, chunkCount := count, frameValid := true })

/-- 43_checksum.md R192: a frame of N ≥ 4 bytes passes PARSE's checksum exactly when SUM16 over its first N - 2 bytes
gives the value stored little-endian in its last two. -/
def Obligations.ParseChecksumIsSum16 : Prop :=
  ∀ s : State, AtStart s → s.errCode = 0 → 4 ≤ s.len.toNat →
    s.src.toNat + s.len.toNat ≤ s.params.bufSize →
    ∃ t u, runCommand .parse (s.len.toNat - 1) s = .next t ∧
      runCommand .sum16 (s.len.toNat - 1) { s with len := s.len - 2 } = .next u ∧
      t.seq = .idle ∧ u.seq = .idle ∧
      (t.errCode ≠ 0x05 ↔ u.chk = (halfAt s (s.src.toNat + s.len.toNat - 2)).setWidth 32)

/-- 44_frame.md R220, 60_exceptions.md R264: the checks of CHUNK_DEC, in their order, with the descriptor read from
BUF; a failed one changes nothing else. -/
def Obligations.ChunkDecReportsFirstError : Prop :=
  ∀ s : State, EngineInv s → s.phase = .check →
    let i := s.chunkSel.toNat
    let valid := 1 ≤ i ∧ i ≤ lastIdx s.params.chunkEnd s.chunkCount.toNat
    let off := (wordAt s (s.frameBase.toNat + 8 * i + 4)).toNat
    let len := (wordAt s (s.frameBase.toNat + 8 * i + 8)).toNat
    (s.frameValid = false → exec .chunkDec s = .next (errorOf s 0x07 0)) ∧
    (s.frameValid = true → ¬ valid → exec .chunkDec s = .next (errorOf s 0x08 (s.chunkSel.setWidth 32))) ∧
    (s.frameValid = true → valid → s.frameLen.toNat < off + len →
      exec .chunkDec s = .next (errorOf s 0x02 3)) ∧
    (s.frameValid = true → valid → off + len ≤ s.frameLen.toNat →
      s.params.bufSize < s.dst.toNat + 8 * (len / 8) → exec .chunkDec s = .next (errorOf s 0x02 2)) ∧
    (s.frameValid = true → valid → off + len ≤ s.frameLen.toNat →
      s.dst.toNat + 8 * (len / 8) ≤ s.params.bufSize → 8 ≤ len →
      s.dst.toNat < s.frameBase.toNat + s.frameLen.toNat → s.frameBase.toNat < s.dst.toNat + 8 * (len / 8) →
      exec .chunkDec s = .next (errorOf s 0x04 0))

/-- 44_frame.md R220, R221: CHUNK_DEC from its first step to its completion, when its checks pass: the chunk's whole
blocks are deciphered from a zero feedback with both byte orders reversed, the frame's bytes and FRAME_VALID
are unchanged, and so is everything else that can be observed. -/
def Obligations.ChunkDecDeciphersTheChunk : Prop :=
  ∀ s : State, EngineInv s → AtStart s → s.frameValid = true → 1 ≤ s.chunkSel.toNat →
    s.chunkSel.toNat ≤ lastIdx s.params.chunkEnd s.chunkCount.toNat →
    let off := (wordAt s (s.frameBase.toNat + 8 * s.chunkSel.toNat + 4)).toNat
    let len := (wordAt s (s.frameBase.toNat + 8 * s.chunkSel.toNat + 8)).toNat
    off + len ≤ s.frameLen.toNat → s.dst.toNat + 8 * (len / 8) ≤ s.params.bufSize →
    (len < 8 ∨ s.dst.toNat + 8 * (len / 8) ≤ s.frameBase.toNat ∨
      s.frameBase.toNat + s.frameLen.toNat ≤ s.dst.toNat) →
    ∃ t, runCommand .chunkDec (len / 8 + 1) s = .next t ∧
      t = { successOf (s.withScratch t) with
              buf := t.buf, cur := BitVec.ofNat 32 (8 * (len / 8)),
              fb := chainFeedback ⟨0, 0⟩
                (fun j => blockAt s (s.frameBase.toNat + off + 8 * j) true) (len / 8) } ∧
      (∀ j, j < len / 8 → blockAt t (s.dst.toNat + 8 * j) true =
        chainPlain s.key ⟨0, 0⟩ (fun j => blockAt s (s.frameBase.toNat + off + 8 * j) true) j) ∧
      ∀ a, a < s.dst.toNat ∨ s.dst.toNat + 8 * (len / 8) ≤ a → byteAt t a = byteAt s a

/-- 44_frame.md R222: CHUNK_DEC has the same effect on BUF, FB0, FB1 and CUR as DECODE with SRC and LEN taken from the
chunk's descriptor and the same DST, as long as DST does not meet the frame. -/
def Obligations.ChunkDecEqualsDecode : Prop :=
  ∀ s : State, EngineInv s → AtStart s → s.frameValid = true → 1 ≤ s.chunkSel.toNat →
    s.chunkSel.toNat ≤ lastIdx s.params.chunkEnd s.chunkCount.toNat →
    let off := wordAt s (s.frameBase.toNat + 8 * s.chunkSel.toNat + 4)
    let len := wordAt s (s.frameBase.toNat + 8 * s.chunkSel.toNat + 8)
    off.toNat + len.toNat ≤ s.frameLen.toNat → s.dst.toNat + 8 * (len.toNat / 8) ≤ s.params.bufSize →
    meets s.dst.toNat (8 * (len.toNat / 8)) s.frameBase.toNat s.frameLen.toNat = false →
    ∃ t u, runCommand .chunkDec (len.toNat / 8 + 1) s = .next t ∧
      runCommand (.chainDec true true false) (len.toNat / 8 + 1)
        { s with src := BitVec.ofNat 32 (s.frameBase.toNat + off.toNat), len := len } = .next u ∧
      t.seq = .idle ∧ u.seq = .idle ∧ t.errCode = 0 ∧ u.errCode = 0 ∧ t.fb = u.fb ∧ t.cur = u.cur ∧ t.frameValid = u.frameValid ∧
      ∀ a, byteAt t a = byteAt u a

/-- 10_state.md R20, R21, R24 to R44, R46, 20_memory.md R95, 44_frame.md R219: every register's value is the state it
names (STATUS: IrqIsPendingAndEnabled), and on an idle engine a host read of any register answers that value and
changes nothing else. The chunk view spelled out: with a valid frame and a valid index, CHUNK_OFF and CHUNK_LEN
read the descriptor's fields from BUF; otherwise both read 0. -/
def Obligations.ChunkViewReadsDescriptor : Prop :=
  ∀ (s : State) (rest : List Event), EngineInv s →
    let valid := s.frameValid = true ∧ 1 ≤ s.chunkSel.toNat ∧
      s.chunkSel.toNat ≤ lastIdx s.params.chunkEnd s.chunkCount.toNat
    (∀ p ∈ ([(.id, 0x58544541),
        (.cap, (if s.params.chunkEnd = .incl then 0x200 else 0) + (if s.params.hasCrc32 then 0x100 else 0) + 0x20),
        (.bufsz, BitVec.ofNat 32 s.params.bufSize), (.ctrl, 0), (.cmd, s.cmd), (.errInfo, s.errInfo),
        (.cur, s.cur), (.intStatus, s.intStatus.setWidth 32), (.intEnable, s.intEnable.setWidth 32),
        (.src, s.src), (.dst, s.dst), (.len, s.len), (.key0, s.key.k0), (.key1, s.key.k1), (.key2, s.key.k2),
        (.key3, s.key.k3), (.fb0, s.fb.v0), (.fb1, s.fb.v1), (.blk0, s.blk.v0), (.blk1, s.blk.v1), (.chk, s.chk),
        (.chkRef, s.chkRef.setWidth 32), (.crcPoly, s.crcPoly), (.crcInit, s.crcInit),
        (.crcXorout, s.crcXorout), (.crcCfg, s.crcCfg.setWidth 32), (.frameBase, s.frameBase),
        (.frameLen, s.frameLen), (.chunkCount, s.chunkCount.setWidth 32),
        (.chunkSel, s.chunkSel.setWidth 32)] : List (Reg × Word)), regValue s p.1 = .next p.2) ∧
    (s.seq = .idle →
      (∀ r, NextReads s r rest → ∃ v, regValue s r = .next v ∧
        step s = .next { s with readData := v, pending := rest }) ∧
      (NextReads s .chunkOff rest → valid → step s = .next { s with
        readData := wordAt s (s.frameBase.toNat + 8 * s.chunkSel.toNat + 4), pending := rest }) ∧
      (NextReads s .chunkLen rest → valid → step s = .next { s with
        readData := wordAt s (s.frameBase.toNat + 8 * s.chunkSel.toNat + 8), pending := rest }) ∧
      (NextReads s .chunkOff rest ∨ NextReads s .chunkLen rest → ¬ valid →
        step s = .next { s with readData := 0, pending := rest }))

/-! ### Completion and abort -/

/-- 45_control.md R242, R243: an abort of an abortable command. When its element is reached, the abort point before that
element, the first one included, ends the command with ERR_ABORTED(CUR), keeping what the start and the finished
steps did. Until then the command's step is what it is without an abort. An abort that comes after the last
step is lost: the command, PARSE included, ends as without it. The element is the model's free draw of U6
(log 15). -/
def Obligations.AbortTakenAtAbortPoint : Prop :=
  ∀ (s : State) (i : Instr), abortable i = true → s.seq = .run → s.abortPend = true →
    (s.phase = .check → commandChecks s i = .next none → 0 < elementCount s i → s.abortAt = 0 →
      ∃ t, exec i s = .next t ∧
        t = { errorOf (s.withScratch t) 0x09 s.cur with
                fb := startFb s i, frameValid := startFrameValid s i }) ∧
    (s.phase = .check → commandChecks s i = .next none → elementCount s i = 0 →
      exec i s = exec i { s with abortPend := false }) ∧
    (s.phase = .check → 0 < s.abortAt → ∀ u, exec i { s with abortPend := false } = .next u →
      exec i s = .next { u with abortPend := u.busy }) ∧
    (s.phase = .loop → s.index < s.count → s.abortAt ≤ s.index → exec i s = .next (errorOf s 0x09 s.cur)) ∧
    (s.phase = .loop → s.index < s.count → s.index < s.abortAt →
      ∀ u, exec i { s with abortPend := false } = .next u → exec i s = .next { u with abortPend := true }) ∧
    (s.phase = .loop → s.count ≤ s.index → exec i s = exec i { s with abortPend := false }) ∧
    (s.phase = .loop → s.count ≤ s.index → i ≠ .parse → ∃ t, exec i s = .next t ∧ t.errCode = s.errCode ∧
      t.seq = .idle ∧ t.done = true ∧ t.abortPend = false) ∧
    (s.phase = .loop → s.count ≤ s.index → i = .parse → 2 ≤ s.len.toNat →
      s.srcBase + s.len.toNat ≤ s.params.bufSize → ∃ t, exec i s = .next t ∧
        (t.errCode = s.errCode ∨ t.errCode = 0x05 ∨ t.errCode = 0x06) ∧
        t.seq = .idle ∧ t.done = true ∧ t.abortPend = false)

/-- 45_control.md R242, R243, 10_state.md R27: a CTRL write with bit 1 set and bit 0 clear is remembered exactly while an
abortable command runs, and otherwise does nothing. The element before which it will be taken is a free number of
elements above the first one that is not below CUR at the write nor below any CUR read, `abortFloor` (U6; this form
is the model's, log 15). A second request, while one is pending, changes nothing. -/
def Obligations.AbortRequestRemembered : Prop :=
  ∀ (s : State) (v : Word) (rest : List Event), NextWrites s .ctrl v rest →
    v.getLsbD 0 = false → v.getLsbD 1 = true →
    (∀ i, s.seq = .run → decode s.params.hasCrc32 s.cmd = .ok i → abortable i = true → s.abortPend = false →
      ∃ t, step s = .next t ∧
        t = { s with abortPend := true, abortAt := t.abortAt, draws := s.draws + 1, pending := rest } ∧
        t.abortAt = max s.index ((s.curSeen.toNat + (granule i - 1)) / granule i)
          + (Config.freeWord s.draws).toNat ∧
        s.index ≤ t.abortAt ∧ s.curSeen.toNat ≤ granule i * t.abortAt) ∧
    (∀ i, s.seq = .run → decode s.params.hasCrc32 s.cmd = .ok i → abortable i = true → s.abortPend = true →
      step s = .next { s with pending := rest }) ∧
    (∀ i, s.seq = .run → decode s.params.hasCrc32 s.cmd = .ok i → abortable i = false →
      step s = .next { s with pending := rest }) ∧
    (s.seq = .idle → step s = .next { s with pending := rest })

/-! ### The host's side -/

/-- 10_state.md R47: while a command runs, a write to any register but CTRL, INT_STATUS and INT_ENABLE is ignored and
sets ACC_IS; nothing else changes. -/
def Obligations.BusyRegisterWriteIgnored : Prop :=
  ∀ (s : State) (r : Reg) (v : Word) (rest : List Event), s.seq = .run → NextWrites s r v rest →
    r ≠ .ctrl → r ≠ .intStatus → r ≠ .intEnable →
    step s = .next { s with intStatus := s.intStatus ||| 0b100, pending := rest }

/-- 20_memory.md R91, R92: while a command runs, a host access to BUF or beyond reads 0 or is ignored, and sets ACC_IS;
so does, at any time, one that reaches past the end of BUF, and one that is not naturally aligned. -/
def Obligations.BufAccessRefused : Prop :=
  ∀ (s : State) (a : Nat) (w : Width) (v : Word) (rest : List Event), a < 0x1000000 →
    s.seq = .run ∨ (∃ n, w.bytes = some n ∧ s.params.bufSize < a + n) ∨
      (∃ n, w.bytes = some n ∧ a % n ≠ 0) →
    (s.pending = .host (.write (s.params.hostBase + (0x1000000 + a)) w v) :: rest →
      step s = .next { s with intStatus := s.intStatus ||| 0b100, pending := rest }) ∧
    (s.pending = .host (.read (s.params.hostBase + (0x1000000 + a)) w) :: rest →
      step s = .next { s with intStatus := s.intStatus ||| 0b100, readData := 0, pending := rest })

/-- 10_state.md R22, 20_memory.md R82: reserved register offsets, to word accesses, and the reserved range, to accesses of
every width and alignment, read 0 and ignore writes, busy or idle, without an access error. THE MODEL'S CHOICE
(log 10): the accesses that begin in the last bytes of the reserved range and reach into BUF (a word at window
offsets 0xFFFFFD to 0xFFFFFF, a halfword at 0xFFFFFF) belong to that range, by their first byte. -/
def Obligations.ReservedOffsetsReadZero : Prop :=
  ∀ (s : State) (off : Nat) (w : Width) (v : Word) (rest : List Event),
    (w = .word ∧ off < 0x100 ∧ off % 4 = 0 ∧ ∀ r : Reg, r.offset ≠ off) ∨ (0x100 ≤ off ∧ off < 0x1000000) →
    (s.pending = .host (.write (s.params.hostBase + off) w v) :: rest →
      step s = .next { s with pending := rest }) ∧
    (s.pending = .host (.read (s.params.hostBase + off) w) :: rest →
      step s = .next { s with readData := 0, pending := rest })

/-- 20_memory.md R90: a register access of another width, or a misaligned one, is ignored, reads 0, and sets ACC_IS. -/
def Obligations.BadRegisterAccessRefused : Prop :=
  ∀ (s : State) (off : Nat) (w : Width) (v : Word) (rest : List Event), off < 0x100 →
    w ≠ .word ∨ off % 4 ≠ 0 →
    (s.pending = .host (.write (s.params.hostBase + off) w v) :: rest →
      step s = .next { s with intStatus := s.intStatus ||| 0b100, pending := rest }) ∧
    (s.pending = .host (.read (s.params.hostBase + off) w) :: rest →
      step s = .next { s with intStatus := s.intStatus ||| 0b100, readData := 0, pending := rest })

/-- 10_state.md R20, R21, R23: on an idle engine, a read-only register ignores a write; a writable register then reads as
the bits written to the bits it uses; and every other register reads as before (CHUNK_OFF and CHUNK_LEN apart,
which are views). -/
def Obligations.IdleRegisterWriteHoldsValue : Prop :=
  ∀ (s t : State) (r : Reg) (v : Word) (rest : List Event), s.seq = .idle → NextWrites s r v rest →
    r ≠ .ctrl → r ≠ .cmd → r ≠ .intStatus → step s = .next t →
    t.seq = .idle ∧ t.pending = rest ∧ t.buf = s.buf ∧
    (r ∈ [Reg.src, .dst, .len, .key0, .key1, .key2, .key3, .fb0, .fb1, .blk0, .blk1, .crcPoly, .crcInit,
      .crcXorout] → regValue t r = .next v) ∧
    (r = .intEnable → regValue t r = .next (v &&& 0x7)) ∧
    (r = .crcCfg → regValue t r = .next (v &&& 0x3)) ∧
    (r = .chunkSel → regValue t r = .next (v &&& 0xFFFF)) ∧
    (r ∈ [Reg.id, .cap, .bufsz, .status, .errInfo, .cur, .chk, .chkRef, .frameBase, .frameLen, .chunkCount,
      .chunkOff, .chunkLen] → t = { s with pending := rest }) ∧
    (∀ q, q ≠ r → q ≠ .chunkOff → q ≠ .chunkLen → regValue t q = regValue s q)

/-- 20_memory.md R89, R91, R93: an accepted host BUF write stores its bytes little-endian, changes no other byte, and
clears FRAME_VALID exactly when a valid frame contains a written byte. -/
def Obligations.HostBufWriteStoresLittleEndian : Prop :=
  ∀ (s : State) (a n : Nat) (w : Width) (v : Word) (rest : List Event), s.seq = .idle → w.bytes = some n →
    a % n = 0 → a + n ≤ s.params.bufSize → s.params.wf = true →
    s.pending = .host (.write (s.params.hostBase + (0x1000000 + a)) w v) :: rest →
    ∃ t, step s = .next t ∧
      t = { s with buf := t.buf, frameValid := t.frameValid, pending := rest } ∧
      (∀ j, j < n → byteAt t (a + j) = v.extractLsb' (8 * j) 8) ∧
      (∀ c, c < a ∨ a + n ≤ c → byteAt t c = byteAt s c) ∧
      (t.frameValid = true ↔ s.frameValid = true ∧ ¬ ∃ x, a ≤ x ∧ x < a + n ∧ s.frameBase.toNat ≤ x ∧
        x < s.frameBase.toNat + s.frameLen.toNat)

/-- 20_memory.md R89, R91: an accepted host BUF read returns the little-endian value of its bytes, zero-extended, and
changes nothing else. -/
def Obligations.HostBufReadReturnsLittleEndian : Prop :=
  ∀ (s : State) (a n : Nat) (w : Width) (rest : List Event), s.seq = .idle → w.bytes = some n →
    a % n = 0 → a + n ≤ s.params.bufSize → s.params.wf = true →
    s.pending = .host (.read (s.params.hostBase + (0x1000000 + a)) w) :: rest →
    ∃ t, step s = .next t ∧ t = { s with readData := t.readData, pending := rest } ∧
      t.readData.toNat = ((List.range n).map fun j => 2 ^ (8 * j) * (byteAt s (a + j)).toNat).sum

/-- 10_state.md R48, R33, R23: what a register read answers while a command runs. The first list of R48, and CTRL
(log 6), answer their current values. CUR answers a multiple of the granule, no less than any earlier read of this
command and no more than the command's final CUR; that is the CUR it ends with if no further abort or reset
comes, which EveryCommandCompletes says, and a later abort never ends it below a value read (log 7, log 15).
The result registers answer a free draw, of 16 bits where the register has 16 (log 6). -/
def Obligations.BusyCursorReadIsBounded : Prop :=
  ∀ (s : State) (i : Instr) (rest : List Event), EngineInv s → s.seq = .run →
    decode s.params.hasCrc32 s.cmd = .ok i →
    (NextReads s .cur rest → ∃ t, step s = .next t ∧
      t = { s with readData := t.readData, curSeen := t.readData, draws := s.draws + 1, pending := rest } ∧
      s.curSeen.toNat ≤ t.readData.toNat ∧ t.readData.toNat ≤ finalCur s i ∧
      t.readData.toNat % granule i = 0) ∧
    (∀ r ∈ [Reg.id, .cap, .bufsz, .ctrl, .cmd, .status, .errInfo, .intStatus, .intEnable, .src, .dst, .len,
      .key0, .key1, .key2, .key3, .crcPoly, .crcInit, .crcXorout, .crcCfg, .chunkSel],
      NextReads s r rest → ∃ v, regValue s r = .next v ∧
        step s = .next { s with readData := v, pending := rest }) ∧
    (∀ r ∈ [Reg.fb0, .fb1, .blk0, .blk1, .chk, .frameBase, .frameLen, .chunkOff, .chunkLen],
      NextReads s r rest → step s = .next { s with
        readData := Config.freeWord s.draws, draws := s.draws + 1, pending := rest }) ∧
    (∀ r ∈ [Reg.chkRef, .chunkCount], NextReads s r rest → step s = .next { s with
      readData := Config.freeWord s.draws &&& 0xFFFF, draws := s.draws + 1, pending := rest })

/-- 20_memory.md R95: no host read has a side effect on the engine: only ACC_IS of a refused access (R265), the value
returned, and the model's record of draws change. -/
def Obligations.HostReadHasNoSideEffect : Prop :=
  ∀ (s t : State) (address : Nat) (w : Width) (rest : List Event),
    s.pending = .host (.read address w) :: rest → step s = .next t →
    t = { s with intStatus := t.intStatus, readData := t.readData, draws := t.draws, curSeen := t.curSeen,
                 pending := rest } ∧
    (t.intStatus = s.intStatus ∨ t.intStatus = s.intStatus ||| 0b100)

/-- 10_state.md R35, R36, R47: the two interrupt registers, whose writes are accepted busy or idle. A write of v to
INT_STATUS clears the bits set in v; a write of v to INT_ENABLE puts v's low three bits there, which it then
reads as; and nothing else changes. -/
def Obligations.IntStatusWriteOneToClear : Prop :=
  ∀ (s : State) (v : Word) (rest : List Event),
    (NextWrites s .intStatus v rest →
      ∃ t, step s = .next t ∧ t = { s with intStatus := t.intStatus, pending := rest } ∧
        ∀ j, j < 3 → t.intStatus.getLsbD j = (s.intStatus.getLsbD j && !v.getLsbD j)) ∧
    (NextWrites s .intEnable v rest →
      ∃ t, step s = .next t ∧ t = { s with intEnable := t.intEnable, pending := rest } ∧
        (∀ j, j < 3 → t.intEnable.getLsbD j = v.getLsbD j) ∧ regValue t .intEnable = .next (v &&& 0x7))

/-- 10_state.md R35: no event but a clearing write or a reset clears a bit of INT_STATUS. -/
def Obligations.PendingBitsStayUntilCleared : Prop :=
  ∀ (s t : State) (j : Nat), step s = .next t → s.intStatus.getLsbD j = true → t.intStatus.getLsbD j = false →
    ∃ rest, (∃ v, NextWrites s .intStatus v rest ∧ v.getLsbD j = true) ∨
      (∃ v, NextWrites s .ctrl v rest ∧ v.getLsbD 0 = true) ∨ s.pending = .powerOn :: rest

/-- 10_state.md R29 to R32, 60_exceptions.md R270: what the host sees of the flags. IRQ is asserted exactly when some
source is both pending and enabled; STATUS reads BUSY in bit 0, DONE in bit 1, ERR (ERR_CODE not 0) in bit 2,
FRAME_VALID in bit 3, ERR_CODE in bits 15:8, and 0 in every other bit. -/
def Obligations.IrqIsPendingAndEnabled : Prop :=
  ∀ s : State,
    (irq s = true ↔ ∃ j, j < 3 ∧ s.intStatus.getLsbD j = true ∧ s.intEnable.getLsbD j = true) ∧
    ∃ w, regValue s .status = .next w ∧
      (w.getLsbD 0 = true ↔ s.seq = .run) ∧ w.getLsbD 1 = s.done ∧ (w.getLsbD 2 = true ↔ s.errCode ≠ 0) ∧
      w.getLsbD 3 = s.frameValid ∧ w.extractLsb' 8 8 = s.errCode ∧
      w.extractLsb' 4 4 = 0 ∧ w.extractLsb' 16 16 = 0

/-- 70_reset_and_hazards.md R293: nothing runs until the host writes CMD: an idle engine becomes busy only by the
acceptance of a legal word. -/
def Obligations.OnlyCmdWriteStartsSequencer : Prop :=
  ∀ s t : State, s.seq = .idle → step s = .next t → t.seq = .run →
    ∃ w i rest, NextWrites s .cmd w rest ∧ decode s.params.hasCrc32 w = .ok i

/-- 30_encoding.md R123, 10_state.md R37 to R44: what a command's step may write. No command writes the operand, key,
configuration or interrupt-enable registers; BLK only ENC_BLOCK and DEC_BLOCK; FB only the chained commands;
CHK only SUM16, CRC32 and PARSE; CHK_REF and the frame registers only PARSE; BUF only SWAP and the chained
commands. -/
def Obligations.CommandsWriteOnlyTheirRegisters : Prop :=
  ∀ (i : Instr) (s t : State), exec i s = .next t →
    t.params = s.params ∧ t.cmd = s.cmd ∧ t.src = s.src ∧ t.dst = s.dst ∧ t.len = s.len ∧ t.key = s.key ∧
    t.crcPoly = s.crcPoly ∧ t.crcInit = s.crcInit ∧ t.crcXorout = s.crcXorout ∧ t.crcCfg = s.crcCfg ∧
    t.chunkSel = s.chunkSel ∧ t.intEnable = s.intEnable ∧ t.epoch = s.epoch ∧ t.pending = s.pending ∧
    (i ≠ .encBlock → i ≠ .decBlock → t.blk = s.blk) ∧
    ((∀ a b c, i ≠ .chainEnc a b c) → (∀ a b c, i ≠ .chainDec a b c) → i ≠ .chunkDec → t.fb = s.fb) ∧
    (i ≠ .sum16 → i ≠ .crc32 → i ≠ .parse → t.chk = s.chk) ∧
    (i ≠ .parse → t.chkRef = s.chkRef ∧ t.frameBase = s.frameBase ∧ t.frameLen = s.frameLen ∧
      t.chunkCount = s.chunkCount ∧ (t.frameValid = true → s.frameValid = true)) ∧
    (i ≠ .swap → (∀ a b c, i ≠ .chainEnc a b c) → (∀ a b c, i ≠ .chainDec a b c) → i ≠ .chunkDec →
      t.buf = s.buf)

/-! ### Reset -/

/-- 10_state.md R21, 70_reset_and_hazards.md R290: what every register reads after power-on reset, on every engine: in
the state after reset, and after a power-on event in any state. A power-on event keeps the parameters and puts the
whole state at its reset values; only the hidden fields R290 gives no meaning to, and the model's own fields, are
left open here. Every BUF byte is then unspecified anew (U1; the constant's form is the model's, log 4). -/
def Obligations.ResetRegisterValues : Prop :=
  (∀ p : Params, ResetReads p (State.resetWith p)) ∧
  ∀ (s : State) (rest : List Event), s.pending = .powerOn :: rest → ∃ t, step s = .next t ∧
    ResetReads s.params t ∧
    t = { (State.resetWith s.params).withScratch t with
            buf := t.buf, epoch := t.epoch, draws := t.draws, readData := t.readData, curSeen := t.curSeen,
            abortAt := t.abortAt, pending := rest } ∧
    ∀ a, byteAt t a = Config.powerOnByte (s.epoch + 1) a

/-- 70_reset_and_hazards.md R291, R292, 45_control.md R241: a CTRL write with bit 0 set puts every register, SEQ and
ABORT_PEND at their reset values, busy or idle. BUF is unchanged on an idle engine; during a command every byte
outside its destination is. Left open: the hidden fields R290 gives no meaning to, and the model's own. THE MODEL'S
CHOICE (log 9): before the command's checks are made, its destination is DST and the output length its
registers give. -/
def Obligations.SoftResetRestoresRegisters : Prop :=
  ∀ (s : State) (v : Word) (rest : List Event), NextWrites s .ctrl v rest → v.getLsbD 0 = true →
    ∃ t, step s = .next t ∧
      t = { (State.resetWith s.params).withScratch t with
              buf := t.buf, epoch := t.epoch, draws := t.draws, readData := t.readData, curSeen := t.curSeen,
              abortAt := t.abortAt, pending := rest } ∧
      (s.seq = .idle → ∀ a, byteAt t a = byteAt s a) ∧
      (∀ i, s.seq = .run → decode s.params.hasCrc32 s.cmd = .ok i →
        ∀ a, a < s.dst.toNat ∨ s.dst.toNat + outLen s i ≤ a → byteAt t a = byteAt s a)

/-! ### Invariant, safety, termination -/

/-- The invariant holds after reset, of every engine within the bounds of 00_scope.md R7. -/
def Obligations.InvHoldsAtReset : Prop :=
  (∀ p : Params, p.wf = true → EngineInv (State.resetWith p)) ∧ EngineInv State.reset

/-- Every step, of whichever event, keeps the invariant (10_state.md R33, 60_exceptions.md R263, 44_frame.md R215,
20_memory.md R81). -/
def Obligations.EveryStepKeepsInv : Prop :=
  ∀ s t : State, EngineInv s → step s = .next t → EngineInv t

/-- 20_memory.md R84, 44_frame.md R215: from a state of the invariant no step stops: a sequencer access outside BUF never
occurs, and no descriptor read leaves it. -/
def Obligations.NoStepLeavesBuf : Prop :=
  ∀ s : State, EngineInv s → ∃ t, step s = .next t

/-- 70_reset_and_hazards.md R304, 10_state.md R33, R48: an accepted command completes within `max(1, n)` sequencer steps
and one final step, where n is fixed at acceptance; its final CUR is the one a CUR read made at its start is
bounded by. -/
def Obligations.EveryCommandCompletes : Prop :=
  ∀ (s : State) (i : Instr), EngineInv s → s.seq = .run → s.phase = .check →
    decode s.params.hasCrc32 s.cmd = .ok i →
    ∃ t, runCommand i (max 1 (elementCount s i) + 1) s = .next t ∧ t.seq = .idle ∧ t.done = true ∧
      t.cur.toNat = finalCur s i
end

