-- ==== Sys2Proof/Laws/Words.lean ====
section
/-! SUPPORT. The bytes of words: taking a word apart and putting it together are inverse, and the byte
reversal is its own inverse (spec/40_byteorder.md R140). -/

namespace Sys2Proof.Machine

/-- A byte of a word as a number. -/
theorem toNat_byteOf (w : Word) (i : Nat) : (byteOf w i).toNat = w.toNat / 2 ^ (8 * i) % 256 := by
  simp [byteOf, BitVec.extractLsb'_toNat, Nat.shiftRight_eq_div_pow]

/-- A word is read little-endian (R10, R87). -/
theorem toNat_wordOfBytes (b0 b1 b2 b3 : Byte) : (wordOfBytes b0 b1 b2 b3).toNat =
    b0.toNat + 0x100 * b1.toNat + 0x10000 * b2.toNat + 0x1000000 * b3.toNat := by
  have := b0.isLt; have := b1.isLt; have := b2.isLt; have := b3.isLt
  simp only [wordOfBytes, BitVec.toNat_ofNat]
  omega

/-- A halfword is read little-endian: the byte at the lower address holds bits [7:0] (R87). -/
theorem toNat_halfOfBytes (b0 b1 : Byte) : (halfOfBytes b0 b1).toNat = b0.toNat + 0x100 * b1.toNat := by
  have := b0.isLt; have := b1.isLt
  simp only [halfOfBytes, BitVec.toNat_ofNat]
  omega

theorem byteOf_wordOfBytes_zero (b0 b1 b2 b3 : Byte) : byteOf (wordOfBytes b0 b1 b2 b3) 0 = b0 := by
  have := b0.isLt
  apply BitVec.eq_of_toNat_eq
  rw [toNat_byteOf, toNat_wordOfBytes]
  omega

theorem byteOf_wordOfBytes_one (b0 b1 b2 b3 : Byte) : byteOf (wordOfBytes b0 b1 b2 b3) 1 = b1 := by
  have := b0.isLt; have := b1.isLt
  apply BitVec.eq_of_toNat_eq
  rw [toNat_byteOf, toNat_wordOfBytes]
  omega

theorem byteOf_wordOfBytes_two (b0 b1 b2 b3 : Byte) : byteOf (wordOfBytes b0 b1 b2 b3) 2 = b2 := by
  have := b0.isLt; have := b1.isLt; have := b2.isLt
  apply BitVec.eq_of_toNat_eq
  rw [toNat_byteOf, toNat_wordOfBytes]
  omega

theorem byteOf_wordOfBytes_three (b0 b1 b2 b3 : Byte) : byteOf (wordOfBytes b0 b1 b2 b3) 3 = b3 := by
  have := b0.isLt; have := b1.isLt; have := b2.isLt; have := b3.isLt
  apply BitVec.eq_of_toNat_eq
  rw [toNat_byteOf, toNat_wordOfBytes]
  omega

/-- A word is the word of its four bytes. -/
theorem wordOfBytes_byteOf (w : Word) :
    wordOfBytes (byteOf w 0) (byteOf w 1) (byteOf w 2) (byteOf w 3) = w := by
  have := w.isLt
  apply BitVec.eq_of_toNat_eq
  rw [toNat_wordOfBytes, toNat_byteOf, toNat_byteOf, toNat_byteOf, toNat_byteOf]
  omega

/-- The four bytes determine the word. -/
theorem wordOfBytes_inj {a b c d a' b' c' d' : Byte} (h : wordOfBytes a b c d = wordOfBytes a' b' c' d') :
    a = a' ∧ b = b' ∧ c = c' ∧ d = d' := by
  refine ⟨?_, ?_, ?_, ?_⟩
  · rw [← byteOf_wordOfBytes_zero a b c d, h, byteOf_wordOfBytes_zero]
  · rw [← byteOf_wordOfBytes_one a b c d, h, byteOf_wordOfBytes_one]
  · rw [← byteOf_wordOfBytes_two a b c d, h, byteOf_wordOfBytes_two]
  · rw [← byteOf_wordOfBytes_three a b c d, h, byteOf_wordOfBytes_three]

theorem bswap32_wordOfBytes (b0 b1 b2 b3 : Byte) :
    bswap32 (wordOfBytes b0 b1 b2 b3) = wordOfBytes b3 b2 b1 b0 := by
  rw [bswap32, byteOf_wordOfBytes_zero, byteOf_wordOfBytes_one, byteOf_wordOfBytes_two,
    byteOf_wordOfBytes_three]

/-- `bswap32(bswap32(w)) = w` (R140). -/
theorem bswap32_bswap32 (w : Word) : bswap32 (bswap32 w) = w := by
  conv_rhs => rw [← wordOfBytes_byteOf w]
  rw [bswap32.eq_1 w, bswap32_wordOfBytes]

/-- Applying the same byte order twice gives the word back. -/
theorem orderWord_orderWord (s : Bool) (w : Word) : orderWord s (orderWord s w) = w := by
  cases s <;> simp [orderWord, bswap32_bswap32]

@[simp] theorem bytesOfWord_length (w : Word) (n : Nat) : (bytesOfWord w n).length = n := by
  induction n with
  | zero => rfl
  | succ n ih => simp [bytesOfWord, ih]

theorem bytesOfWord_getElem (w : Word) (n i : Nat) (h : i < (bytesOfWord w n).length) :
    (bytesOfWord w n)[i] = byteOf w i := by
  induction n with
  | zero => simp [bytesOfWord] at h
  | succ n ih =>
    simp only [bytesOfWord, List.getElem_append]
    split
    · exact ih _
    · have : i = n := by simp at h; simp_all; omega
      subst this; simp

@[simp] theorem bytesOfBlock_length (b : Block) (swap : Bool) : (bytesOfBlock b swap).length = 8 := by
  simp [bytesOfBlock]

end Sys2Proof.Machine
end

