-- ==== Sys2Proof/Laws/Memory.lean ====
section
/-! SUPPORT. BUF as a list of cells: a read after a write, the canonical form, and that the form makes equal
memories equal lists. -/

namespace Sys2Proof.Machine

theorem memGet_memSet_same (m : List Host.Cell) (a : Nat) (v : Byte) : memGet (memSet m a v) a = some v := by
  induction m with
  | nil => simp [memSet, memGet]
  | cons c m ih =>
    obtain ⟨x, b⟩ := c
    simp only [memSet]
    split
    · simp [memGet]
    · split
      · simp [memGet]
      · simp_all [memGet]

theorem memGet_memSet_other (m : List Host.Cell) {a c : Nat} (v : Byte) (h : c ≠ a) :
    memGet (memSet m a v) c = memGet m c := by
  induction m with
  | nil => simp [memSet, memGet, h.symm]
  | cons e m ih =>
    obtain ⟨x, b⟩ := e
    simp only [memSet]
    split
    · simp [memGet, h.symm]
    · split
      · next hx => subst hx; simp [memGet, h.symm]
      · simp [memGet, ih]

theorem memGet_memSet (m : List Host.Cell) (a c : Nat) (v : Byte) :
    memGet (memSet m a v) c = if c = a then some v else memGet m c := by
  split
  · next h => subst h; exact memGet_memSet_same m c v
  · next h => exact memGet_memSet_other m v h

/-- A read below the stored bytes is unchanged. -/
theorem memGet_memPut_below (m : List Host.Cell) (bs : List Byte) {a c : Nat} (h : c < a) :
    memGet (memPut m a bs) c = memGet m c := by
  induction bs generalizing m a with
  | nil => rfl
  | cons b bs ih =>
    rw [memPut, ih _ (by omega), memGet_memSet_other _ _ (by omega)]

/-- A read past the stored bytes is unchanged. -/
theorem memGet_memPut_above (m : List Host.Cell) (bs : List Byte) {a c : Nat} (h : a + bs.length ≤ c) :
    memGet (memPut m a bs) c = memGet m c := by
  induction bs generalizing m a with
  | nil => rfl
  | cons b bs ih =>
    simp only [List.length_cons] at h
    rw [memPut, ih _ (by omega), memGet_memSet_other _ _ (by omega)]

/-- A read of a stored byte gives it. -/
theorem memGet_memPut_inside (m : List Host.Cell) (bs : List Byte) (a i : Nat) (h : i < bs.length) :
    memGet (memPut m a bs) (a + i) = some bs[i] := by
  induction bs generalizing m a i with
  | nil => simp at h
  | cons b bs ih =>
    rw [memPut]
    cases i with
    | zero => rw [memGet_memPut_below _ _ (by omega)]; simp [memGet_memSet_same]
    | succ i =>
      have := ih (memSet m a b) (a + 1) i (by simpa using h)
      rw [show a + (i + 1) = a + 1 + i by omega, this]; rfl

/-! ### The canonical form -/

theorem memWf_cons {x : Nat} {b : Byte} {m : List Host.Cell} :
    memWf ((x, b) :: m) = true ↔ memWf m = true ∧ ∀ c ∈ m.head?, x < c.1 := by
  cases m with
  | nil => simp [memWf]
  | cons c m => obtain ⟨y, d⟩ := c; simp [memWf, and_comm]

theorem memSet_head {m : List Host.Cell} {a x : Nat} {v : Byte} (hx : x < a)
    (h : ∀ c ∈ m.head?, x < c.1) : ∀ c ∈ (memSet m a v).head?, x < c.1 := by
  cases m with
  | nil => simpa [memSet] using hx
  | cons e m =>
    obtain ⟨y, d⟩ := e
    simp only [memSet]
    split
    · simpa using hx
    · split
      · simpa using hx
      · simpa using h

/-- Listing a byte keeps the canonical form. -/
theorem memWf_memSet {m : List Host.Cell} (a : Nat) (v : Byte) (h : memWf m = true) :
    memWf (memSet m a v) = true := by
  induction m with
  | nil => rfl
  | cons e m ih =>
    obtain ⟨x, b⟩ := e
    rw [memWf_cons] at h
    simp only [memSet]
    split
    · next hlt => rw [memWf_cons, memWf_cons]; exact ⟨h, by simpa using hlt⟩
    · split
      · next heq => subst heq; rw [memWf_cons]; exact h
      · rw [memWf_cons]; exact ⟨ih h.1, memSet_head (by omega) h.2⟩

/-- Storing bytes keeps the canonical form. -/
theorem memWf_memPut {m : List Host.Cell} (a : Nat) (bs : List Byte) (h : memWf m = true) :
    memWf (memPut m a bs) = true := by
  induction bs generalizing m a with
  | nil => exact h
  | cons b bs ih => exact ih _ (memWf_memSet _ _ h)

theorem memBelow_memSet {n : Nat} {m : List Host.Cell} {a : Nat} (v : Byte) (ha : a < n)
    (h : memBelow n m = true) : memBelow n (memSet m a v) = true := by
  induction m with
  | nil => simpa [memSet, memBelow] using ha
  | cons e m ih =>
    obtain ⟨x, b⟩ := e
    simp only [memBelow, List.all_cons, Bool.and_eq_true, decide_eq_true_eq] at h ih ⊢
    simp only [memSet]
    split
    · simp [ha, h.1, h.2]
    · split
      · simp [ha, h.2]
      · simp [h.1, ih h.2]

/-- Storing bytes inside BUF lists no address beyond it. -/
theorem memBelow_memPut {n : Nat} {m : List Host.Cell} {a : Nat} {bs : List Byte} (ha : a + bs.length ≤ n)
    (h : memBelow n m = true) : memBelow n (memPut m a bs) = true := by
  induction bs generalizing m a with
  | nil => exact h
  | cons b bs ih =>
    simp only [List.length_cons] at ha
    exact ih (by omega) (memBelow_memSet b (by omega) h)

theorem memGet_lt_head {m : List Host.Cell} {a : Nat} (hw : memWf m = true) (h : ∀ c ∈ m.head?, a < c.1) :
    memGet m a = none := by
  induction m with
  | nil => rfl
  | cons e m ih =>
    obtain ⟨x, b⟩ := e
    rw [memWf_cons] at hw
    have hx : a < x := by simpa using h
    rw [memGet, if_neg (by omega)]
    exact ih hw.1 fun c hc => by have := hw.2 c hc; omega

/-- In the canonical form, memories that read alike are the same list. -/
theorem memWf_ext {m m' : List Host.Cell} (h : memWf m = true) (h' : memWf m' = true)
    (hg : ∀ a, memGet m a = memGet m' a) : m = m' := by
  induction m generalizing m' with
  | nil =>
    cases m' with
    | nil => rfl
    | cons e m' => obtain ⟨x, b⟩ := e; have := hg x; simp [memGet] at this
  | cons e m ih =>
    obtain ⟨x, b⟩ := e
    cases m' with
    | nil => have := hg x; simp [memGet] at this
    | cons e' m' =>
      obtain ⟨y, c⟩ := e'
      rw [memWf_cons] at h h'
      have hx := hg x
      have hy := hg y
      have hxy : x = y := by
        rcases Nat.lt_trichotomy x y with hlt | heq | hlt
        · rw [memGet, if_pos rfl, memGet, if_neg (by omega),
            memGet_lt_head h'.1 (fun d hd => by have := h'.2 d hd; omega)] at hx
          exact absurd hx (by simp)
        · exact heq
        · rw [memGet, if_neg (by omega), memGet_lt_head h.1 (fun d hd => by have := h.2 d hd; omega),
            memGet, if_pos rfl] at hy
          exact absurd hy (by simp)
      subst hxy
      have hb : b = c := by simpa [memGet] using hx
      subst hb
      congr 1
      refine ih h.1 h'.1 fun a => ?_
      by_cases ha : x = a
      · subst ha
        rw [memGet_lt_head h.1 h.2, memGet_lt_head h'.1 h'.2]
      · have := hg a
        simpa [memGet, ha] using this

/-! ### Bytes of a state -/

/-- A byte outside the stored ones reads as before. -/
theorem byteAt_storeBytes_outside (s : State) (bs : List Byte) {a c : Nat}
    (h : c < a ∨ a + bs.length ≤ c) : byteAt (s.storeBytes a bs) c = byteAt s c := by
  rcases h with h | h
  · simp only [byteAt, State.storeBytes, memGet_memPut_below _ _ h]
  · simp only [byteAt, State.storeBytes, memGet_memPut_above _ _ h]

/-- A stored byte reads as stored. -/
theorem byteAt_storeBytes_inside (s : State) (bs : List Byte) (a i : Nat) (h : i < bs.length) :
    byteAt (s.storeBytes a bs) (a + i) = bs[i] := by
  simp only [byteAt, State.storeBytes, memGet_memPut_inside _ _ _ _ h]

/-- `byteAt` reads only the buffer and the power-on number. -/
theorem byteAt_congr {s t : State} (hb : t.buf = s.buf) (he : t.epoch = s.epoch) (a : Nat) :
    byteAt t a = byteAt s a := by
  simp [byteAt, hb, he]

/-- A stored word reads back (R10, R87). -/
theorem wordAt_storeBytes (s : State) (a : Nat) (w : Word) :
    wordAt (s.storeBytes a (bytesOfWord w 4)) a = w := by
  have h : ∀ i, i < 4 → byteAt (s.storeBytes a (bytesOfWord w 4)) (a + i) = byteOf w i := fun i hi => by
    rw [byteAt_storeBytes_inside _ _ _ _ (by simpa using hi), bytesOfWord_getElem]
  have h0 := h 0 (by omega)
  simp only [Nat.add_zero] at h0
  rw [wordAt, h0, h 1 (by omega), h 2 (by omega), h 3 (by omega), wordOfBytes_byteOf]

/-- The four bytes of a word at an address are the word's. -/
theorem byteAt_of_wordAt {s : State} {a : Nat} {w : Word} (h : wordAt s a = w) (i : Nat) (hi : i < 4) :
    byteAt s (a + i) = byteOf w i := by
  subst h
  have hc : i = 0 ∨ i = 1 ∨ i = 2 ∨ i = 3 := by omega
  rcases hc with rfl | rfl | rfl | rfl
  · simp [wordAt, byteOf_wordOfBytes_zero]
  · simp [wordAt, byteOf_wordOfBytes_one]
  · simp [wordAt, byteOf_wordOfBytes_two]
  · simp [wordAt, byteOf_wordOfBytes_three]

/-- Words that agree byte by byte are equal. -/
theorem wordAt_congr {s t : State} {a b : Nat} (h : ∀ i, i < 4 → byteAt t (b + i) = byteAt s (a + i)) :
    wordAt t b = wordAt s a := by
  have h0 := h 0 (by omega)
  simp only [Nat.add_zero] at h0
  simp only [wordAt, h0, h 1 (by omega), h 2 (by omega), h 3 (by omega)]

end Sys2Proof.Machine
end

