-- ==== Sys2Proof/Laws/State.lean ====
section
/-! SUPPORT. One lemma per field per named update of State, each true by rfl: no proof unfolds an update. -/

namespace Sys2Proof.Machine

variable (s : State)

/-! ### storeBytes -/

@[simp] theorem State.storeBytes_params (a : Nat) (bs : List Byte) : (s.storeBytes a bs).params = s.params := rfl
@[simp] theorem State.storeBytes_cmd (a : Nat) (bs : List Byte) : (s.storeBytes a bs).cmd = s.cmd := rfl
@[simp] theorem State.storeBytes_done (a : Nat) (bs : List Byte) : (s.storeBytes a bs).done = s.done := rfl
@[simp] theorem State.storeBytes_frameValid (a : Nat) (bs : List Byte) :
    (s.storeBytes a bs).frameValid = s.frameValid := rfl
@[simp] theorem State.storeBytes_errCode (a : Nat) (bs : List Byte) : (s.storeBytes a bs).errCode = s.errCode := rfl
@[simp] theorem State.storeBytes_errInfo (a : Nat) (bs : List Byte) : (s.storeBytes a bs).errInfo = s.errInfo := rfl
@[simp] theorem State.storeBytes_cur (a : Nat) (bs : List Byte) : (s.storeBytes a bs).cur = s.cur := rfl
@[simp] theorem State.storeBytes_intStatus (a : Nat) (bs : List Byte) :
    (s.storeBytes a bs).intStatus = s.intStatus := rfl
@[simp] theorem State.storeBytes_intEnable (a : Nat) (bs : List Byte) :
    (s.storeBytes a bs).intEnable = s.intEnable := rfl
@[simp] theorem State.storeBytes_src (a : Nat) (bs : List Byte) : (s.storeBytes a bs).src = s.src := rfl
@[simp] theorem State.storeBytes_dst (a : Nat) (bs : List Byte) : (s.storeBytes a bs).dst = s.dst := rfl
@[simp] theorem State.storeBytes_len (a : Nat) (bs : List Byte) : (s.storeBytes a bs).len = s.len := rfl
@[simp] theorem State.storeBytes_key (a : Nat) (bs : List Byte) : (s.storeBytes a bs).key = s.key := rfl
@[simp] theorem State.storeBytes_fb (a : Nat) (bs : List Byte) : (s.storeBytes a bs).fb = s.fb := rfl
@[simp] theorem State.storeBytes_blk (a : Nat) (bs : List Byte) : (s.storeBytes a bs).blk = s.blk := rfl
@[simp] theorem State.storeBytes_chk (a : Nat) (bs : List Byte) : (s.storeBytes a bs).chk = s.chk := rfl
@[simp] theorem State.storeBytes_chkRef (a : Nat) (bs : List Byte) : (s.storeBytes a bs).chkRef = s.chkRef := rfl
@[simp] theorem State.storeBytes_crcPoly (a : Nat) (bs : List Byte) : (s.storeBytes a bs).crcPoly = s.crcPoly := rfl
@[simp] theorem State.storeBytes_crcInit (a : Nat) (bs : List Byte) : (s.storeBytes a bs).crcInit = s.crcInit := rfl
@[simp] theorem State.storeBytes_crcXorout (a : Nat) (bs : List Byte) :
    (s.storeBytes a bs).crcXorout = s.crcXorout := rfl
@[simp] theorem State.storeBytes_crcCfg (a : Nat) (bs : List Byte) : (s.storeBytes a bs).crcCfg = s.crcCfg := rfl
@[simp] theorem State.storeBytes_frameBase (a : Nat) (bs : List Byte) :
    (s.storeBytes a bs).frameBase = s.frameBase := rfl
@[simp] theorem State.storeBytes_frameLen (a : Nat) (bs : List Byte) :
    (s.storeBytes a bs).frameLen = s.frameLen := rfl
@[simp] theorem State.storeBytes_chunkCount (a : Nat) (bs : List Byte) :
    (s.storeBytes a bs).chunkCount = s.chunkCount := rfl
@[simp] theorem State.storeBytes_chunkSel (a : Nat) (bs : List Byte) :
    (s.storeBytes a bs).chunkSel = s.chunkSel := rfl
@[simp] theorem State.storeBytes_seq (a : Nat) (bs : List Byte) : (s.storeBytes a bs).seq = s.seq := rfl
@[simp] theorem State.storeBytes_abortPend (a : Nat) (bs : List Byte) :
    (s.storeBytes a bs).abortPend = s.abortPend := rfl
@[simp] theorem State.storeBytes_phase (a : Nat) (bs : List Byte) : (s.storeBytes a bs).phase = s.phase := rfl
@[simp] theorem State.storeBytes_index (a : Nat) (bs : List Byte) : (s.storeBytes a bs).index = s.index := rfl
@[simp] theorem State.storeBytes_count (a : Nat) (bs : List Byte) : (s.storeBytes a bs).count = s.count := rfl
@[simp] theorem State.storeBytes_srcBase (a : Nat) (bs : List Byte) : (s.storeBytes a bs).srcBase = s.srcBase := rfl
@[simp] theorem State.storeBytes_sum16 (a : Nat) (bs : List Byte) : (s.storeBytes a bs).sum16 = s.sum16 := rfl
@[simp] theorem State.storeBytes_crc (a : Nat) (bs : List Byte) : (s.storeBytes a bs).crc = s.crc := rfl
@[simp] theorem State.storeBytes_round (a : Nat) (bs : List Byte) : (s.storeBytes a bs).round = s.round := rfl
@[simp] theorem State.storeBytes_roundSum (a : Nat) (bs : List Byte) :
    (s.storeBytes a bs).roundSum = s.roundSum := rfl
@[simp] theorem State.storeBytes_latch (a : Nat) (bs : List Byte) : (s.storeBytes a bs).latch = s.latch := rfl
@[simp] theorem State.storeBytes_buf (a : Nat) (bs : List Byte) : (s.storeBytes a bs).buf = memPut s.buf a bs := rfl
@[simp] theorem State.storeBytes_epoch (a : Nat) (bs : List Byte) : (s.storeBytes a bs).epoch = s.epoch := rfl
@[simp] theorem State.storeBytes_draws (a : Nat) (bs : List Byte) : (s.storeBytes a bs).draws = s.draws := rfl
@[simp] theorem State.storeBytes_curSeen (a : Nat) (bs : List Byte) : (s.storeBytes a bs).curSeen = s.curSeen := rfl
@[simp] theorem State.storeBytes_abortAt (a : Nat) (bs : List Byte) : (s.storeBytes a bs).abortAt = s.abortAt := rfl
@[simp] theorem State.storeBytes_readData (a : Nat) (bs : List Byte) :
    (s.storeBytes a bs).readData = s.readData := rfl
@[simp] theorem State.storeBytes_pending (a : Nat) (bs : List Byte) : (s.storeBytes a bs).pending = s.pending := rfl

/-! ### complete -/

@[simp] theorem State.complete_params : (s.complete).params = s.params := rfl
@[simp] theorem State.complete_cmd : (s.complete).cmd = s.cmd := rfl
@[simp] theorem State.complete_done : (s.complete).done = true := rfl
@[simp] theorem State.complete_frameValid : (s.complete).frameValid = s.frameValid := rfl
@[simp] theorem State.complete_errCode : (s.complete).errCode = s.errCode := rfl
@[simp] theorem State.complete_errInfo : (s.complete).errInfo = s.errInfo := rfl
@[simp] theorem State.complete_cur : (s.complete).cur = s.cur := rfl
@[simp] theorem State.complete_intStatus : (s.complete).intStatus = s.intStatus ||| 1 := rfl
@[simp] theorem State.complete_intEnable : (s.complete).intEnable = s.intEnable := rfl
@[simp] theorem State.complete_src : (s.complete).src = s.src := rfl
@[simp] theorem State.complete_dst : (s.complete).dst = s.dst := rfl
@[simp] theorem State.complete_len : (s.complete).len = s.len := rfl
@[simp] theorem State.complete_key : (s.complete).key = s.key := rfl
@[simp] theorem State.complete_fb : (s.complete).fb = s.fb := rfl
@[simp] theorem State.complete_blk : (s.complete).blk = s.blk := rfl
@[simp] theorem State.complete_chk : (s.complete).chk = s.chk := rfl
@[simp] theorem State.complete_chkRef : (s.complete).chkRef = s.chkRef := rfl
@[simp] theorem State.complete_crcPoly : (s.complete).crcPoly = s.crcPoly := rfl
@[simp] theorem State.complete_crcInit : (s.complete).crcInit = s.crcInit := rfl
@[simp] theorem State.complete_crcXorout : (s.complete).crcXorout = s.crcXorout := rfl
@[simp] theorem State.complete_crcCfg : (s.complete).crcCfg = s.crcCfg := rfl
@[simp] theorem State.complete_frameBase : (s.complete).frameBase = s.frameBase := rfl
@[simp] theorem State.complete_frameLen : (s.complete).frameLen = s.frameLen := rfl
@[simp] theorem State.complete_chunkCount : (s.complete).chunkCount = s.chunkCount := rfl
@[simp] theorem State.complete_chunkSel : (s.complete).chunkSel = s.chunkSel := rfl
@[simp] theorem State.complete_seq : (s.complete).seq = .idle := rfl
@[simp] theorem State.complete_abortPend : (s.complete).abortPend = false := rfl
@[simp] theorem State.complete_phase : (s.complete).phase = s.phase := rfl
@[simp] theorem State.complete_index : (s.complete).index = s.index := rfl
@[simp] theorem State.complete_count : (s.complete).count = s.count := rfl
@[simp] theorem State.complete_srcBase : (s.complete).srcBase = s.srcBase := rfl
@[simp] theorem State.complete_sum16 : (s.complete).sum16 = s.sum16 := rfl
@[simp] theorem State.complete_crc : (s.complete).crc = s.crc := rfl
@[simp] theorem State.complete_round : (s.complete).round = s.round := rfl
@[simp] theorem State.complete_roundSum : (s.complete).roundSum = s.roundSum := rfl
@[simp] theorem State.complete_latch : (s.complete).latch = s.latch := rfl
@[simp] theorem State.complete_buf : (s.complete).buf = s.buf := rfl
@[simp] theorem State.complete_epoch : (s.complete).epoch = s.epoch := rfl
@[simp] theorem State.complete_draws : (s.complete).draws = s.draws := rfl
@[simp] theorem State.complete_curSeen : (s.complete).curSeen = s.curSeen := rfl
@[simp] theorem State.complete_abortAt : (s.complete).abortAt = s.abortAt := rfl
@[simp] theorem State.complete_readData : (s.complete).readData = s.readData := rfl
@[simp] theorem State.complete_pending : (s.complete).pending = s.pending := rfl

/-! ### raiseError -/

@[simp] theorem State.raiseError_params (e : CmdError) (v : Word) : (s.raiseError e v).params = s.params := rfl
@[simp] theorem State.raiseError_cmd (e : CmdError) (v : Word) : (s.raiseError e v).cmd = s.cmd := rfl
@[simp] theorem State.raiseError_done (e : CmdError) (v : Word) : (s.raiseError e v).done = true := rfl
@[simp] theorem State.raiseError_frameValid (e : CmdError) (v : Word) :
    (s.raiseError e v).frameValid = s.frameValid := rfl
@[simp] theorem State.raiseError_errCode (e : CmdError) (v : Word) : (s.raiseError e v).errCode = e.code := rfl
@[simp] theorem State.raiseError_errInfo (e : CmdError) (v : Word) : (s.raiseError e v).errInfo = v := rfl
@[simp] theorem State.raiseError_cur (e : CmdError) (v : Word) : (s.raiseError e v).cur = s.cur := rfl
@[simp] theorem State.raiseError_intStatus (e : CmdError) (v : Word) :
    (s.raiseError e v).intStatus = s.intStatus ||| 3 := rfl
@[simp] theorem State.raiseError_intEnable (e : CmdError) (v : Word) :
    (s.raiseError e v).intEnable = s.intEnable := rfl
@[simp] theorem State.raiseError_src (e : CmdError) (v : Word) : (s.raiseError e v).src = s.src := rfl
@[simp] theorem State.raiseError_dst (e : CmdError) (v : Word) : (s.raiseError e v).dst = s.dst := rfl
@[simp] theorem State.raiseError_len (e : CmdError) (v : Word) : (s.raiseError e v).len = s.len := rfl
@[simp] theorem State.raiseError_key (e : CmdError) (v : Word) : (s.raiseError e v).key = s.key := rfl
@[simp] theorem State.raiseError_fb (e : CmdError) (v : Word) : (s.raiseError e v).fb = s.fb := rfl
@[simp] theorem State.raiseError_blk (e : CmdError) (v : Word) : (s.raiseError e v).blk = s.blk := rfl
@[simp] theorem State.raiseError_chk (e : CmdError) (v : Word) : (s.raiseError e v).chk = s.chk := rfl
@[simp] theorem State.raiseError_chkRef (e : CmdError) (v : Word) : (s.raiseError e v).chkRef = s.chkRef := rfl
@[simp] theorem State.raiseError_crcPoly (e : CmdError) (v : Word) : (s.raiseError e v).crcPoly = s.crcPoly := rfl
@[simp] theorem State.raiseError_crcInit (e : CmdError) (v : Word) : (s.raiseError e v).crcInit = s.crcInit := rfl
@[simp] theorem State.raiseError_crcXorout (e : CmdError) (v : Word) :
    (s.raiseError e v).crcXorout = s.crcXorout := rfl
@[simp] theorem State.raiseError_crcCfg (e : CmdError) (v : Word) : (s.raiseError e v).crcCfg = s.crcCfg := rfl
@[simp] theorem State.raiseError_frameBase (e : CmdError) (v : Word) :
    (s.raiseError e v).frameBase = s.frameBase := rfl
@[simp] theorem State.raiseError_frameLen (e : CmdError) (v : Word) : (s.raiseError e v).frameLen = s.frameLen := rfl
@[simp] theorem State.raiseError_chunkCount (e : CmdError) (v : Word) :
    (s.raiseError e v).chunkCount = s.chunkCount := rfl
@[simp] theorem State.raiseError_chunkSel (e : CmdError) (v : Word) : (s.raiseError e v).chunkSel = s.chunkSel := rfl
@[simp] theorem State.raiseError_seq (e : CmdError) (v : Word) : (s.raiseError e v).seq = .idle := rfl
@[simp] theorem State.raiseError_abortPend (e : CmdError) (v : Word) : (s.raiseError e v).abortPend = false := rfl
@[simp] theorem State.raiseError_phase (e : CmdError) (v : Word) : (s.raiseError e v).phase = s.phase := rfl
@[simp] theorem State.raiseError_index (e : CmdError) (v : Word) : (s.raiseError e v).index = s.index := rfl
@[simp] theorem State.raiseError_count (e : CmdError) (v : Word) : (s.raiseError e v).count = s.count := rfl
@[simp] theorem State.raiseError_srcBase (e : CmdError) (v : Word) : (s.raiseError e v).srcBase = s.srcBase := rfl
@[simp] theorem State.raiseError_sum16 (e : CmdError) (v : Word) : (s.raiseError e v).sum16 = s.sum16 := rfl
@[simp] theorem State.raiseError_crc (e : CmdError) (v : Word) : (s.raiseError e v).crc = s.crc := rfl
@[simp] theorem State.raiseError_round (e : CmdError) (v : Word) : (s.raiseError e v).round = s.round := rfl
@[simp] theorem State.raiseError_roundSum (e : CmdError) (v : Word) : (s.raiseError e v).roundSum = s.roundSum := rfl
@[simp] theorem State.raiseError_latch (e : CmdError) (v : Word) : (s.raiseError e v).latch = s.latch := rfl
@[simp] theorem State.raiseError_buf (e : CmdError) (v : Word) : (s.raiseError e v).buf = s.buf := rfl
@[simp] theorem State.raiseError_epoch (e : CmdError) (v : Word) : (s.raiseError e v).epoch = s.epoch := rfl
@[simp] theorem State.raiseError_draws (e : CmdError) (v : Word) : (s.raiseError e v).draws = s.draws := rfl
@[simp] theorem State.raiseError_curSeen (e : CmdError) (v : Word) : (s.raiseError e v).curSeen = s.curSeen := rfl
@[simp] theorem State.raiseError_abortAt (e : CmdError) (v : Word) : (s.raiseError e v).abortAt = s.abortAt := rfl
@[simp] theorem State.raiseError_readData (e : CmdError) (v : Word) : (s.raiseError e v).readData = s.readData := rfl
@[simp] theorem State.raiseError_pending (e : CmdError) (v : Word) : (s.raiseError e v).pending = s.pending := rfl

/-! ### latchCommand -/

@[simp] theorem State.latchCommand_params (w : Word) : (s.latchCommand w).params = s.params := rfl
@[simp] theorem State.latchCommand_cmd (w : Word) : (s.latchCommand w).cmd = w := rfl
@[simp] theorem State.latchCommand_done (w : Word) : (s.latchCommand w).done = false := rfl
@[simp] theorem State.latchCommand_frameValid (w : Word) : (s.latchCommand w).frameValid = s.frameValid := rfl
@[simp] theorem State.latchCommand_errCode (w : Word) : (s.latchCommand w).errCode = 0 := rfl
@[simp] theorem State.latchCommand_errInfo (w : Word) : (s.latchCommand w).errInfo = 0 := rfl
@[simp] theorem State.latchCommand_cur (w : Word) : (s.latchCommand w).cur = 0 := rfl
@[simp] theorem State.latchCommand_intStatus (w : Word) : (s.latchCommand w).intStatus = s.intStatus := rfl
@[simp] theorem State.latchCommand_intEnable (w : Word) : (s.latchCommand w).intEnable = s.intEnable := rfl
@[simp] theorem State.latchCommand_src (w : Word) : (s.latchCommand w).src = s.src := rfl
@[simp] theorem State.latchCommand_dst (w : Word) : (s.latchCommand w).dst = s.dst := rfl
@[simp] theorem State.latchCommand_len (w : Word) : (s.latchCommand w).len = s.len := rfl
@[simp] theorem State.latchCommand_key (w : Word) : (s.latchCommand w).key = s.key := rfl
@[simp] theorem State.latchCommand_fb (w : Word) : (s.latchCommand w).fb = s.fb := rfl
@[simp] theorem State.latchCommand_blk (w : Word) : (s.latchCommand w).blk = s.blk := rfl
@[simp] theorem State.latchCommand_chk (w : Word) : (s.latchCommand w).chk = s.chk := rfl
@[simp] theorem State.latchCommand_chkRef (w : Word) : (s.latchCommand w).chkRef = s.chkRef := rfl
@[simp] theorem State.latchCommand_crcPoly (w : Word) : (s.latchCommand w).crcPoly = s.crcPoly := rfl
@[simp] theorem State.latchCommand_crcInit (w : Word) : (s.latchCommand w).crcInit = s.crcInit := rfl
@[simp] theorem State.latchCommand_crcXorout (w : Word) : (s.latchCommand w).crcXorout = s.crcXorout := rfl
@[simp] theorem State.latchCommand_crcCfg (w : Word) : (s.latchCommand w).crcCfg = s.crcCfg := rfl
@[simp] theorem State.latchCommand_frameBase (w : Word) : (s.latchCommand w).frameBase = s.frameBase := rfl
@[simp] theorem State.latchCommand_frameLen (w : Word) : (s.latchCommand w).frameLen = s.frameLen := rfl
@[simp] theorem State.latchCommand_chunkCount (w : Word) : (s.latchCommand w).chunkCount = s.chunkCount := rfl
@[simp] theorem State.latchCommand_chunkSel (w : Word) : (s.latchCommand w).chunkSel = s.chunkSel := rfl
@[simp] theorem State.latchCommand_seq (w : Word) : (s.latchCommand w).seq = .run := rfl
@[simp] theorem State.latchCommand_abortPend (w : Word) : (s.latchCommand w).abortPend = false := rfl
@[simp] theorem State.latchCommand_phase (w : Word) : (s.latchCommand w).phase = .check := rfl
@[simp] theorem State.latchCommand_index (w : Word) : (s.latchCommand w).index = 0 := rfl
@[simp] theorem State.latchCommand_count (w : Word) : (s.latchCommand w).count = s.count := rfl
@[simp] theorem State.latchCommand_srcBase (w : Word) : (s.latchCommand w).srcBase = s.srcBase := rfl
@[simp] theorem State.latchCommand_sum16 (w : Word) : (s.latchCommand w).sum16 = s.sum16 := rfl
@[simp] theorem State.latchCommand_crc (w : Word) : (s.latchCommand w).crc = s.crc := rfl
@[simp] theorem State.latchCommand_round (w : Word) : (s.latchCommand w).round = s.round := rfl
@[simp] theorem State.latchCommand_roundSum (w : Word) : (s.latchCommand w).roundSum = s.roundSum := rfl
@[simp] theorem State.latchCommand_latch (w : Word) : (s.latchCommand w).latch = s.latch := rfl
@[simp] theorem State.latchCommand_buf (w : Word) : (s.latchCommand w).buf = s.buf := rfl
@[simp] theorem State.latchCommand_epoch (w : Word) : (s.latchCommand w).epoch = s.epoch := rfl
@[simp] theorem State.latchCommand_draws (w : Word) : (s.latchCommand w).draws = s.draws := rfl
@[simp] theorem State.latchCommand_curSeen (w : Word) : (s.latchCommand w).curSeen = 0 := rfl
@[simp] theorem State.latchCommand_abortAt (w : Word) : (s.latchCommand w).abortAt = s.abortAt := rfl
@[simp] theorem State.latchCommand_readData (w : Word) : (s.latchCommand w).readData = s.readData := rfl
@[simp] theorem State.latchCommand_pending (w : Word) : (s.latchCommand w).pending = s.pending := rfl

/-! ### accessError -/

@[simp] theorem State.accessError_params : (s.accessError).params = s.params := rfl
@[simp] theorem State.accessError_cmd : (s.accessError).cmd = s.cmd := rfl
@[simp] theorem State.accessError_done : (s.accessError).done = s.done := rfl
@[simp] theorem State.accessError_frameValid : (s.accessError).frameValid = s.frameValid := rfl
@[simp] theorem State.accessError_errCode : (s.accessError).errCode = s.errCode := rfl
@[simp] theorem State.accessError_errInfo : (s.accessError).errInfo = s.errInfo := rfl
@[simp] theorem State.accessError_cur : (s.accessError).cur = s.cur := rfl
@[simp] theorem State.accessError_intStatus : (s.accessError).intStatus = s.intStatus ||| 4 := rfl
@[simp] theorem State.accessError_intEnable : (s.accessError).intEnable = s.intEnable := rfl
@[simp] theorem State.accessError_src : (s.accessError).src = s.src := rfl
@[simp] theorem State.accessError_dst : (s.accessError).dst = s.dst := rfl
@[simp] theorem State.accessError_len : (s.accessError).len = s.len := rfl
@[simp] theorem State.accessError_key : (s.accessError).key = s.key := rfl
@[simp] theorem State.accessError_fb : (s.accessError).fb = s.fb := rfl
@[simp] theorem State.accessError_blk : (s.accessError).blk = s.blk := rfl
@[simp] theorem State.accessError_chk : (s.accessError).chk = s.chk := rfl
@[simp] theorem State.accessError_chkRef : (s.accessError).chkRef = s.chkRef := rfl
@[simp] theorem State.accessError_crcPoly : (s.accessError).crcPoly = s.crcPoly := rfl
@[simp] theorem State.accessError_crcInit : (s.accessError).crcInit = s.crcInit := rfl
@[simp] theorem State.accessError_crcXorout : (s.accessError).crcXorout = s.crcXorout := rfl
@[simp] theorem State.accessError_crcCfg : (s.accessError).crcCfg = s.crcCfg := rfl
@[simp] theorem State.accessError_frameBase : (s.accessError).frameBase = s.frameBase := rfl
@[simp] theorem State.accessError_frameLen : (s.accessError).frameLen = s.frameLen := rfl
@[simp] theorem State.accessError_chunkCount : (s.accessError).chunkCount = s.chunkCount := rfl
@[simp] theorem State.accessError_chunkSel : (s.accessError).chunkSel = s.chunkSel := rfl
@[simp] theorem State.accessError_seq : (s.accessError).seq = s.seq := rfl
@[simp] theorem State.accessError_abortPend : (s.accessError).abortPend = s.abortPend := rfl
@[simp] theorem State.accessError_phase : (s.accessError).phase = s.phase := rfl
@[simp] theorem State.accessError_index : (s.accessError).index = s.index := rfl
@[simp] theorem State.accessError_count : (s.accessError).count = s.count := rfl
@[simp] theorem State.accessError_srcBase : (s.accessError).srcBase = s.srcBase := rfl
@[simp] theorem State.accessError_sum16 : (s.accessError).sum16 = s.sum16 := rfl
@[simp] theorem State.accessError_crc : (s.accessError).crc = s.crc := rfl
@[simp] theorem State.accessError_round : (s.accessError).round = s.round := rfl
@[simp] theorem State.accessError_roundSum : (s.accessError).roundSum = s.roundSum := rfl
@[simp] theorem State.accessError_latch : (s.accessError).latch = s.latch := rfl
@[simp] theorem State.accessError_buf : (s.accessError).buf = s.buf := rfl
@[simp] theorem State.accessError_epoch : (s.accessError).epoch = s.epoch := rfl
@[simp] theorem State.accessError_draws : (s.accessError).draws = s.draws := rfl
@[simp] theorem State.accessError_curSeen : (s.accessError).curSeen = s.curSeen := rfl
@[simp] theorem State.accessError_abortAt : (s.accessError).abortAt = s.abortAt := rfl
@[simp] theorem State.accessError_readData : (s.accessError).readData = s.readData := rfl
@[simp] theorem State.accessError_pending : (s.accessError).pending = s.pending := rfl

/-! ### beginLoop -/

@[simp] theorem State.beginLoop_params (b n : Nat) : (s.beginLoop b n).params = s.params := rfl
@[simp] theorem State.beginLoop_cmd (b n : Nat) : (s.beginLoop b n).cmd = s.cmd := rfl
@[simp] theorem State.beginLoop_done (b n : Nat) : (s.beginLoop b n).done = s.done := rfl
@[simp] theorem State.beginLoop_frameValid (b n : Nat) : (s.beginLoop b n).frameValid = s.frameValid := rfl
@[simp] theorem State.beginLoop_errCode (b n : Nat) : (s.beginLoop b n).errCode = s.errCode := rfl
@[simp] theorem State.beginLoop_errInfo (b n : Nat) : (s.beginLoop b n).errInfo = s.errInfo := rfl
@[simp] theorem State.beginLoop_cur (b n : Nat) : (s.beginLoop b n).cur = s.cur := rfl
@[simp] theorem State.beginLoop_intStatus (b n : Nat) : (s.beginLoop b n).intStatus = s.intStatus := rfl
@[simp] theorem State.beginLoop_intEnable (b n : Nat) : (s.beginLoop b n).intEnable = s.intEnable := rfl
@[simp] theorem State.beginLoop_src (b n : Nat) : (s.beginLoop b n).src = s.src := rfl
@[simp] theorem State.beginLoop_dst (b n : Nat) : (s.beginLoop b n).dst = s.dst := rfl
@[simp] theorem State.beginLoop_len (b n : Nat) : (s.beginLoop b n).len = s.len := rfl
@[simp] theorem State.beginLoop_key (b n : Nat) : (s.beginLoop b n).key = s.key := rfl
@[simp] theorem State.beginLoop_fb (b n : Nat) : (s.beginLoop b n).fb = s.fb := rfl
@[simp] theorem State.beginLoop_blk (b n : Nat) : (s.beginLoop b n).blk = s.blk := rfl
@[simp] theorem State.beginLoop_chk (b n : Nat) : (s.beginLoop b n).chk = s.chk := rfl
@[simp] theorem State.beginLoop_chkRef (b n : Nat) : (s.beginLoop b n).chkRef = s.chkRef := rfl
@[simp] theorem State.beginLoop_crcPoly (b n : Nat) : (s.beginLoop b n).crcPoly = s.crcPoly := rfl
@[simp] theorem State.beginLoop_crcInit (b n : Nat) : (s.beginLoop b n).crcInit = s.crcInit := rfl
@[simp] theorem State.beginLoop_crcXorout (b n : Nat) : (s.beginLoop b n).crcXorout = s.crcXorout := rfl
@[simp] theorem State.beginLoop_crcCfg (b n : Nat) : (s.beginLoop b n).crcCfg = s.crcCfg := rfl
@[simp] theorem State.beginLoop_frameBase (b n : Nat) : (s.beginLoop b n).frameBase = s.frameBase := rfl
@[simp] theorem State.beginLoop_frameLen (b n : Nat) : (s.beginLoop b n).frameLen = s.frameLen := rfl
@[simp] theorem State.beginLoop_chunkCount (b n : Nat) : (s.beginLoop b n).chunkCount = s.chunkCount := rfl
@[simp] theorem State.beginLoop_chunkSel (b n : Nat) : (s.beginLoop b n).chunkSel = s.chunkSel := rfl
@[simp] theorem State.beginLoop_seq (b n : Nat) : (s.beginLoop b n).seq = s.seq := rfl
@[simp] theorem State.beginLoop_abortPend (b n : Nat) : (s.beginLoop b n).abortPend = s.abortPend := rfl
@[simp] theorem State.beginLoop_phase (b n : Nat) : (s.beginLoop b n).phase = .loop := rfl
@[simp] theorem State.beginLoop_index (b n : Nat) : (s.beginLoop b n).index = 0 := rfl
@[simp] theorem State.beginLoop_count (b n : Nat) : (s.beginLoop b n).count = n := rfl
@[simp] theorem State.beginLoop_srcBase (b n : Nat) : (s.beginLoop b n).srcBase = b := rfl
@[simp] theorem State.beginLoop_sum16 (b n : Nat) : (s.beginLoop b n).sum16 = s.sum16 := rfl
@[simp] theorem State.beginLoop_crc (b n : Nat) : (s.beginLoop b n).crc = s.crc := rfl
@[simp] theorem State.beginLoop_round (b n : Nat) : (s.beginLoop b n).round = s.round := rfl
@[simp] theorem State.beginLoop_roundSum (b n : Nat) : (s.beginLoop b n).roundSum = s.roundSum := rfl
@[simp] theorem State.beginLoop_latch (b n : Nat) : (s.beginLoop b n).latch = s.latch := rfl
@[simp] theorem State.beginLoop_buf (b n : Nat) : (s.beginLoop b n).buf = s.buf := rfl
@[simp] theorem State.beginLoop_epoch (b n : Nat) : (s.beginLoop b n).epoch = s.epoch := rfl
@[simp] theorem State.beginLoop_draws (b n : Nat) : (s.beginLoop b n).draws = s.draws := rfl
@[simp] theorem State.beginLoop_curSeen (b n : Nat) : (s.beginLoop b n).curSeen = s.curSeen := rfl
@[simp] theorem State.beginLoop_abortAt (b n : Nat) : (s.beginLoop b n).abortAt = s.abortAt := rfl
@[simp] theorem State.beginLoop_readData (b n : Nat) : (s.beginLoop b n).readData = s.readData := rfl
@[simp] theorem State.beginLoop_pending (b n : Nat) : (s.beginLoop b n).pending = s.pending := rfl

/-! ### advance -/

@[simp] theorem State.advance_params (g : Nat) : (s.advance g).params = s.params := rfl
@[simp] theorem State.advance_cmd (g : Nat) : (s.advance g).cmd = s.cmd := rfl
@[simp] theorem State.advance_done (g : Nat) : (s.advance g).done = s.done := rfl
@[simp] theorem State.advance_frameValid (g : Nat) : (s.advance g).frameValid = s.frameValid := rfl
@[simp] theorem State.advance_errCode (g : Nat) : (s.advance g).errCode = s.errCode := rfl
@[simp] theorem State.advance_errInfo (g : Nat) : (s.advance g).errInfo = s.errInfo := rfl
@[simp] theorem State.advance_cur (g : Nat) : (s.advance g).cur = BitVec.ofNat 32 (g * (s.index + 1)) := rfl
@[simp] theorem State.advance_intStatus (g : Nat) : (s.advance g).intStatus = s.intStatus := rfl
@[simp] theorem State.advance_intEnable (g : Nat) : (s.advance g).intEnable = s.intEnable := rfl
@[simp] theorem State.advance_src (g : Nat) : (s.advance g).src = s.src := rfl
@[simp] theorem State.advance_dst (g : Nat) : (s.advance g).dst = s.dst := rfl
@[simp] theorem State.advance_len (g : Nat) : (s.advance g).len = s.len := rfl
@[simp] theorem State.advance_key (g : Nat) : (s.advance g).key = s.key := rfl
@[simp] theorem State.advance_fb (g : Nat) : (s.advance g).fb = s.fb := rfl
@[simp] theorem State.advance_blk (g : Nat) : (s.advance g).blk = s.blk := rfl
@[simp] theorem State.advance_chk (g : Nat) : (s.advance g).chk = s.chk := rfl
@[simp] theorem State.advance_chkRef (g : Nat) : (s.advance g).chkRef = s.chkRef := rfl
@[simp] theorem State.advance_crcPoly (g : Nat) : (s.advance g).crcPoly = s.crcPoly := rfl
@[simp] theorem State.advance_crcInit (g : Nat) : (s.advance g).crcInit = s.crcInit := rfl
@[simp] theorem State.advance_crcXorout (g : Nat) : (s.advance g).crcXorout = s.crcXorout := rfl
@[simp] theorem State.advance_crcCfg (g : Nat) : (s.advance g).crcCfg = s.crcCfg := rfl
@[simp] theorem State.advance_frameBase (g : Nat) : (s.advance g).frameBase = s.frameBase := rfl
@[simp] theorem State.advance_frameLen (g : Nat) : (s.advance g).frameLen = s.frameLen := rfl
@[simp] theorem State.advance_chunkCount (g : Nat) : (s.advance g).chunkCount = s.chunkCount := rfl
@[simp] theorem State.advance_chunkSel (g : Nat) : (s.advance g).chunkSel = s.chunkSel := rfl
@[simp] theorem State.advance_seq (g : Nat) : (s.advance g).seq = s.seq := rfl
@[simp] theorem State.advance_abortPend (g : Nat) : (s.advance g).abortPend = s.abortPend := rfl
@[simp] theorem State.advance_phase (g : Nat) : (s.advance g).phase = s.phase := rfl
@[simp] theorem State.advance_index (g : Nat) : (s.advance g).index = s.index + 1 := rfl
@[simp] theorem State.advance_count (g : Nat) : (s.advance g).count = s.count := rfl
@[simp] theorem State.advance_srcBase (g : Nat) : (s.advance g).srcBase = s.srcBase := rfl
@[simp] theorem State.advance_sum16 (g : Nat) : (s.advance g).sum16 = s.sum16 := rfl
@[simp] theorem State.advance_crc (g : Nat) : (s.advance g).crc = s.crc := rfl
@[simp] theorem State.advance_round (g : Nat) : (s.advance g).round = s.round := rfl
@[simp] theorem State.advance_roundSum (g : Nat) : (s.advance g).roundSum = s.roundSum := rfl
@[simp] theorem State.advance_latch (g : Nat) : (s.advance g).latch = s.latch := rfl
@[simp] theorem State.advance_buf (g : Nat) : (s.advance g).buf = s.buf := rfl
@[simp] theorem State.advance_epoch (g : Nat) : (s.advance g).epoch = s.epoch := rfl
@[simp] theorem State.advance_draws (g : Nat) : (s.advance g).draws = s.draws := rfl
@[simp] theorem State.advance_curSeen (g : Nat) : (s.advance g).curSeen = s.curSeen := rfl
@[simp] theorem State.advance_abortAt (g : Nat) : (s.advance g).abortAt = s.abortAt := rfl
@[simp] theorem State.advance_readData (g : Nat) : (s.advance g).readData = s.readData := rfl
@[simp] theorem State.advance_pending (g : Nat) : (s.advance g).pending = s.pending := rfl

/-! ### clearFrame -/

@[simp] theorem State.clearFrame_params (a n : Nat) : (s.clearFrame a n).params = s.params := rfl
@[simp] theorem State.clearFrame_cmd (a n : Nat) : (s.clearFrame a n).cmd = s.cmd := rfl
@[simp] theorem State.clearFrame_done (a n : Nat) : (s.clearFrame a n).done = s.done := rfl
@[simp] theorem State.clearFrame_frameValid (a n : Nat) :
    (s.clearFrame a n).frameValid = (s.frameValid && !meetsFrame s a n) := rfl
@[simp] theorem State.clearFrame_errCode (a n : Nat) : (s.clearFrame a n).errCode = s.errCode := rfl
@[simp] theorem State.clearFrame_errInfo (a n : Nat) : (s.clearFrame a n).errInfo = s.errInfo := rfl
@[simp] theorem State.clearFrame_cur (a n : Nat) : (s.clearFrame a n).cur = s.cur := rfl
@[simp] theorem State.clearFrame_intStatus (a n : Nat) : (s.clearFrame a n).intStatus = s.intStatus := rfl
@[simp] theorem State.clearFrame_intEnable (a n : Nat) : (s.clearFrame a n).intEnable = s.intEnable := rfl
@[simp] theorem State.clearFrame_src (a n : Nat) : (s.clearFrame a n).src = s.src := rfl
@[simp] theorem State.clearFrame_dst (a n : Nat) : (s.clearFrame a n).dst = s.dst := rfl
@[simp] theorem State.clearFrame_len (a n : Nat) : (s.clearFrame a n).len = s.len := rfl
@[simp] theorem State.clearFrame_key (a n : Nat) : (s.clearFrame a n).key = s.key := rfl
@[simp] theorem State.clearFrame_fb (a n : Nat) : (s.clearFrame a n).fb = s.fb := rfl
@[simp] theorem State.clearFrame_blk (a n : Nat) : (s.clearFrame a n).blk = s.blk := rfl
@[simp] theorem State.clearFrame_chk (a n : Nat) : (s.clearFrame a n).chk = s.chk := rfl
@[simp] theorem State.clearFrame_chkRef (a n : Nat) : (s.clearFrame a n).chkRef = s.chkRef := rfl
@[simp] theorem State.clearFrame_crcPoly (a n : Nat) : (s.clearFrame a n).crcPoly = s.crcPoly := rfl
@[simp] theorem State.clearFrame_crcInit (a n : Nat) : (s.clearFrame a n).crcInit = s.crcInit := rfl
@[simp] theorem State.clearFrame_crcXorout (a n : Nat) : (s.clearFrame a n).crcXorout = s.crcXorout := rfl
@[simp] theorem State.clearFrame_crcCfg (a n : Nat) : (s.clearFrame a n).crcCfg = s.crcCfg := rfl
@[simp] theorem State.clearFrame_frameBase (a n : Nat) : (s.clearFrame a n).frameBase = s.frameBase := rfl
@[simp] theorem State.clearFrame_frameLen (a n : Nat) : (s.clearFrame a n).frameLen = s.frameLen := rfl
@[simp] theorem State.clearFrame_chunkCount (a n : Nat) : (s.clearFrame a n).chunkCount = s.chunkCount := rfl
@[simp] theorem State.clearFrame_chunkSel (a n : Nat) : (s.clearFrame a n).chunkSel = s.chunkSel := rfl
@[simp] theorem State.clearFrame_seq (a n : Nat) : (s.clearFrame a n).seq = s.seq := rfl
@[simp] theorem State.clearFrame_abortPend (a n : Nat) : (s.clearFrame a n).abortPend = s.abortPend := rfl
@[simp] theorem State.clearFrame_phase (a n : Nat) : (s.clearFrame a n).phase = s.phase := rfl
@[simp] theorem State.clearFrame_index (a n : Nat) : (s.clearFrame a n).index = s.index := rfl
@[simp] theorem State.clearFrame_count (a n : Nat) : (s.clearFrame a n).count = s.count := rfl
@[simp] theorem State.clearFrame_srcBase (a n : Nat) : (s.clearFrame a n).srcBase = s.srcBase := rfl
@[simp] theorem State.clearFrame_sum16 (a n : Nat) : (s.clearFrame a n).sum16 = s.sum16 := rfl
@[simp] theorem State.clearFrame_crc (a n : Nat) : (s.clearFrame a n).crc = s.crc := rfl
@[simp] theorem State.clearFrame_round (a n : Nat) : (s.clearFrame a n).round = s.round := rfl
@[simp] theorem State.clearFrame_roundSum (a n : Nat) : (s.clearFrame a n).roundSum = s.roundSum := rfl
@[simp] theorem State.clearFrame_latch (a n : Nat) : (s.clearFrame a n).latch = s.latch := rfl
@[simp] theorem State.clearFrame_buf (a n : Nat) : (s.clearFrame a n).buf = s.buf := rfl
@[simp] theorem State.clearFrame_epoch (a n : Nat) : (s.clearFrame a n).epoch = s.epoch := rfl
@[simp] theorem State.clearFrame_draws (a n : Nat) : (s.clearFrame a n).draws = s.draws := rfl
@[simp] theorem State.clearFrame_curSeen (a n : Nat) : (s.clearFrame a n).curSeen = s.curSeen := rfl
@[simp] theorem State.clearFrame_abortAt (a n : Nat) : (s.clearFrame a n).abortAt = s.abortAt := rfl
@[simp] theorem State.clearFrame_readData (a n : Nat) : (s.clearFrame a n).readData = s.readData := rfl
@[simp] theorem State.clearFrame_pending (a n : Nat) : (s.clearFrame a n).pending = s.pending := rfl

/-! ### startFeedback -/

@[simp] theorem State.startFeedback_params (c : Bool) : (s.startFeedback c).params = s.params := rfl
@[simp] theorem State.startFeedback_cmd (c : Bool) : (s.startFeedback c).cmd = s.cmd := rfl
@[simp] theorem State.startFeedback_done (c : Bool) : (s.startFeedback c).done = s.done := rfl
@[simp] theorem State.startFeedback_frameValid (c : Bool) : (s.startFeedback c).frameValid = s.frameValid := rfl
@[simp] theorem State.startFeedback_errCode (c : Bool) : (s.startFeedback c).errCode = s.errCode := rfl
@[simp] theorem State.startFeedback_errInfo (c : Bool) : (s.startFeedback c).errInfo = s.errInfo := rfl
@[simp] theorem State.startFeedback_cur (c : Bool) : (s.startFeedback c).cur = s.cur := rfl
@[simp] theorem State.startFeedback_intStatus (c : Bool) : (s.startFeedback c).intStatus = s.intStatus := rfl
@[simp] theorem State.startFeedback_intEnable (c : Bool) : (s.startFeedback c).intEnable = s.intEnable := rfl
@[simp] theorem State.startFeedback_src (c : Bool) : (s.startFeedback c).src = s.src := rfl
@[simp] theorem State.startFeedback_dst (c : Bool) : (s.startFeedback c).dst = s.dst := rfl
@[simp] theorem State.startFeedback_len (c : Bool) : (s.startFeedback c).len = s.len := rfl
@[simp] theorem State.startFeedback_key (c : Bool) : (s.startFeedback c).key = s.key := rfl
@[simp] theorem State.startFeedback_fb (c : Bool) : (s.startFeedback c).fb = if c then s.fb else ⟨0, 0⟩ := rfl
@[simp] theorem State.startFeedback_blk (c : Bool) : (s.startFeedback c).blk = s.blk := rfl
@[simp] theorem State.startFeedback_chk (c : Bool) : (s.startFeedback c).chk = s.chk := rfl
@[simp] theorem State.startFeedback_chkRef (c : Bool) : (s.startFeedback c).chkRef = s.chkRef := rfl
@[simp] theorem State.startFeedback_crcPoly (c : Bool) : (s.startFeedback c).crcPoly = s.crcPoly := rfl
@[simp] theorem State.startFeedback_crcInit (c : Bool) : (s.startFeedback c).crcInit = s.crcInit := rfl
@[simp] theorem State.startFeedback_crcXorout (c : Bool) : (s.startFeedback c).crcXorout = s.crcXorout := rfl
@[simp] theorem State.startFeedback_crcCfg (c : Bool) : (s.startFeedback c).crcCfg = s.crcCfg := rfl
@[simp] theorem State.startFeedback_frameBase (c : Bool) : (s.startFeedback c).frameBase = s.frameBase := rfl
@[simp] theorem State.startFeedback_frameLen (c : Bool) : (s.startFeedback c).frameLen = s.frameLen := rfl
@[simp] theorem State.startFeedback_chunkCount (c : Bool) : (s.startFeedback c).chunkCount = s.chunkCount := rfl
@[simp] theorem State.startFeedback_chunkSel (c : Bool) : (s.startFeedback c).chunkSel = s.chunkSel := rfl
@[simp] theorem State.startFeedback_seq (c : Bool) : (s.startFeedback c).seq = s.seq := rfl
@[simp] theorem State.startFeedback_abortPend (c : Bool) : (s.startFeedback c).abortPend = s.abortPend := rfl
@[simp] theorem State.startFeedback_phase (c : Bool) : (s.startFeedback c).phase = s.phase := rfl
@[simp] theorem State.startFeedback_index (c : Bool) : (s.startFeedback c).index = s.index := rfl
@[simp] theorem State.startFeedback_count (c : Bool) : (s.startFeedback c).count = s.count := rfl
@[simp] theorem State.startFeedback_srcBase (c : Bool) : (s.startFeedback c).srcBase = s.srcBase := rfl
@[simp] theorem State.startFeedback_sum16 (c : Bool) : (s.startFeedback c).sum16 = s.sum16 := rfl
@[simp] theorem State.startFeedback_crc (c : Bool) : (s.startFeedback c).crc = s.crc := rfl
@[simp] theorem State.startFeedback_round (c : Bool) : (s.startFeedback c).round = s.round := rfl
@[simp] theorem State.startFeedback_roundSum (c : Bool) : (s.startFeedback c).roundSum = s.roundSum := rfl
@[simp] theorem State.startFeedback_latch (c : Bool) : (s.startFeedback c).latch = s.latch := rfl
@[simp] theorem State.startFeedback_buf (c : Bool) : (s.startFeedback c).buf = s.buf := rfl
@[simp] theorem State.startFeedback_epoch (c : Bool) : (s.startFeedback c).epoch = s.epoch := rfl
@[simp] theorem State.startFeedback_draws (c : Bool) : (s.startFeedback c).draws = s.draws := rfl
@[simp] theorem State.startFeedback_curSeen (c : Bool) : (s.startFeedback c).curSeen = s.curSeen := rfl
@[simp] theorem State.startFeedback_abortAt (c : Bool) : (s.startFeedback c).abortAt = s.abortAt := rfl
@[simp] theorem State.startFeedback_readData (c : Bool) : (s.startFeedback c).readData = s.readData := rfl
@[simp] theorem State.startFeedback_pending (c : Bool) : (s.startFeedback c).pending = s.pending := rfl

/-! ### ranXtea -/

@[simp] theorem State.ranXtea_params (x : Rounds) : (s.ranXtea x).params = s.params := rfl
@[simp] theorem State.ranXtea_cmd (x : Rounds) : (s.ranXtea x).cmd = s.cmd := rfl
@[simp] theorem State.ranXtea_done (x : Rounds) : (s.ranXtea x).done = s.done := rfl
@[simp] theorem State.ranXtea_frameValid (x : Rounds) : (s.ranXtea x).frameValid = s.frameValid := rfl
@[simp] theorem State.ranXtea_errCode (x : Rounds) : (s.ranXtea x).errCode = s.errCode := rfl
@[simp] theorem State.ranXtea_errInfo (x : Rounds) : (s.ranXtea x).errInfo = s.errInfo := rfl
@[simp] theorem State.ranXtea_cur (x : Rounds) : (s.ranXtea x).cur = s.cur := rfl
@[simp] theorem State.ranXtea_intStatus (x : Rounds) : (s.ranXtea x).intStatus = s.intStatus := rfl
@[simp] theorem State.ranXtea_intEnable (x : Rounds) : (s.ranXtea x).intEnable = s.intEnable := rfl
@[simp] theorem State.ranXtea_src (x : Rounds) : (s.ranXtea x).src = s.src := rfl
@[simp] theorem State.ranXtea_dst (x : Rounds) : (s.ranXtea x).dst = s.dst := rfl
@[simp] theorem State.ranXtea_len (x : Rounds) : (s.ranXtea x).len = s.len := rfl
@[simp] theorem State.ranXtea_key (x : Rounds) : (s.ranXtea x).key = s.key := rfl
@[simp] theorem State.ranXtea_fb (x : Rounds) : (s.ranXtea x).fb = s.fb := rfl
@[simp] theorem State.ranXtea_blk (x : Rounds) : (s.ranXtea x).blk = s.blk := rfl
@[simp] theorem State.ranXtea_chk (x : Rounds) : (s.ranXtea x).chk = s.chk := rfl
@[simp] theorem State.ranXtea_chkRef (x : Rounds) : (s.ranXtea x).chkRef = s.chkRef := rfl
@[simp] theorem State.ranXtea_crcPoly (x : Rounds) : (s.ranXtea x).crcPoly = s.crcPoly := rfl
@[simp] theorem State.ranXtea_crcInit (x : Rounds) : (s.ranXtea x).crcInit = s.crcInit := rfl
@[simp] theorem State.ranXtea_crcXorout (x : Rounds) : (s.ranXtea x).crcXorout = s.crcXorout := rfl
@[simp] theorem State.ranXtea_crcCfg (x : Rounds) : (s.ranXtea x).crcCfg = s.crcCfg := rfl
@[simp] theorem State.ranXtea_frameBase (x : Rounds) : (s.ranXtea x).frameBase = s.frameBase := rfl
@[simp] theorem State.ranXtea_frameLen (x : Rounds) : (s.ranXtea x).frameLen = s.frameLen := rfl
@[simp] theorem State.ranXtea_chunkCount (x : Rounds) : (s.ranXtea x).chunkCount = s.chunkCount := rfl
@[simp] theorem State.ranXtea_chunkSel (x : Rounds) : (s.ranXtea x).chunkSel = s.chunkSel := rfl
@[simp] theorem State.ranXtea_seq (x : Rounds) : (s.ranXtea x).seq = s.seq := rfl
@[simp] theorem State.ranXtea_abortPend (x : Rounds) : (s.ranXtea x).abortPend = s.abortPend := rfl
@[simp] theorem State.ranXtea_phase (x : Rounds) : (s.ranXtea x).phase = s.phase := rfl
@[simp] theorem State.ranXtea_index (x : Rounds) : (s.ranXtea x).index = s.index := rfl
@[simp] theorem State.ranXtea_count (x : Rounds) : (s.ranXtea x).count = s.count := rfl
@[simp] theorem State.ranXtea_srcBase (x : Rounds) : (s.ranXtea x).srcBase = s.srcBase := rfl
@[simp] theorem State.ranXtea_sum16 (x : Rounds) : (s.ranXtea x).sum16 = s.sum16 := rfl
@[simp] theorem State.ranXtea_crc (x : Rounds) : (s.ranXtea x).crc = s.crc := rfl
@[simp] theorem State.ranXtea_round (x : Rounds) : (s.ranXtea x).round = 31 := rfl
@[simp] theorem State.ranXtea_roundSum (x : Rounds) : (s.ranXtea x).roundSum = x.sum := rfl
@[simp] theorem State.ranXtea_latch (x : Rounds) : (s.ranXtea x).latch = s.latch := rfl
@[simp] theorem State.ranXtea_buf (x : Rounds) : (s.ranXtea x).buf = s.buf := rfl
@[simp] theorem State.ranXtea_epoch (x : Rounds) : (s.ranXtea x).epoch = s.epoch := rfl
@[simp] theorem State.ranXtea_draws (x : Rounds) : (s.ranXtea x).draws = s.draws := rfl
@[simp] theorem State.ranXtea_curSeen (x : Rounds) : (s.ranXtea x).curSeen = s.curSeen := rfl
@[simp] theorem State.ranXtea_abortAt (x : Rounds) : (s.ranXtea x).abortAt = s.abortAt := rfl
@[simp] theorem State.ranXtea_readData (x : Rounds) : (s.ranXtea x).readData = s.readData := rfl
@[simp] theorem State.ranXtea_pending (x : Rounds) : (s.ranXtea x).pending = s.pending := rfl

/-! ### chained -/

@[simp] theorem State.chained_params (x : Rounds) (w f : Block) : (s.chained x w f).params = s.params := rfl
@[simp] theorem State.chained_cmd (x : Rounds) (w f : Block) : (s.chained x w f).cmd = s.cmd := rfl
@[simp] theorem State.chained_done (x : Rounds) (w f : Block) : (s.chained x w f).done = s.done := rfl
@[simp] theorem State.chained_frameValid (x : Rounds) (w f : Block) :
    (s.chained x w f).frameValid = s.frameValid := rfl
@[simp] theorem State.chained_errCode (x : Rounds) (w f : Block) :
    (s.chained x w f).errCode = s.errCode := rfl
@[simp] theorem State.chained_errInfo (x : Rounds) (w f : Block) :
    (s.chained x w f).errInfo = s.errInfo := rfl
@[simp] theorem State.chained_cur (x : Rounds) (w f : Block) : (s.chained x w f).cur = s.cur := rfl
@[simp] theorem State.chained_intStatus (x : Rounds) (w f : Block) :
    (s.chained x w f).intStatus = s.intStatus := rfl
@[simp] theorem State.chained_intEnable (x : Rounds) (w f : Block) :
    (s.chained x w f).intEnable = s.intEnable := rfl
@[simp] theorem State.chained_src (x : Rounds) (w f : Block) : (s.chained x w f).src = s.src := rfl
@[simp] theorem State.chained_dst (x : Rounds) (w f : Block) : (s.chained x w f).dst = s.dst := rfl
@[simp] theorem State.chained_len (x : Rounds) (w f : Block) : (s.chained x w f).len = s.len := rfl
@[simp] theorem State.chained_key (x : Rounds) (w f : Block) : (s.chained x w f).key = s.key := rfl
@[simp] theorem State.chained_fb (x : Rounds) (w f : Block) : (s.chained x w f).fb = f := rfl
@[simp] theorem State.chained_blk (x : Rounds) (w f : Block) : (s.chained x w f).blk = s.blk := rfl
@[simp] theorem State.chained_chk (x : Rounds) (w f : Block) : (s.chained x w f).chk = s.chk := rfl
@[simp] theorem State.chained_chkRef (x : Rounds) (w f : Block) : (s.chained x w f).chkRef = s.chkRef := rfl
@[simp] theorem State.chained_crcPoly (x : Rounds) (w f : Block) :
    (s.chained x w f).crcPoly = s.crcPoly := rfl
@[simp] theorem State.chained_crcInit (x : Rounds) (w f : Block) :
    (s.chained x w f).crcInit = s.crcInit := rfl
@[simp] theorem State.chained_crcXorout (x : Rounds) (w f : Block) :
    (s.chained x w f).crcXorout = s.crcXorout := rfl
@[simp] theorem State.chained_crcCfg (x : Rounds) (w f : Block) : (s.chained x w f).crcCfg = s.crcCfg := rfl
@[simp] theorem State.chained_frameBase (x : Rounds) (w f : Block) :
    (s.chained x w f).frameBase = s.frameBase := rfl
@[simp] theorem State.chained_frameLen (x : Rounds) (w f : Block) :
    (s.chained x w f).frameLen = s.frameLen := rfl
@[simp] theorem State.chained_chunkCount (x : Rounds) (w f : Block) :
    (s.chained x w f).chunkCount = s.chunkCount := rfl
@[simp] theorem State.chained_chunkSel (x : Rounds) (w f : Block) :
    (s.chained x w f).chunkSel = s.chunkSel := rfl
@[simp] theorem State.chained_seq (x : Rounds) (w f : Block) : (s.chained x w f).seq = s.seq := rfl
@[simp] theorem State.chained_abortPend (x : Rounds) (w f : Block) :
    (s.chained x w f).abortPend = s.abortPend := rfl
@[simp] theorem State.chained_phase (x : Rounds) (w f : Block) : (s.chained x w f).phase = s.phase := rfl
@[simp] theorem State.chained_index (x : Rounds) (w f : Block) : (s.chained x w f).index = s.index := rfl
@[simp] theorem State.chained_count (x : Rounds) (w f : Block) : (s.chained x w f).count = s.count := rfl
@[simp] theorem State.chained_srcBase (x : Rounds) (w f : Block) :
    (s.chained x w f).srcBase = s.srcBase := rfl
@[simp] theorem State.chained_sum16 (x : Rounds) (w f : Block) : (s.chained x w f).sum16 = s.sum16 := rfl
@[simp] theorem State.chained_crc (x : Rounds) (w f : Block) : (s.chained x w f).crc = s.crc := rfl
@[simp] theorem State.chained_round (x : Rounds) (w f : Block) : (s.chained x w f).round = 31 := rfl
@[simp] theorem State.chained_roundSum (x : Rounds) (w f : Block) : (s.chained x w f).roundSum = x.sum := rfl
@[simp] theorem State.chained_latch (x : Rounds) (w f : Block) : (s.chained x w f).latch = w := rfl
@[simp] theorem State.chained_buf (x : Rounds) (w f : Block) : (s.chained x w f).buf = s.buf := rfl
@[simp] theorem State.chained_epoch (x : Rounds) (w f : Block) : (s.chained x w f).epoch = s.epoch := rfl
@[simp] theorem State.chained_draws (x : Rounds) (w f : Block) : (s.chained x w f).draws = s.draws := rfl
@[simp] theorem State.chained_curSeen (x : Rounds) (w f : Block) :
    (s.chained x w f).curSeen = s.curSeen := rfl
@[simp] theorem State.chained_abortAt (x : Rounds) (w f : Block) :
    (s.chained x w f).abortAt = s.abortAt := rfl
@[simp] theorem State.chained_readData (x : Rounds) (w f : Block) :
    (s.chained x w f).readData = s.readData := rfl
@[simp] theorem State.chained_pending (x : Rounds) (w f : Block) :
    (s.chained x w f).pending = s.pending := rfl

/-! ### beginSum -/

@[simp] theorem State.beginSum_params (n : Nat) : (s.beginSum n).params = s.params := rfl
@[simp] theorem State.beginSum_cmd (n : Nat) : (s.beginSum n).cmd = s.cmd := rfl
@[simp] theorem State.beginSum_done (n : Nat) : (s.beginSum n).done = s.done := rfl
@[simp] theorem State.beginSum_frameValid (n : Nat) : (s.beginSum n).frameValid = s.frameValid := rfl
@[simp] theorem State.beginSum_errCode (n : Nat) : (s.beginSum n).errCode = s.errCode := rfl
@[simp] theorem State.beginSum_errInfo (n : Nat) : (s.beginSum n).errInfo = s.errInfo := rfl
@[simp] theorem State.beginSum_cur (n : Nat) : (s.beginSum n).cur = s.cur := rfl
@[simp] theorem State.beginSum_intStatus (n : Nat) : (s.beginSum n).intStatus = s.intStatus := rfl
@[simp] theorem State.beginSum_intEnable (n : Nat) : (s.beginSum n).intEnable = s.intEnable := rfl
@[simp] theorem State.beginSum_src (n : Nat) : (s.beginSum n).src = s.src := rfl
@[simp] theorem State.beginSum_dst (n : Nat) : (s.beginSum n).dst = s.dst := rfl
@[simp] theorem State.beginSum_len (n : Nat) : (s.beginSum n).len = s.len := rfl
@[simp] theorem State.beginSum_key (n : Nat) : (s.beginSum n).key = s.key := rfl
@[simp] theorem State.beginSum_fb (n : Nat) : (s.beginSum n).fb = s.fb := rfl
@[simp] theorem State.beginSum_blk (n : Nat) : (s.beginSum n).blk = s.blk := rfl
@[simp] theorem State.beginSum_chk (n : Nat) : (s.beginSum n).chk = s.chk := rfl
@[simp] theorem State.beginSum_chkRef (n : Nat) : (s.beginSum n).chkRef = s.chkRef := rfl
@[simp] theorem State.beginSum_crcPoly (n : Nat) : (s.beginSum n).crcPoly = s.crcPoly := rfl
@[simp] theorem State.beginSum_crcInit (n : Nat) : (s.beginSum n).crcInit = s.crcInit := rfl
@[simp] theorem State.beginSum_crcXorout (n : Nat) : (s.beginSum n).crcXorout = s.crcXorout := rfl
@[simp] theorem State.beginSum_crcCfg (n : Nat) : (s.beginSum n).crcCfg = s.crcCfg := rfl
@[simp] theorem State.beginSum_frameBase (n : Nat) : (s.beginSum n).frameBase = s.frameBase := rfl
@[simp] theorem State.beginSum_frameLen (n : Nat) : (s.beginSum n).frameLen = s.frameLen := rfl
@[simp] theorem State.beginSum_chunkCount (n : Nat) : (s.beginSum n).chunkCount = s.chunkCount := rfl
@[simp] theorem State.beginSum_chunkSel (n : Nat) : (s.beginSum n).chunkSel = s.chunkSel := rfl
@[simp] theorem State.beginSum_seq (n : Nat) : (s.beginSum n).seq = s.seq := rfl
@[simp] theorem State.beginSum_abortPend (n : Nat) : (s.beginSum n).abortPend = s.abortPend := rfl
@[simp] theorem State.beginSum_phase (n : Nat) : (s.beginSum n).phase = .loop := rfl
@[simp] theorem State.beginSum_index (n : Nat) : (s.beginSum n).index = 0 := rfl
@[simp] theorem State.beginSum_count (n : Nat) : (s.beginSum n).count = n := rfl
@[simp] theorem State.beginSum_srcBase (n : Nat) : (s.beginSum n).srcBase = s.src.toNat := rfl
@[simp] theorem State.beginSum_sum16 (n : Nat) : (s.beginSum n).sum16 = 0 := rfl
@[simp] theorem State.beginSum_crc (n : Nat) : (s.beginSum n).crc = s.crc := rfl
@[simp] theorem State.beginSum_round (n : Nat) : (s.beginSum n).round = s.round := rfl
@[simp] theorem State.beginSum_roundSum (n : Nat) : (s.beginSum n).roundSum = s.roundSum := rfl
@[simp] theorem State.beginSum_latch (n : Nat) : (s.beginSum n).latch = s.latch := rfl
@[simp] theorem State.beginSum_buf (n : Nat) : (s.beginSum n).buf = s.buf := rfl
@[simp] theorem State.beginSum_epoch (n : Nat) : (s.beginSum n).epoch = s.epoch := rfl
@[simp] theorem State.beginSum_draws (n : Nat) : (s.beginSum n).draws = s.draws := rfl
@[simp] theorem State.beginSum_curSeen (n : Nat) : (s.beginSum n).curSeen = s.curSeen := rfl
@[simp] theorem State.beginSum_abortAt (n : Nat) : (s.beginSum n).abortAt = s.abortAt := rfl
@[simp] theorem State.beginSum_readData (n : Nat) : (s.beginSum n).readData = s.readData := rfl
@[simp] theorem State.beginSum_pending (n : Nat) : (s.beginSum n).pending = s.pending := rfl

/-! ### summedFrame -/

@[simp] theorem State.summedFrame_params (h : Half) : (s.summedFrame h).params = s.params := rfl
@[simp] theorem State.summedFrame_cmd (h : Half) : (s.summedFrame h).cmd = s.cmd := rfl
@[simp] theorem State.summedFrame_done (h : Half) : (s.summedFrame h).done = s.done := rfl
@[simp] theorem State.summedFrame_frameValid (h : Half) : (s.summedFrame h).frameValid = s.frameValid := rfl
@[simp] theorem State.summedFrame_errCode (h : Half) : (s.summedFrame h).errCode = s.errCode := rfl
@[simp] theorem State.summedFrame_errInfo (h : Half) : (s.summedFrame h).errInfo = s.errInfo := rfl
@[simp] theorem State.summedFrame_cur (h : Half) : (s.summedFrame h).cur = s.len := rfl
@[simp] theorem State.summedFrame_intStatus (h : Half) : (s.summedFrame h).intStatus = s.intStatus := rfl
@[simp] theorem State.summedFrame_intEnable (h : Half) : (s.summedFrame h).intEnable = s.intEnable := rfl
@[simp] theorem State.summedFrame_src (h : Half) : (s.summedFrame h).src = s.src := rfl
@[simp] theorem State.summedFrame_dst (h : Half) : (s.summedFrame h).dst = s.dst := rfl
@[simp] theorem State.summedFrame_len (h : Half) : (s.summedFrame h).len = s.len := rfl
@[simp] theorem State.summedFrame_key (h : Half) : (s.summedFrame h).key = s.key := rfl
@[simp] theorem State.summedFrame_fb (h : Half) : (s.summedFrame h).fb = s.fb := rfl
@[simp] theorem State.summedFrame_blk (h : Half) : (s.summedFrame h).blk = s.blk := rfl
@[simp] theorem State.summedFrame_chk (h : Half) : (s.summedFrame h).chk = s.sum16.setWidth 32 := rfl
@[simp] theorem State.summedFrame_chkRef (h : Half) : (s.summedFrame h).chkRef = h := rfl
@[simp] theorem State.summedFrame_crcPoly (h : Half) : (s.summedFrame h).crcPoly = s.crcPoly := rfl
@[simp] theorem State.summedFrame_crcInit (h : Half) : (s.summedFrame h).crcInit = s.crcInit := rfl
@[simp] theorem State.summedFrame_crcXorout (h : Half) : (s.summedFrame h).crcXorout = s.crcXorout := rfl
@[simp] theorem State.summedFrame_crcCfg (h : Half) : (s.summedFrame h).crcCfg = s.crcCfg := rfl
@[simp] theorem State.summedFrame_frameBase (h : Half) : (s.summedFrame h).frameBase = s.frameBase := rfl
@[simp] theorem State.summedFrame_frameLen (h : Half) : (s.summedFrame h).frameLen = s.frameLen := rfl
@[simp] theorem State.summedFrame_chunkCount (h : Half) : (s.summedFrame h).chunkCount = s.chunkCount := rfl
@[simp] theorem State.summedFrame_chunkSel (h : Half) : (s.summedFrame h).chunkSel = s.chunkSel := rfl
@[simp] theorem State.summedFrame_seq (h : Half) : (s.summedFrame h).seq = s.seq := rfl
@[simp] theorem State.summedFrame_abortPend (h : Half) : (s.summedFrame h).abortPend = s.abortPend := rfl
@[simp] theorem State.summedFrame_phase (h : Half) : (s.summedFrame h).phase = s.phase := rfl
@[simp] theorem State.summedFrame_index (h : Half) : (s.summedFrame h).index = s.index := rfl
@[simp] theorem State.summedFrame_count (h : Half) : (s.summedFrame h).count = s.count := rfl
@[simp] theorem State.summedFrame_srcBase (h : Half) : (s.summedFrame h).srcBase = s.srcBase := rfl
@[simp] theorem State.summedFrame_sum16 (h : Half) : (s.summedFrame h).sum16 = s.sum16 := rfl
@[simp] theorem State.summedFrame_crc (h : Half) : (s.summedFrame h).crc = s.crc := rfl
@[simp] theorem State.summedFrame_round (h : Half) : (s.summedFrame h).round = s.round := rfl
@[simp] theorem State.summedFrame_roundSum (h : Half) : (s.summedFrame h).roundSum = s.roundSum := rfl
@[simp] theorem State.summedFrame_latch (h : Half) : (s.summedFrame h).latch = s.latch := rfl
@[simp] theorem State.summedFrame_buf (h : Half) : (s.summedFrame h).buf = s.buf := rfl
@[simp] theorem State.summedFrame_epoch (h : Half) : (s.summedFrame h).epoch = s.epoch := rfl
@[simp] theorem State.summedFrame_draws (h : Half) : (s.summedFrame h).draws = s.draws := rfl
@[simp] theorem State.summedFrame_curSeen (h : Half) : (s.summedFrame h).curSeen = s.curSeen := rfl
@[simp] theorem State.summedFrame_abortAt (h : Half) : (s.summedFrame h).abortAt = s.abortAt := rfl
@[simp] theorem State.summedFrame_readData (h : Half) : (s.summedFrame h).readData = s.readData := rfl
@[simp] theorem State.summedFrame_pending (h : Half) : (s.summedFrame h).pending = s.pending := rfl

/-! ### recordFrame -/

@[simp] theorem State.recordFrame_params (c : Half) : (s.recordFrame c).params = s.params := rfl
@[simp] theorem State.recordFrame_cmd (c : Half) : (s.recordFrame c).cmd = s.cmd := rfl
@[simp] theorem State.recordFrame_done (c : Half) : (s.recordFrame c).done = s.done := rfl
@[simp] theorem State.recordFrame_frameValid (c : Half) : (s.recordFrame c).frameValid = true := rfl
@[simp] theorem State.recordFrame_errCode (c : Half) : (s.recordFrame c).errCode = s.errCode := rfl
@[simp] theorem State.recordFrame_errInfo (c : Half) : (s.recordFrame c).errInfo = s.errInfo := rfl
@[simp] theorem State.recordFrame_cur (c : Half) : (s.recordFrame c).cur = s.cur := rfl
@[simp] theorem State.recordFrame_intStatus (c : Half) : (s.recordFrame c).intStatus = s.intStatus := rfl
@[simp] theorem State.recordFrame_intEnable (c : Half) : (s.recordFrame c).intEnable = s.intEnable := rfl
@[simp] theorem State.recordFrame_src (c : Half) : (s.recordFrame c).src = s.src := rfl
@[simp] theorem State.recordFrame_dst (c : Half) : (s.recordFrame c).dst = s.dst := rfl
@[simp] theorem State.recordFrame_len (c : Half) : (s.recordFrame c).len = s.len := rfl
@[simp] theorem State.recordFrame_key (c : Half) : (s.recordFrame c).key = s.key := rfl
@[simp] theorem State.recordFrame_fb (c : Half) : (s.recordFrame c).fb = s.fb := rfl
@[simp] theorem State.recordFrame_blk (c : Half) : (s.recordFrame c).blk = s.blk := rfl
@[simp] theorem State.recordFrame_chk (c : Half) : (s.recordFrame c).chk = s.chk := rfl
@[simp] theorem State.recordFrame_chkRef (c : Half) : (s.recordFrame c).chkRef = s.chkRef := rfl
@[simp] theorem State.recordFrame_crcPoly (c : Half) : (s.recordFrame c).crcPoly = s.crcPoly := rfl
@[simp] theorem State.recordFrame_crcInit (c : Half) : (s.recordFrame c).crcInit = s.crcInit := rfl
@[simp] theorem State.recordFrame_crcXorout (c : Half) : (s.recordFrame c).crcXorout = s.crcXorout := rfl
@[simp] theorem State.recordFrame_crcCfg (c : Half) : (s.recordFrame c).crcCfg = s.crcCfg := rfl
@[simp] theorem State.recordFrame_frameBase (c : Half) : (s.recordFrame c).frameBase = s.src := rfl
@[simp] theorem State.recordFrame_frameLen (c : Half) : (s.recordFrame c).frameLen = s.len := rfl
@[simp] theorem State.recordFrame_chunkCount (c : Half) : (s.recordFrame c).chunkCount = c := rfl
@[simp] theorem State.recordFrame_chunkSel (c : Half) : (s.recordFrame c).chunkSel = s.chunkSel := rfl
@[simp] theorem State.recordFrame_seq (c : Half) : (s.recordFrame c).seq = s.seq := rfl
@[simp] theorem State.recordFrame_abortPend (c : Half) : (s.recordFrame c).abortPend = s.abortPend := rfl
@[simp] theorem State.recordFrame_phase (c : Half) : (s.recordFrame c).phase = s.phase := rfl
@[simp] theorem State.recordFrame_index (c : Half) : (s.recordFrame c).index = s.index := rfl
@[simp] theorem State.recordFrame_count (c : Half) : (s.recordFrame c).count = s.count := rfl
@[simp] theorem State.recordFrame_srcBase (c : Half) : (s.recordFrame c).srcBase = s.srcBase := rfl
@[simp] theorem State.recordFrame_sum16 (c : Half) : (s.recordFrame c).sum16 = s.sum16 := rfl
@[simp] theorem State.recordFrame_crc (c : Half) : (s.recordFrame c).crc = s.crc := rfl
@[simp] theorem State.recordFrame_round (c : Half) : (s.recordFrame c).round = s.round := rfl
@[simp] theorem State.recordFrame_roundSum (c : Half) : (s.recordFrame c).roundSum = s.roundSum := rfl
@[simp] theorem State.recordFrame_latch (c : Half) : (s.recordFrame c).latch = s.latch := rfl
@[simp] theorem State.recordFrame_buf (c : Half) : (s.recordFrame c).buf = s.buf := rfl
@[simp] theorem State.recordFrame_epoch (c : Half) : (s.recordFrame c).epoch = s.epoch := rfl
@[simp] theorem State.recordFrame_draws (c : Half) : (s.recordFrame c).draws = s.draws := rfl
@[simp] theorem State.recordFrame_curSeen (c : Half) : (s.recordFrame c).curSeen = s.curSeen := rfl
@[simp] theorem State.recordFrame_abortAt (c : Half) : (s.recordFrame c).abortAt = s.abortAt := rfl
@[simp] theorem State.recordFrame_readData (c : Half) : (s.recordFrame c).readData = s.readData := rfl
@[simp] theorem State.recordFrame_pending (c : Half) : (s.recordFrame c).pending = s.pending := rfl

/-! ### answer -/

@[simp] theorem State.answer_params (v : Word) : (s.answer v).params = s.params := rfl
@[simp] theorem State.answer_cmd (v : Word) : (s.answer v).cmd = s.cmd := rfl
@[simp] theorem State.answer_done (v : Word) : (s.answer v).done = s.done := rfl
@[simp] theorem State.answer_frameValid (v : Word) : (s.answer v).frameValid = s.frameValid := rfl
@[simp] theorem State.answer_errCode (v : Word) : (s.answer v).errCode = s.errCode := rfl
@[simp] theorem State.answer_errInfo (v : Word) : (s.answer v).errInfo = s.errInfo := rfl
@[simp] theorem State.answer_cur (v : Word) : (s.answer v).cur = s.cur := rfl
@[simp] theorem State.answer_intStatus (v : Word) : (s.answer v).intStatus = s.intStatus := rfl
@[simp] theorem State.answer_intEnable (v : Word) : (s.answer v).intEnable = s.intEnable := rfl
@[simp] theorem State.answer_src (v : Word) : (s.answer v).src = s.src := rfl
@[simp] theorem State.answer_dst (v : Word) : (s.answer v).dst = s.dst := rfl
@[simp] theorem State.answer_len (v : Word) : (s.answer v).len = s.len := rfl
@[simp] theorem State.answer_key (v : Word) : (s.answer v).key = s.key := rfl
@[simp] theorem State.answer_fb (v : Word) : (s.answer v).fb = s.fb := rfl
@[simp] theorem State.answer_blk (v : Word) : (s.answer v).blk = s.blk := rfl
@[simp] theorem State.answer_chk (v : Word) : (s.answer v).chk = s.chk := rfl
@[simp] theorem State.answer_chkRef (v : Word) : (s.answer v).chkRef = s.chkRef := rfl
@[simp] theorem State.answer_crcPoly (v : Word) : (s.answer v).crcPoly = s.crcPoly := rfl
@[simp] theorem State.answer_crcInit (v : Word) : (s.answer v).crcInit = s.crcInit := rfl
@[simp] theorem State.answer_crcXorout (v : Word) : (s.answer v).crcXorout = s.crcXorout := rfl
@[simp] theorem State.answer_crcCfg (v : Word) : (s.answer v).crcCfg = s.crcCfg := rfl
@[simp] theorem State.answer_frameBase (v : Word) : (s.answer v).frameBase = s.frameBase := rfl
@[simp] theorem State.answer_frameLen (v : Word) : (s.answer v).frameLen = s.frameLen := rfl
@[simp] theorem State.answer_chunkCount (v : Word) : (s.answer v).chunkCount = s.chunkCount := rfl
@[simp] theorem State.answer_chunkSel (v : Word) : (s.answer v).chunkSel = s.chunkSel := rfl
@[simp] theorem State.answer_seq (v : Word) : (s.answer v).seq = s.seq := rfl
@[simp] theorem State.answer_abortPend (v : Word) : (s.answer v).abortPend = s.abortPend := rfl
@[simp] theorem State.answer_phase (v : Word) : (s.answer v).phase = s.phase := rfl
@[simp] theorem State.answer_index (v : Word) : (s.answer v).index = s.index := rfl
@[simp] theorem State.answer_count (v : Word) : (s.answer v).count = s.count := rfl
@[simp] theorem State.answer_srcBase (v : Word) : (s.answer v).srcBase = s.srcBase := rfl
@[simp] theorem State.answer_sum16 (v : Word) : (s.answer v).sum16 = s.sum16 := rfl
@[simp] theorem State.answer_crc (v : Word) : (s.answer v).crc = s.crc := rfl
@[simp] theorem State.answer_round (v : Word) : (s.answer v).round = s.round := rfl
@[simp] theorem State.answer_roundSum (v : Word) : (s.answer v).roundSum = s.roundSum := rfl
@[simp] theorem State.answer_latch (v : Word) : (s.answer v).latch = s.latch := rfl
@[simp] theorem State.answer_buf (v : Word) : (s.answer v).buf = s.buf := rfl
@[simp] theorem State.answer_epoch (v : Word) : (s.answer v).epoch = s.epoch := rfl
@[simp] theorem State.answer_draws (v : Word) : (s.answer v).draws = s.draws := rfl
@[simp] theorem State.answer_curSeen (v : Word) : (s.answer v).curSeen = s.curSeen := rfl
@[simp] theorem State.answer_abortAt (v : Word) : (s.answer v).abortAt = s.abortAt := rfl
@[simp] theorem State.answer_readData (v : Word) : (s.answer v).readData = v := rfl
@[simp] theorem State.answer_pending (v : Word) : (s.answer v).pending = s.pending := rfl

end Sys2Proof.Machine
end

