-- ==== Sys2Proof/Laws/Ops.lean ====
section
/-! SUPPORT. For each shared operation, what it answers: with which next state, when, and nothing else. -/

namespace Sys2Proof.Machine

/-! ### Results -/

@[simp] theorem andThen_next {α β : Type} (a : α) (f : α → Result β) : andThen (.next a) f = f a := rfl

@[simp] theorem andThen_fault {α β : Type} (r : Fault) (f : α → Result β) :
    andThen (.fault r : Result α) f = .fault r := rfl

@[simp] theorem andThen_refused {α β : Type} (r : Refusal) (f : α → Result β) :
    andThen (.refused r : Result α) f = .refused r := rfl

/-- A sequence answers a next value exactly when both parts do. -/
theorem andThen_eq_next {α β : Type} {x : Result α} {f : α → Result β} {b : β} :
    andThen x f = .next b ↔ ∃ a, x = .next a ∧ f a = .next b := by
  cases x <;> simp [andThen]

/-! ### Reads -/

theorem memRead8_inside {s : State} {a : Nat} (h : a + 1 ≤ s.params.bufSize) :
    memRead8 s a = .next (byteAt s a) := if_pos h

theorem memRead16_inside {s : State} {a : Nat} (h : a + 2 ≤ s.params.bufSize) :
    memRead16 s a = .next (halfAt s a) := if_pos h

theorem memRead32_inside {s : State} {a : Nat} (h : a + 4 ≤ s.params.bufSize) :
    memRead32 s a = .next (wordAt s a) := if_pos h

theorem memRead8_eq_next {s : State} {a : Nat} {b : Byte} :
    memRead8 s a = .next b ↔ a + 1 ≤ s.params.bufSize ∧ b = byteAt s a := by
  unfold memRead8; split <;> simp_all [eq_comm]

theorem memRead16_eq_next {s : State} {a : Nat} {b : Half} :
    memRead16 s a = .next b ↔ a + 2 ≤ s.params.bufSize ∧ b = halfAt s a := by
  unfold memRead16; split <;> simp_all [eq_comm]

theorem memRead32_eq_next {s : State} {a : Nat} {w : Word} :
    memRead32 s a = .next w ↔ a + 4 ≤ s.params.bufSize ∧ w = wordAt s a := by
  unfold memRead32; split <;> simp_all [eq_comm]

theorem rdBlock_inside {s : State} {a : Nat} {swap : Bool} (h : a + 8 ≤ s.params.bufSize) :
    rdBlock s a swap = .next (blockAt s a swap) := by
  simp [rdBlock, rdWord, blockAt, memRead32_inside (show a + 4 ≤ s.params.bufSize by omega),
    memRead32_inside (show a + 4 + 4 ≤ s.params.bufSize by omega)]

theorem rdBlock_eq_next {s : State} {a : Nat} {swap : Bool} {b : Block} :
    rdBlock s a swap = .next b ↔ a + 8 ≤ s.params.bufSize ∧ b = blockAt s a swap := by
  by_cases h : a + 8 ≤ s.params.bufSize
  · simp [rdBlock_inside h, h, eq_comm]
  · simp only [h, false_and, iff_false]
    intro hb
    simp only [rdBlock, rdWord, andThen_eq_next, memRead32_eq_next] at hb
    obtain ⟨_, ⟨_, ⟨_, _⟩, _⟩, _, ⟨_, ⟨h2, _⟩, _⟩, _⟩ := hb
    omega

/-! ### Writes -/

theorem memWrite_inside {s : State} {a : Nat} {bs : List Byte} (h : a + bs.length ≤ s.params.bufSize) :
    memWrite s a bs = .next (s.storeBytes a bs) := if_pos h

theorem memWrite_eq_next {s t : State} {a : Nat} {bs : List Byte} :
    memWrite s a bs = .next t ↔ a + bs.length ≤ s.params.bufSize ∧ t = s.storeBytes a bs := by
  unfold memWrite; split <;> simp_all [eq_comm]

theorem memPut_append (m : List Host.Cell) (a : Nat) (xs ys : List Byte) :
    memPut m a (xs ++ ys) = memPut (memPut m a xs) (a + xs.length) ys := by
  induction xs generalizing m a with
  | nil => rfl
  | cons x xs ih =>
    simp only [List.cons_append, memPut, ih, List.length_cons]
    rw [show a + 1 + xs.length = a + (xs.length + 1) by omega]

theorem wrBlock_inside {s : State} {a : Nat} {b : Block} {swap : Bool} (h : a + 8 ≤ s.params.bufSize) :
    wrBlock s a b swap = .next (s.storeBytes a (bytesOfBlock b swap)) := by
  unfold wrBlock wrWord
  rw [memWrite_inside (by simp; omega), andThen_next, memWrite_inside (by simp; omega)]
  simp [State.storeBytes, bytesOfBlock, memPut_append]

theorem wrBlock_eq_next {s t : State} {a : Nat} {b : Block} {swap : Bool} :
    wrBlock s a b swap = .next t ↔
      a + 8 ≤ s.params.bufSize ∧ t = s.storeBytes a (bytesOfBlock b swap) := by
  by_cases h : a + 8 ≤ s.params.bufSize
  · simp [wrBlock_inside h, h, eq_comm]
  · simp only [h, false_and, iff_false]
    intro hb
    simp only [wrBlock, wrWord, andThen_eq_next, memWrite_eq_next] at hb
    obtain ⟨u, ⟨h1, rfl⟩, h2, _⟩ := hb
    simp only [bytesOfWord_length, State.storeBytes_params] at h1 h2
    omega

/-- A stored block reads back in the same byte order (R10, R86). -/
theorem blockAt_storeBytes (s : State) (a : Nat) (b : Block) (swap : Bool) :
    blockAt (s.storeBytes a (bytesOfBlock b swap)) a swap = b := by
  have e : s.storeBytes a (bytesOfBlock b swap) = (s.storeBytes a (bytesOfWord (orderWord swap b.v0) 4)).storeBytes
      (a + 4) (bytesOfWord (orderWord swap b.v1) 4) := by
    simp [State.storeBytes, bytesOfBlock, memPut_append]
  have h1 : wordAt (s.storeBytes a (bytesOfBlock b swap)) (a + 4) = orderWord swap b.v1 := by
    rw [e, wordAt_storeBytes]
  have h0 : wordAt (s.storeBytes a (bytesOfBlock b swap)) a = orderWord swap b.v0 := by
    rw [e]
    refine (wordAt_congr (a := a) fun i hi => ?_).trans (wordAt_storeBytes s a (orderWord swap b.v0))
    exact byteAt_storeBytes_outside _ _ (Or.inl (by omega))
  simp [blockAt, h0, h1, orderWord_orderWord]

/-- Blocks that agree byte by byte are equal. -/
theorem blockAt_congr {s t : State} {a b : Nat} {swap : Bool}
    (h : ∀ i, i < 8 → byteAt t (b + i) = byteAt s (a + i)) : blockAt t b swap = blockAt s a swap := by
  have h0 : wordAt t b = wordAt s a := wordAt_congr fun i hi => h i (by omega)
  have h1 : wordAt t (b + 4) = wordAt s (a + 4) := wordAt_congr fun i hi => by
    rw [Nat.add_assoc, Nat.add_assoc]; exact h (4 + i) (by omega)
  simp [blockAt, h0, h1]

/-- The eight bytes of a block at an address are determined by the block. -/
theorem byteAt_of_blockAt {s t : State} {a b : Nat} {swap : Bool} (h : blockAt t b swap = blockAt s a swap)
    (i : Nat) (hi : i < 8) : byteAt t (b + i) = byteAt s (a + i) := by
  simp only [blockAt, Block.mk.injEq] at h
  have h0 : wordAt t b = wordAt s a := by
    rw [← orderWord_orderWord swap (wordAt t b), h.1, orderWord_orderWord]
  have h1 : wordAt t (b + 4) = wordAt s (a + 4) := by
    rw [← orderWord_orderWord swap (wordAt t (b + 4)), h.2, orderWord_orderWord]
  by_cases hc : i < 4
  · rw [byteAt_of_wordAt h0 i hc, byteAt_of_wordAt rfl i hc]
  · have := byteAt_of_wordAt h1 (i - 4) (by omega)
    have h2 := byteAt_of_wordAt (s := s) (a := a + 4) rfl (i - 4) (by omega)
    rw [show a + 4 + (i - 4) = a + i by omega] at h2
    rw [show b + 4 + (i - 4) = b + i by omega] at this
    rw [this, h2]

/-! ### Ranges -/

theorem meets_eq_true {a n b m : Nat} : meets a n b m = true ↔ 0 < n ∧ 0 < m ∧ a < b + m ∧ b < a + n := by
  simp [meets, and_assoc]

theorem meets_eq_false {a n b m : Nat} :
    meets a n b m = false ↔ n = 0 ∨ m = 0 ∨ b + m ≤ a ∨ a + n ≤ b := by
  rw [← Bool.not_eq_true, meets_eq_true]; omega

/-- Two ranges meet exactly when they share a byte (R10). -/
theorem meets_iff_shared {a n b m : Nat} :
    meets a n b m = true ↔ ∃ x, a ≤ x ∧ x < a + n ∧ b ≤ x ∧ x < b + m := by
  rw [meets_eq_true]
  constructor
  · intro h
    exact ⟨max a b, by omega, by omega, by omega, by omega⟩
  · rintro ⟨x, h⟩
    omega

theorem pastBuf_eq_false {s : State} {a n : Nat} : pastBuf s a n = false ↔ a + n ≤ s.params.bufSize := by
  simp [pastBuf]

/-! ### The steps of a command -/

/-- Without a pending abort none is due. -/
theorem abortDue_eq_false {s : State} (h : s.abortPend = false) : abortDue s = false := by simp [abortDue, h]

/-- An abort is due exactly when it is pending and its element is reached. -/
theorem abortDue_eq_true {s : State} : abortDue s = true ↔ s.abortPend = true ∧ s.abortAt ≤ s.index := by
  simp [abortDue]

theorem loopStep_more {body last : State → Result State} {s : State} (h : s.index < s.count)
    (ha : abortDue s = false) : loopStep body last s = body s := by
  simp [loopStep, abortPoint, h, ha]

theorem loopStep_abort {body last : State → Result State} {s : State} (h : s.index < s.count)
    (ha : abortDue s = true) : loopStep body last s = .next (s.raiseError .aborted s.cur) := by
  simp [loopStep, abortPoint, h, ha, State.raiseError]

theorem loopStep_last {body last : State → Result State} {s : State} (h : ¬ s.index < s.count) :
    loopStep body last s = last s := by
  simp [loopStep, h]

/-- What a step of a loop can do: take an abort that is due, process one element, or end the command. -/
theorem loopStep_eq_next {body last : State → Result State} {s t : State} :
    loopStep body last s = .next t ↔
      (s.index < s.count ∧ abortDue s = true ∧ t = s.raiseError .aborted s.cur) ∨
      (s.index < s.count ∧ abortDue s = false ∧ body s = .next t) ∨
      (¬ s.index < s.count ∧ last s = .next t) := by
  by_cases h : s.index < s.count
  · cases ha : abortDue s
    · simp [loopStep_more h ha, h]
    · simp [loopStep_abort h ha, h, eq_comm]
  · simp [loopStep_last h, h]

theorem commandStep_loop {checks : State → Result CheckResult} {start : State → State}
    {body last : State → Result State} {s : State} (h : s.phase = .loop) :
    commandStep checks start body last s = loopStep body last s := by
  simp [commandStep, h]

theorem commandStep_failed {checks : State → Result CheckResult} {start : State → State}
    {body last : State → Result State} {s : State} {e : CmdError} {info : Word} (h : s.phase = .check)
    (hc : checks s = .next (some (e, info))) :
    commandStep checks start body last s = .next (s.raiseError e info) := by
  simp [commandStep, h, hc]

theorem commandStep_passed {checks : State → Result CheckResult} {start : State → State}
    {body last : State → Result State} {s : State} (h : s.phase = .check) (hc : checks s = .next none) :
    commandStep checks start body last s = loopStep body last (start s) := by
  simp [commandStep, h, hc]

/-- What a step of a looping command can do: report a failed check, or take a step of its loop, the first one
after what stands before the loop. -/
theorem commandStep_eq_next {checks : State → Result CheckResult} {start : State → State}
    {body last : State → Result State} {s t : State} :
    commandStep checks start body last s = .next t ↔
      (s.phase = .check ∧ ∃ e info, checks s = .next (some (e, info)) ∧ t = s.raiseError e info) ∨
      (s.phase = .check ∧ checks s = .next none ∧ loopStep body last (start s) = .next t) ∨
      (s.phase = .loop ∧ loopStep body last s = .next t) := by
  cases hp : s.phase with
  | loop => simp [commandStep_loop hp]
  | check =>
    simp only [commandStep, hp, andThen_eq_next, true_and, reduceCtorEq, false_and, or_false]
    constructor
    · rintro ⟨c, hc, h⟩
      match c, h with
      | some (e, info), h => exact Or.inl ⟨e, info, hc, by simpa [eq_comm] using h⟩
      | none, h => exact Or.inr ⟨hc, h⟩
    · rintro (⟨e, info, hc, rfl⟩ | ⟨hc, h⟩)
      · exact ⟨_, hc, rfl⟩
      · exact ⟨_, hc, h⟩

end Sys2Proof.Machine
end

