-- ==== Sys2Proof/Laws/Operands.lean ====
section
/-! SUPPORT. What the check lists accept, and what one element of a command's loop does, in one lemma each. -/

namespace Sys2Proof.Machine

/-! ### Check lists -/

/-- SWAP's checks pass exactly when both ranges lie in BUF, LEN counts whole words, and the ranges are equal or
apart (spec/40_byteorder.md R141). -/
theorem swapChecks_eq_none {s : State} : swapChecks s = none ↔
    s.src.toNat + s.len.toNat ≤ s.params.bufSize ∧ s.dst.toNat + s.len.toNat ≤ s.params.bufSize ∧
    s.len.toNat % 4 = 0 ∧ (s.dst = s.src ∨ meets s.src.toNat s.len.toNat s.dst.toNat s.len.toNat = false) := by
  unfold swapChecks pastBuf
  split_ifs <;> simp_all
  first | omega | tauto

/-- The checks of the chained commands (spec/42_chain.md R172). -/
theorem chainChecks_eq_none {s : State} : chainChecks s = none ↔
    s.src.toNat + s.len.toNat ≤ s.params.bufSize ∧
    s.dst.toNat + 8 * (s.len.toNat / 8) ≤ s.params.bufSize ∧
    (s.dst = s.src ∨
      meets s.src.toNat (8 * (s.len.toNat / 8)) s.dst.toNat (8 * (s.len.toNat / 8)) = false) := by
  unfold chainChecks pastBuf blockCount
  split_ifs <;> simp_all
  first | omega | tauto

/-- The check of SUM16 and CRC32 (spec/43_checksum.md R191). -/
theorem sourceChecks_eq_none {s : State} :
    sourceChecks s = none ↔ s.src.toNat + s.len.toNat ≤ s.params.bufSize := by
  unfold sourceChecks pastBuf
  split <;> simp_all

/-- The first checks of PARSE (spec/44_frame.md R212). -/
theorem parseChecks_eq_none {s : State} :
    parseChecks s = none ↔ s.src.toNat + s.len.toNat ≤ s.params.bufSize ∧ 4 ≤ s.len.toNat := by
  unfold parseChecks pastBuf
  split_ifs <;> simp_all

/-- The checks of CHUNK_DEC on a chunk's offset and length (spec/44_frame.md R220). -/
theorem chunkExtentChecks_eq_none {s : State} {off len : Word} : chunkExtentChecks s off len = none ↔
    off.toNat + len.toNat ≤ s.frameLen.toNat ∧ s.dst.toNat + 8 * (len.toNat / 8) ≤ s.params.bufSize ∧
    meetsFrame s s.dst.toNat (8 * (len.toNat / 8)) = false := by
  unfold chunkExtentChecks pastBuf blockCount
  split_ifs <;> simp_all

/-- A chunk index is valid (spec/44_frame.md R211). -/
theorem validIndex_eq_true {s : State} {i : Nat} : validIndex s i = true ↔
    1 ≤ i ∧ i ≤ lastIdx s.params.chunkEnd s.chunkCount.toNat := by
  simp [validIndex]

/-- The checks of CHUNK_DEC pass exactly when a frame is valid, the index is, the descriptor lies in BUF and its
extent passes (spec/44_frame.md R220). -/
theorem chunkChecks_eq_none {s : State} : chunkChecks s = .next none ↔
    s.frameValid = true ∧ validIndex s s.chunkSel.toNat = true ∧
    chunkOffAddr s s.chunkSel.toNat + 4 ≤ s.params.bufSize ∧
    chunkLenAddr s s.chunkSel.toNat + 4 ≤ s.params.bufSize ∧
    chunkExtentChecks s (wordAt s (chunkOffAddr s s.chunkSel.toNat))
      (wordAt s (chunkLenAddr s s.chunkSel.toNat)) = none := by
  unfold chunkChecks
  split_ifs with h1 h2
  · simp [h1]
  · simp [h2]
  · simp only [andThen_eq_next, memRead32_eq_next]
    simp only [Bool.not_eq_false] at h1 h2
    constructor
    · rintro ⟨a, ⟨ha, rfl⟩, b, ⟨hb, rfl⟩, hc⟩
      exact ⟨h1, h2, ha, hb, by simpa using hc⟩
    · rintro ⟨_, _, ha, hb, hc⟩
      exact ⟨_, ⟨ha, rfl⟩, _, ⟨hb, rfl⟩, by simpa using hc⟩

theorem checksPass_eq_true {s : State} {i : Instr} : checksPass s i = true ↔ commandChecks s i = .next none := by
  unfold checksPass
  split <;> simp_all

/-! ### The final CUR -/

theorem finalCur_loop {s : State} {i : Instr} (h : s.phase = .loop) : finalCur s i = endingCur s s.count i := by
  simp [finalCur, h]

theorem finalCur_passed {s : State} {i : Instr} (h : s.phase = .check) (hc : commandChecks s i = .next none) :
    finalCur s i = endingCur s (elementCount s i) i := by
  simp [finalCur, h, checksPass_eq_true.2 hc]

theorem finalCur_failed {s : State} {i : Instr} {e : CmdError × Word} (h : s.phase = .check)
    (hc : commandChecks s i = .next (some e)) : finalCur s i = 0 := by
  simp [finalCur, h, checksPass, hc]

/-- A pending abort taken before one of the elements sets the final CUR (spec/45_control.md R242). -/
theorem endingCur_aborted {s : State} {n : Nat} {i : Instr} (h : s.abortPend = true) (hn : s.abortAt < n) :
    endingCur s n i = granule i * s.abortAt := by
  simp [endingCur, h, hn]

/-- Without an abort before one of its elements a command completes (spec/45_control.md R242). -/
theorem endingCur_completed {s : State} {n : Nat} {i : Instr} (h : s.abortPend = true → n ≤ s.abortAt) :
    endingCur s n i = completedCur s n i := by
  unfold endingCur
  split_ifs with hc
  · simp only [Bool.and_eq_true, decide_eq_true_eq] at hc
    have := h hc.1
    omega
  · rfl

/-! ### One element of a loop -/

/-- One word of SWAP (spec/40_byteorder.md R141). -/
theorem swapWord_eq_next {s t : State} : swapWord s = .next t ↔
    s.srcBase + 4 * s.index + 4 ≤ s.params.bufSize ∧ s.dst.toNat + 4 * s.index + 4 ≤ s.params.bufSize ∧
    t = (s.storeBytes (s.dst.toNat + 4 * s.index)
      (bytesOfWord (bswap32 (wordAt s (s.srcBase + 4 * s.index))) 4)).advance 4 := by
  simp only [swapWord, andThen_eq_next, memRead32_eq_next, memWrite_eq_next, bytesOfWord_length]
  constructor
  · rintro ⟨w, ⟨h1, rfl⟩, u, ⟨h2, rfl⟩, h⟩
    exact ⟨h1, h2, by simpa [eq_comm] using h⟩
  · rintro ⟨h1, h2, rfl⟩
    exact ⟨_, ⟨h1, rfl⟩, _, ⟨h2, rfl⟩, rfl⟩

/-- One block enciphered in a chain (spec/42_chain.md R172). -/
theorem chainEncBlock_eq_next {s t : State} {swi swo : Bool} : chainEncBlock swi swo s = .next t ↔
    s.srcBase + 8 * s.index + 8 ≤ s.params.bufSize ∧ s.dst.toNat + 8 * s.index + 8 ≤ s.params.bufSize ∧
    t = ((s.chained (xteaEncRun ((blockAt s (s.srcBase + 8 * s.index) swi).xor s.fb) s.key)
        (blockAt s (s.srcBase + 8 * s.index) swi)
        (xteaEnc ((blockAt s (s.srcBase + 8 * s.index) swi).xor s.fb) s.key)).storeBytes
      (s.dst.toNat + 8 * s.index)
      (bytesOfBlock (xteaEnc ((blockAt s (s.srcBase + 8 * s.index) swi).xor s.fb) s.key) swo)).advance 8 := by
  simp only [chainEncBlock, andThen_eq_next, rdBlock_eq_next, wrBlock_eq_next]
  constructor
  · rintro ⟨w, ⟨h1, rfl⟩, u, ⟨h2, rfl⟩, h⟩
    exact ⟨h1, h2, by simpa [eq_comm] using h⟩
  · rintro ⟨h1, h2, rfl⟩
    exact ⟨_, ⟨h1, rfl⟩, _, ⟨h2, rfl⟩, rfl⟩

/-- One block deciphered in a chain (spec/42_chain.md R173). -/
theorem chainDecBlock_eq_next {s t : State} {swi swo : Bool} : chainDecBlock swi swo s = .next t ↔
    s.srcBase + 8 * s.index + 8 ≤ s.params.bufSize ∧ s.dst.toNat + 8 * s.index + 8 ≤ s.params.bufSize ∧
    t = ((s.chained (xteaDecRun (blockAt s (s.srcBase + 8 * s.index) swi) s.key)
        (blockAt s (s.srcBase + 8 * s.index) swi) (blockAt s (s.srcBase + 8 * s.index) swi)).storeBytes
      (s.dst.toNat + 8 * s.index)
      (bytesOfBlock ((xteaDec (blockAt s (s.srcBase + 8 * s.index) swi) s.key).xor s.fb) swo)).advance 8 := by
  simp only [chainDecBlock, andThen_eq_next, rdBlock_eq_next, wrBlock_eq_next]
  constructor
  · rintro ⟨w, ⟨h1, rfl⟩, u, ⟨h2, rfl⟩, h⟩
    exact ⟨h1, h2, by simpa [eq_comm] using h⟩
  · rintro ⟨h1, h2, rfl⟩
    exact ⟨_, ⟨h1, rfl⟩, _, ⟨h2, rfl⟩, rfl⟩

/-- One byte of SUM16 or PARSE (spec/43_checksum.md R190). -/
theorem sumByte_eq_next {s t : State} : sumByte s = .next t ↔
    s.srcBase + s.index + 1 ≤ s.params.bufSize ∧
    t = State.advance
      { s with sum16 := s.sum16 + (byteAt s (s.srcBase + s.index)).setWidth 16 } 1 := by
  simp only [sumByte, andThen_eq_next, memRead8_eq_next]
  constructor
  · rintro ⟨b, ⟨h1, rfl⟩, h⟩
    exact ⟨h1, by simpa [eq_comm] using h⟩
  · rintro ⟨h1, rfl⟩
    exact ⟨_, ⟨h1, rfl⟩, rfl⟩

/-- One byte of CRC32 (spec/43_checksum.md R194). -/
theorem crcStep_eq_next {s t : State} : crcStep s = .next t ↔
    s.srcBase + s.index + 1 ≤ s.params.bufSize ∧
    t = State.advance { s with
      crc := crcByte s.crcPoly (s.crcCfg.getLsbD 0) s.crc (byteAt s (s.srcBase + s.index)) } 1 := by
  simp only [crcStep, andThen_eq_next, memRead8_eq_next]
  constructor
  · rintro ⟨b, ⟨h1, rfl⟩, h⟩
    exact ⟨h1, by simpa [eq_comm] using h⟩
  · rintro ⟨h1, rfl⟩
    exact ⟨_, ⟨h1, rfl⟩, rfl⟩

/-! ### Host accesses -/

theorem busy_eq_true {s : State} : s.busy = true ↔ s.seq = .run := by simp [State.busy]

theorem busy_eq_false {s : State} : s.busy = false ↔ s.seq = .idle := by cases h : s.seq <;> simp [State.busy, h]

/-- A host BUF access is accepted exactly on an idle engine, naturally aligned and inside BUF
(spec/20_memory.md R91, R92). -/
theorem bufAccess_eq_some {s : State} {a n : Nat} {w : Width} : bufAccess s a w = some n ↔
    s.seq = .idle ∧ w.bytes = some n ∧ a % n = 0 ∧ a + n ≤ s.params.bufSize := by
  unfold bufAccess
  cases hw : w.bytes with
  | none => simp
  | some m =>
    simp only [Option.some.injEq]
    constructor
    · intro h
      split at h
      · next hc =>
        cases h
        simp only [Bool.and_eq_true, Bool.not_eq_true', beq_iff_eq, decide_eq_true_eq] at hc
        exact ⟨busy_eq_false.1 hc.1.1, rfl, hc.1.2, hc.2⟩
      · cases h
    · rintro ⟨h1, rfl, h2, h3⟩
      rw [if_pos]
      simp [busy_eq_false.2 h1, h2, h3]

/-- Offsets name registers (spec/10_state.md R21). -/
theorem regAt_offset (r : Reg) : regAt r.offset = some r := by cases r <;> rfl

theorem offset_lt (r : Reg) : r.offset < 0x100 := by cases r <;> decide

theorem offset_mod_four (r : Reg) : r.offset % 4 = 0 := by cases r <;> rfl

/-- The registers stand at the start of the window (spec/20_memory.md R82). -/
theorem regionOf_register (b off : Nat) (h : off < 0x100) : regionOf b (b + off) = .register off := by
  unfold regionOf windowSize
  rw [if_neg (by omega), if_pos (by omega)]
  exact congrArg Region.register (by omega)

/-- BUF stands 16 MiB above the registers (spec/20_memory.md R82). -/
theorem regionOf_buffer (b a : Nat) (h : a < 0x1000000) : regionOf b (b + (0x1000000 + a)) = .buffer a := by
  unfold regionOf windowSize bufWindow
  rw [if_neg (by omega), if_neg (by omega), if_neg (by omega)]
  exact congrArg Region.buffer (by omega)

/-- What lies between is reserved (spec/20_memory.md R82). -/
theorem regionOf_reserved (b off : Nat) (h : 0x100 ≤ off) (h' : off < 0x1000000) :
    regionOf b (b + off) = .reserved := by
  unfold regionOf windowSize bufWindow
  rw [if_neg (by omega), if_neg (by omega), if_pos (by omega)]

end Sys2Proof.Machine
end

