-- ==== Sys2Proof/Laws/PerInstr.lean ====
section
/-! SUPPORT. A fact about each command as syntax: where its word has bits (spec/30_encoding.md R120, R122). -/

namespace Sys2Proof.Laws

/-- The opcode of a command's word is one of the ten, its reserved bits are 0, and it has modifier bits only if it
is a chained command (R120, R122). -/
def WordFields.Statement (i : Instr) : Prop :=
  opField (encode i) ≤ 9 ∧ rsvField (encode i) = 0 ∧
  (modField (encode i) ≠ 0 → opField (encode i) = 4 ∨ opField (encode i) = 5)

theorem WordFields.nop : WordFields.Statement .nop := by unfold WordFields.Statement; decide

theorem WordFields.encBlock : WordFields.Statement .encBlock := by unfold WordFields.Statement; decide

theorem WordFields.decBlock : WordFields.Statement .decBlock := by unfold WordFields.Statement; decide

theorem WordFields.swap : WordFields.Statement .swap := by unfold WordFields.Statement; decide

theorem WordFields.chainEnc (swi swo cont : Bool) : WordFields.Statement (.chainEnc swi swo cont) := by
  unfold WordFields.Statement; revert swi swo cont; decide

theorem WordFields.chainDec (swi swo cont : Bool) : WordFields.Statement (.chainDec swi swo cont) := by
  unfold WordFields.Statement; revert swi swo cont; decide

theorem WordFields.sum16 : WordFields.Statement .sum16 := by unfold WordFields.Statement; decide

theorem WordFields.crc32 : WordFields.Statement .crc32 := by unfold WordFields.Statement; decide

theorem WordFields.parse : WordFields.Statement .parse := by unfold WordFields.Statement; decide

theorem WordFields.chunkDec : WordFields.Statement .chunkDec := by unfold WordFields.Statement; decide

end Sys2Proof.Laws
end

