-- ==== Sys2Proof/Laws/Steps.lean ====
section
/-! SUPPORT. Each command's step as the shared skeleton, what a step answers to each host transaction, the
rule by which a command's loop is followed to its end, and what an abort request and a CUR read can do. -/

namespace Sys2Proof.Machine

/-! ### Commands -/

theorem exec_swap (s : State) : exec .swap s =
    commandStep (fun s => .next (swapChecks s)) swapStart swapWord finishPlain s := rfl

theorem exec_chainEnc (swi swo cont : Bool) (s : State) : exec (.chainEnc swi swo cont) s =
    commandStep (fun s => .next (chainChecks s)) (chainStart cont) (chainEncBlock swi swo) finishPlain s := rfl

theorem exec_chainDec (swi swo cont : Bool) (s : State) : exec (.chainDec swi swo cont) s =
    commandStep (fun s => .next (chainChecks s)) (chainStart cont) (chainDecBlock swi swo) finishPlain s := rfl

theorem exec_sum16 (s : State) : exec .sum16 s =
    commandStep (fun s => .next (sourceChecks s)) (fun s => s.beginSum s.len.toNat) sumByte sumFinish s := rfl

theorem exec_crc32 (s : State) : exec .crc32 s =
    commandStep (fun s => .next (sourceChecks s)) crcStart crcStep crcFinish s := rfl

theorem exec_parse (s : State) : exec .parse s =
    commandStep (fun s => .next (parseChecks s)) (fun s => s.beginSum (s.len.toNat - 2)) sumByte parseFinish
      (parseChecksStart s) := rfl

theorem exec_chunkDec (s : State) : exec .chunkDec s =
    commandStep chunkChecks chunkStart (chainDecBlock true true) finishPlain s := rfl

/-! ### Running a command -/

theorem runCommand_idle {i : Instr} {n : Nat} {s : State} (h : s.seq = .idle) :
    runCommand i n s = .next s := by
  cases n <;> simp [runCommand, h]

theorem runCommand_run {i : Instr} {n : Nat} {s : State} (h : s.seq = .run) :
    runCommand i (n + 1) s = andThen (exec i s) (runCommand i n) := by
  simp [runCommand, h]

/-- The first step of a command whose checks pass is the first step of its loop (R260). -/
theorem runCommand_start {i : Instr} {checks : State → Result CheckResult} {start : State → State}
    {body last : State → Result State} {s s' : State} (hs : exec i s = commandStep checks start body last s')
    (hu : ∀ u : State, u.phase = .loop → exec i u = loopStep body last u) (hr : s.seq = .run)
    (hp : s'.phase = .check) (hc : checks s' = .next none) (hr' : (start s').seq = .run)
    (hp' : (start s').phase = .loop) (n : Nat) :
    runCommand i (n + 1) s = runCommand i (n + 1) (start s') := by
  rw [runCommand_run hr, runCommand_run hr', hs, commandStep_passed hp hc, hu _ hp']

/-- The loop rule: what holds before element `k` and is carried over each element holds when the loop of `n`
elements ends, if no abort comes. -/
theorem runCommand_loop {i : Instr} {body last : State → Result State} {n : Nat} (P : Nat → State → Prop)
    (hu : ∀ u : State, u.phase = .loop → exec i u = loopStep body last u)
    (hP : ∀ k u, P k u →
      u.seq = .run ∧ u.phase = .loop ∧ u.abortPend = false ∧ u.index = k ∧ u.count = n)
    (hs : ∀ k u, k < n → P k u → ∃ v, body u = .next v ∧ P (k + 1) v) :
    ∀ m k u, k + m = n → P k u → ∃ v, P n v ∧ runCommand i (m + 1) u = last v := by
  intro m
  induction m with
  | zero =>
    intro k u hk hp
    obtain ⟨h1, h2, h3, h4, h5⟩ := hP k u hp
    have hkn : k = n := by omega
    subst hkn
    refine ⟨u, hp, ?_⟩
    rw [runCommand_run h1, hu u h2, loopStep_last (by omega)]
    cases last u <;> rfl
  | succ m ih =>
    intro k u hk hp
    obtain ⟨h1, h2, h3, h4, h5⟩ := hP k u hp
    obtain ⟨v, hb, hv⟩ := hs k u (by omega) hp
    obtain ⟨w, hw, hr⟩ := ih (k + 1) v (by omega) hv
    refine ⟨w, hw, ?_⟩
    rw [runCommand_run h1, hu u h2, loopStep_more (by omega) (abortDue_eq_false h3), hb, andThen_next, hr]

/-! ### Host transactions -/

/-- A step whose event is a host transaction performs it. -/
theorem step_host {s : State} {x : Access} {rest : List Event} (h : s.pending = .host x :: rest) :
    step s = hostAccess x { s with pending := rest } := by
  simp [step, nextEvent, h]

/-- A host write at an address of BUF's part of the window. -/
theorem step_writeAt {s : State} {x a : Nat} {w : Width} {v : Word} {rest : List Event}
    (h : s.pending = .host (.write x w v) :: rest) (hx : regionOf s.params.hostBase x = .buffer a) :
    step s = .next (writeBuf a w v { s with pending := rest }) := by
  rw [step_host h]
  simp only [hostAccess, hx]

/-- A host read at an address of BUF's part of the window. -/
theorem step_readAt {s : State} {x a : Nat} {w : Width} {rest : List Event}
    (h : s.pending = .host (.read x w) :: rest) (hx : regionOf s.params.hostBase x = .buffer a) :
    step s = .next (readBuf a w { s with pending := rest }) := by
  rw [step_host h]
  simp only [hostAccess, hx]

/-- A host write to BUF's part of the window. -/
theorem step_bufWrite {s : State} {a : Nat} {w : Width} {v : Word} {rest : List Event}
    (h : s.pending = .host (.write (s.params.hostBase + (0x1000000 + a)) w v) :: rest) (ha : a < 0x1000000) :
    step s = .next (writeBuf a w v { s with pending := rest }) :=
  step_writeAt h (regionOf_buffer s.params.hostBase a ha)

/-- A host read from BUF's part of the window. -/
theorem step_bufRead {s : State} {a : Nat} {w : Width} {rest : List Event}
    (h : s.pending = .host (.read (s.params.hostBase + (0x1000000 + a)) w) :: rest) (ha : a < 0x1000000) :
    step s = .next (readBuf a w { s with pending := rest }) :=
  step_readAt h (regionOf_buffer s.params.hostBase a ha)

/-- An aligned word write to a register. -/
theorem step_writeReg {s : State} {r : Reg} {v : Word} {rest : List Event} (h : NextWrites s r v rest) :
    step s = .next (writeReg r v { s with pending := rest }) := by
  rw [step_host h]
  simp [hostAccess, regionOf_register _ _ (offset_lt r), offset_mod_four, regAt_offset]

/-- An aligned word read of a register. -/
theorem step_readReg {s : State} {r : Reg} {rest : List Event} (h : NextReads s r rest) :
    step s = readReg r { s with pending := rest } := by
  rw [step_host h]
  simp [hostAccess, regionOf_register _ _ (offset_lt r), offset_mod_four, regAt_offset]

/-! ### Abort requests and CUR reads -/

/-- What an abort request can do (R242): be remembered with a free element no less than the floor, or nothing. -/
theorem requestAbort_cases (s : State) :
    (∃ i, s.seq = .run ∧ currentCommand s = .ok i ∧ abortable i = true ∧ s.abortPend = false ∧
      s.requestAbort = { s with abortPend := true, abortAt := abortFloor s i + (Config.freeWord s.draws).toNat,
                                draws := s.draws + 1 }) ∨
    s.requestAbort = s := by
  unfold State.requestAbort
  split
  · rename_i hb
    split
    · rename_i i hi
      split
      · rename_i ha
        simp only [Bool.and_eq_true, Bool.not_eq_true'] at ha
        exact .inl ⟨i, busy_eq_true.1 hb, hi, ha.1, ha.2, rfl⟩
      · exact .inr rfl
    · exact .inr rfl
  · exact .inr rfl

/-- The floor is not before the next element, so CUR at the request is kept (R242). -/
theorem index_le_abortFloor (s : State) (i : Instr) : s.index ≤ abortFloor s i := Nat.le_max_left _ _

/-- The floor is not before what a CUR read has returned (R48). -/
theorem curSeen_le_abortFloor (s : State) (i : Instr) : s.curSeen.toNat ≤ granule i * abortFloor s i := by
  have hg : granule i = 1 ∨ granule i = 4 ∨ granule i = 8 := by cases i <;> simp [granule]
  unfold abortFloor
  rcases hg with h | h | h <;> (rw [h]; omega)

/-- What a CUR read of a running command can return (R48). -/
theorem cursorDraw_bounds {s : State} {i : Instr} (hi : currentCommand s = .ok i)
    (h : s.curSeen.toNat ≤ finalCur s i) (hlt : finalCur s i < 2 ^ 32) (hm : s.curSeen.toNat % granule i = 0) :
    s.curSeen.toNat ≤ (cursorDraw s).toNat ∧ (cursorDraw s).toNat ≤ finalCur s i ∧
      (cursorDraw s).toNat % granule i = 0 := by
  unfold cursorDraw
  rw [hi]
  simp only
  generalize (Config.freeWord s.draws).toNat = f
  generalize finalCur s i = n at *
  have h1 := Nat.mod_lt f (Nat.succ_pos ((n - s.curSeen.toNat) / granule i))
  generalize f % ((n - s.curSeen.toNat) / granule i + 1) = q at *
  have h2 : granule i * q ≤ granule i * ((n - s.curSeen.toNat) / granule i) := Nat.mul_le_mul_left _ (by omega)
  have h3 := Nat.mul_div_le (n - s.curSeen.toNat) (granule i)
  have e : (BitVec.ofNat 32 (s.curSeen.toNat + granule i * q)).toNat = s.curSeen.toNat + granule i * q := by
    simp only [BitVec.toNat_ofNat]; apply Nat.mod_eq_of_lt; omega
  rw [e, Nat.add_mul_mod_self_left]
  exact ⟨by omega, by omega, hm⟩

end Sys2Proof.Machine
end

