-- ==== Sys2Proof/Machine/HostProgram.lean ====
section
/-! DEFINITION. The host-program notation (spec/30_encoding.md R127, R128): each statement as the events it
stands for, on an engine whose window stands at `base`. -/

namespace Sys2Proof.Machine

/-- `WR <reg>, v`. -/
def wr (base : Nat) (r : Reg) (v : Word) : List Event := [.host (.write (base + r.offset) .word v)]

/-- `WR BUF+a, v`: a BUF word. -/
def wrBuf (base a : Nat) (v : Word) : List Event := [.host (.write (base + (bufWindow + a)) .word v)]

/-- `WRB <addr>, b`: one BUF byte. -/
def wrb (base a : Nat) (b : Byte) : List Event :=
  [.host (.write (base + (bufWindow + a)) .byte (b.setWidth 32))]

/-- `RD <reg>`. -/
def rd (base : Nat) (r : Reg) : List Event := [.host (.read (base + r.offset) .word)]

/-- `RD BUF+a`: a BUF word. -/
def rdBuf (base a : Nat) : List Event := [.host (.read (base + (bufWindow + a)) .word)]

/-- `WAIT`: STATUS is read until BUSY = 0. -/
def waitIdle : List Event := [.wait]

/-- `RUN <cmd>` (R128): `WR CMD, <cmd>` then `WAIT`. -/
def runWord (base : Nat) (w : Word) : List Event := wr base .cmd w ++ waitIdle

/-- `SETKEY a, b, c, d` (R128). -/
def setKey (base : Nat) (k : Key) : List Event :=
  wr base .key0 k.k0 ++ wr base .key1 k.k1 ++ wr base .key2 k.k2 ++ wr base .key3 k.k3

/-- `SETIV a, b` (R128). -/
def setIv (base : Nat) (f : Block) : List Event := wr base .fb0 f.v0 ++ wr base .fb1 f.v1

end Sys2Proof.Machine
end

