-- ==== Sys2Proof/Tests/Slice0.lean ====
section
/-! SUPPORT. Small tests, each on values the spec gives (its encodings, its worked vectors of
spec/95_test_vectors.md), and for every statement with hypotheses a state that meets them. -/

namespace Sys2Proof.Machine.Tests

/-! ### Small states -/

/-- A small engine: 64 bytes of BUF, its window at 0x1000. -/
def small : Params := ⟨⟨0, 0, 0, 0⟩, 64, 0x1000, .excl, true⟩

/-- The small engine after reset. -/
def engine : State := State.resetWith small

/-- The key K1 of spec/95_test_vectors.md. -/
def key1 : Key := ⟨0x00010203, 0x04050607, 0x08090A0B, 0x0C0D0E0F⟩

/-- The small engine with the given bytes from BUF address 0, the operands in their registers, and a command
accepted. -/
def accepted (w : Word) (src dst len : Word) (bs : List Byte) : State :=
  State.latchCommand { engine with src := src, dst := dst, len := len, key := key1, buf := memPut [] 0 bs } w

/-- A command in its loop, at element `k` of `n`. -/
def looping (w : Word) (src dst len : Word) (bs : List Byte) (k n : Nat) : State :=
  { accepted w src dst len bs with phase := .loop, index := k, count := n, srcBase := src.toNat }

/-- The next event is a host write, or read, of a register of the small engine. -/
def writing (s : State) (r : Reg) (v : Word) : State :=
  { s with pending := [.host (.write (0x1000 + r.offset) .word v)] }

def reading (s : State) (r : Reg) : State := { s with pending := [.host (.read (0x1000 + r.offset) .word)] }

/-- A frame of 30 bytes: count 2, one chunk at offset 20 of 8 bytes, the first ciphertext block of V-C1; the bytes
before the trailer sum to 0x045B. -/
def frame : List Byte :=
  [0x02, 0, 0, 0] ++ [0, 0, 0, 0, 0, 0, 0, 0] ++ [0x14, 0, 0, 0] ++ [0x08, 0, 0, 0] ++
  [0x49, 0x7D, 0xF3, 0xD0, 0x72, 0x61, 0x2C, 0xB5] ++ [0x5B, 0x04]

/-- A CHUNK_DEC accepted on an engine with those 30 bytes recorded as a frame. -/
def chunkRun (bs : List Byte) (valid : Bool) (sel : Half) (dst : Word) : State :=
  State.latchCommand { engine with
    buf := memPut [] 0 bs, frameLen := 30, chunkCount := 2, frameValid := valid, chunkSel := sel, dst := dst,
    key := key1 } 9

/-- A next state is answered. -/
def answersNext (x : Result State) : Bool :=
  match x with
  | .next _ => true
  | .fault _ => false
  | .refused _ => false

/-! ### WellFormed and Decode -/

theorem test_crc32_needs_the_unit : wellFormed false .crc32 = false := by decide

theorem test_crc32_word_needs_the_unit : decode false 0x00000007 = .error .noCrcUnit := by decide

/-- R122's words, written out; the modifier bits are 8 (SWI), 9 (SWO), 10 (CONT) (R120). -/
theorem test_decode_nop : decodeTableWord 32 0b00000000000000000000000000000000 = some .nop := by decide

theorem test_decode_encBlock : decodeTableWord 32 0b00000000000000000000000000000001 = some .encBlock := by decide

theorem test_decode_decBlock : decodeTableWord 32 0b00000000000000000000000000000010 = some .decBlock := by decide

theorem test_decode_swap : decodeTableWord 32 0b00000000000000000000000000000011 = some .swap := by decide

theorem test_decode_chainEnc :
    decodeTableWord 32 0b00000000000000000000000100000100 = some (.chainEnc true false false) ∧
    decodeTableWord 32 0b00000000000000000000001000000100 = some (.chainEnc false true false) ∧
    decodeTableWord 32 0b00000000000000000000010000000100 = some (.chainEnc false false true) := by decide

theorem test_decode_chainDec :
    decodeTableWord 32 0b00000000000000000000000100000101 = some (.chainDec true false false) ∧
    decodeTableWord 32 0b00000000000000000000001000000101 = some (.chainDec false true false) ∧
    decodeTableWord 32 0b00000000000000000000010000000101 = some (.chainDec false false true) := by decide

theorem test_decode_sum16 : decodeTableWord 32 0b00000000000000000000000000000110 = some .sum16 := by decide

theorem test_decode_crc32 : decodeTableWord 32 0b00000000000000000000000000000111 = some .crc32 := by decide

theorem test_decode_parse : decodeTableWord 32 0b00000000000000000000000000001000 = some .parse := by decide

theorem test_decode_chunkDec : decodeTableWord 32 0b00000000000000000000000000001001 = some .chunkDec := by decide

/-- R125's four cases; the words of V-S's, V-K20's and V-D14's rows among them. -/
theorem test_decode_illegal :
    decode true 0x0000000A = .error .reservedOpcode ∧ decode true 0x000000FF = .error .reservedOpcode ∧
    decode true 0x00000804 = .error .reservedBits ∧ decode true 0x80000000 = .error .reservedBits ∧
    decode true 0x00000303 = .error .modifierNotAdmitted ∧ decode true 0x00000107 = .error .modifierNotAdmitted ∧
    decode true 0x00000309 = .error .modifierNotAdmitted := by decide

/-- The word placed by `withFetchWord` is the one the next step runs: NOP completes. -/
theorem test_fetch : step (State.reset.withFetchWord 32 0) =
    .next { State.reset with done := true, intStatus := 1 } := by rfl

/-! ### The commands, one step each -/

/-- V-X1. -/
theorem test_encBlock : (match exec .encBlock { engine with key := key1, blk := ⟨0x41424344, 0x45464748⟩ } with
    | .next t => decide (t.blk = ⟨0x497DF3D0, 0x72612CB5⟩ ∧ t.cur = 8 ∧ t.done = true)
    | _ => false) = true := by decide +kernel

/-- V-X8. -/
theorem test_decBlock : (match exec .decBlock { engine with key := key1, blk := ⟨0x497DF3D0, 0x72612CB5⟩ } with
    | .next t => decide (t.blk = ⟨0x41424344, 0x45464748⟩ ∧ t.cur = 8 ∧ t.done = true)
    | _ => false) = true := by decide +kernel

/-- V-S1's first word. -/
theorem test_swap : (match exec .swap (accepted 3 0 0x10 8 [1, 2, 3, 4, 5, 6, 7, 8]) with
    | .next t => decide (t.cur = 4 ∧ byteAt t 0x10 = 4 ∧ byteAt t 0x11 = 3 ∧ byteAt t 0x12 = 2 ∧ byteAt t 0x13 = 1)
    | _ => false) = true := by decide +kernel

/-- The overlap row of SWAP's vectors: ERR 4(0). -/
theorem test_swap_overlap : (match exec .swap (accepted 3 0 4 8 []) with
    | .next t => decide (t.errCode = 4 ∧ t.errInfo = 0 ∧ t.seq = .idle ∧ t.cur = 0 ∧ t.intStatus = 3)
    | _ => false) = true := by decide +kernel

/-- V-C1's first block, by ENCODE. -/
theorem test_chainEnc :
    (match exec (.chainEnc true true false)
        (accepted 0x304 0 0x20 8 [0x41, 0x42, 0x43, 0x44, 0x45, 0x46, 0x47, 0x48]) with
    | .next t => decide (t.cur = 8 ∧ t.fb = ⟨0x497DF3D0, 0x72612CB5⟩ ∧ byteAt t 0x20 = 0x49 ∧ byteAt t 0x27 = 0xB5)
    | _ => false) = true := by decide +kernel

/-- V-C2's first block, by DECODE. -/
theorem test_chainDec :
    (match exec (.chainDec true true false)
        (accepted 0x305 0 0x20 8 [0x49, 0x7D, 0xF3, 0xD0, 0x72, 0x61, 0x2C, 0xB5]) with
    | .next t => decide (t.cur = 8 ∧ t.fb = ⟨0x497DF3D0, 0x72612CB5⟩ ∧ byteAt t 0x20 = 0x41 ∧ byteAt t 0x27 = 0x48)
    | _ => false) = true := by decide +kernel

/-- V-K1's third byte, 0xFF, is added unsigned. -/
theorem test_sum16 : (match exec .sum16 { looping 6 0 0 4 [1, 2, 0xFF, 0] 2 4 with sum16 := 3 } with
    | .next t => decide (t.sum16 = 0x102 ∧ t.cur = 3)
    | _ => false) = true := by decide +kernel

/-- V-K1's end: CHK = 0x102. -/
theorem test_sum16_end : (match exec .sum16 { looping 6 0 0 4 [1, 2, 0xFF, 0] 4 4 with sum16 := 0x102 } with
    | .next t => decide (t.chk = 0x102 ∧ t.done = true ∧ t.errCode = 0)
    | _ => false) = true := by decide +kernel

/-- V-K5: the CRC-32 check value of "123456789", with the reset configuration (R43, R194). -/
theorem test_crc32_check_value :
    crcResult true 0xFFFFFFFF ([0x31, 0x32, 0x33, 0x34, 0x35, 0x36, 0x37, 0x38, 0x39].foldl
      (crcByte 0x04C11DB7 true) 0xFFFFFFFF) = 0xCBF43926 := by decide +kernel

/-- V-K13: the same bytes with CRC_CFG = 0. -/
theorem test_crc32_unreflected :
    crcResult false 0xFFFFFFFF ([0x31, 0x32, 0x33, 0x34, 0x35, 0x36, 0x37, 0x38, 0x39].foldl
      (crcByte 0x04C11DB7 false) 0xFFFFFFFF) = 0xFC891918 := by decide +kernel

/-- V-P10's end: a count of 1 has no valid index under EXCL, and the frame of four bytes is recorded. -/
theorem test_parse : (match exec .parse { looping 8 0 0 4 [1, 0, 1, 0] 2 2 with sum16 := 1 } with
    | .next t => decide (t.frameValid = true ∧ t.chunkCount = 1 ∧ t.frameLen = 4 ∧ t.cur = 4 ∧ t.chkRef = 1)
    | _ => false) = true := by decide +kernel

/-- V-P9's end: a count of 2 needs a descriptor at 12..19: ERR 6(2). -/
theorem test_parse_table : (match exec .parse { looping 8 0 0 4 [2, 0, 2, 0] 2 2 with sum16 := 2 } with
    | .next t => decide (t.frameValid = false ∧ t.errCode = 6 ∧ t.errInfo = 2 ∧ t.chk = 2)
    | _ => false) = true := by decide +kernel

/-- The chunk is V-C1's first ciphertext block: its plaintext appears at DST. -/
theorem test_chunkDec : (match exec .chunkDec (chunkRun frame true 1 32) with
    | .next t => decide (t.cur = 8 ∧ byteAt t 32 = 0x41 ∧ byteAt t 39 = 0x48 ∧ t.frameValid = true)
    | _ => false) = true := by decide +kernel

/-- V-D11: without a frame, ERR 7(0). -/
theorem test_chunkDec_noFrame : (match exec .chunkDec (chunkRun [] false 1 32) with
    | .next t => decide (t.errCode = 7 ∧ t.errInfo = 0 ∧ t.cur = 0)
    | _ => false) = true := by decide +kernel

/-! ### States that meet the hypotheses of the statements -/

theorem chunkRun_inv (bs : List Byte) (valid : Bool) (sel : Half) (dst : Word) (h : bs.length ≤ 64) :
    EngineInv (chunkRun bs valid sel dst) where
  params := (by decide : small.wf = true)
  canonical := memWf_memPut 0 bs (m := []) rfl
  inside := memBelow_memPut (n := 64) (m := []) (a := 0) (by simpa using h) rfl
  cursor := Nat.zero_le _
  codes := Nat.zero_le _
  errDone := fun hx => absurd rfl hx
  frame := fun _ => ⟨(by decide : 4 ≤ (30 : Word).toNat), (by decide : (0 : Word).toNat + (30 : Word).toNat ≤ 64),
    fun _ => (by decide : 8 * lastIdx .excl (2 : Half).toNat + 12 ≤ (30 : Word).toNat - 2)⟩
  quiet := fun hx => nomatch hx
  running := fun _ => ⟨.chunkDec, (by decide : decode true 9 = .ok .chunkDec), rfl, rfl, rfl, (fun hx => nomatch hx), Nat.zero_le _, rfl, rfl, rfl⟩
  seen := fun hx => nomatch hx

theorem engine_inv : EngineInv engine where
  params := (by decide : small.wf = true)
  canonical := rfl
  inside := rfl
  cursor := Nat.zero_le _
  codes := Nat.zero_le _
  errDone := fun hx => absurd rfl hx
  frame := fun hx => nomatch hx
  quiet := fun _ => rfl
  running := fun hx => nomatch hx
  seen := fun _ => Nat.zero_le _

/-- The engine after a PARSE recorded the frame, idle. -/
def framed (sel : Half) : State := { chunkRun frame true sel 32 with seq := .idle, done := true, cmd := 8 }

theorem framed_inv (sel : Half) : EngineInv (framed sel) where
  params := (by decide : small.wf = true)
  canonical := memWf_memPut 0 frame (m := []) rfl
  inside := memBelow_memPut (n := 64) (m := []) (a := 0) (by decide) rfl
  cursor := Nat.zero_le _
  codes := Nat.zero_le _
  errDone := fun hx => absurd rfl hx
  frame := fun _ => ⟨(by decide : 4 ≤ (30 : Word).toNat), (by decide : (0 : Word).toNat + (30 : Word).toNat ≤ 64),
    fun _ => (by decide : 8 * lastIdx .excl (2 : Half).toNat + 12 ≤ (30 : Word).toNat - 2)⟩
  quiet := fun _ => rfl
  running := fun hx => nomatch hx
  seen := fun _ => Nat.zero_le _

theorem inv_withPending {s : State} (h : EngineInv s) (es : List Event) : EngineInv { s with pending := es } :=
  ⟨h.1, h.2, h.3, h.4, h.5, h.6, h.7, h.8, h.9, h.10⟩

/-- One illegal word for each case of R125, and the last legal opcode. -/
theorem witness_IllegalWordCompletesWithBadCmd :
    engine.seq = .idle ∧ NextWrites (writing engine .cmd 0x0A) .cmd 0x0A [] ∧
    NextWrites (writing engine .cmd 9) .cmd 9 [] ∧
    illegalWord true 0x0A ∧ illegalWord true 0x800 ∧ illegalWord true 0x107 ∧ illegalWord false 7 ∧
    ¬ illegalWord true 9 := by
  refine ⟨rfl, rfl, rfl, Or.inl (by decide), Or.inr (Or.inl (by decide)),
    Or.inr (Or.inr (Or.inl (by decide))), Or.inr (Or.inr (Or.inr (by decide))), ?_⟩
  unfold illegalWord; decide

theorem witness_AcceptanceLatchesCommand : (writing engine .cmd 0x304).seq = .idle ∧
    NextWrites (writing engine .cmd 0x304) .cmd 0x304 [] ∧
    decode (writing engine .cmd 0x304).params.hasCrc32 0x304 = .ok (.chainEnc true true false) := ⟨rfl, rfl, rfl⟩

theorem witness_StepRunsTheCommandInCmd : (accepted 3 0 16 8 []).seq = .run ∧
    decode (accepted 3 0 16 8 []).params.hasCrc32 (accepted 3 0 16 8 []).cmd = .ok .swap ∧
    (accepted 3 0 16 8 []).pending = [] ∧
    { accepted 3 0 16 8 [] with pending := [.sequencer] }.pending = [.sequencer] ∧
    { accepted 3 0 16 8 [] with pending := [.wait] }.pending = [.wait] := ⟨rfl, rfl, rfl, rfl, rfl⟩

theorem witness_BigEndianWordView : 60 + 4 ≤ engine.params.bufSize := by decide

/-- A range one byte past the end of BUF, a length of 6, and ranges that overlap by one word. -/
theorem witness_SwapReportsFirstError :
    (accepted 3 57 0 8 []).phase = .check ∧
    (accepted 3 57 0 8 []).params.bufSize < (accepted 3 57 0 8 []).src.toNat + (accepted 3 57 0 8 []).len.toNat ∧
    ((0 : Word).toNat + (8 : Word).toNat ≤ 64 ∧ 64 < (57 : Word).toNat + (8 : Word).toNat) ∧
    (56 + 6 ≤ 64 ∧ 6 % 4 ≠ 0) ∧
    ((4 : Word) ≠ 0 ∧ (0 : Word).toNat < (4 : Word).toNat + (8 : Word).toNat ∧
      (4 : Word).toNat < (0 : Word).toNat + (8 : Word).toNat) := by decide

theorem witness_SwapReversesOneWord : AtElement (looping 3 56 0 8 [] 1 2) ∧
    (looping 3 56 0 8 [] 1 2).srcBase + 4 * 1 + 4 ≤ small.bufSize ∧ (0 : Word).toNat + 4 * 1 + 4 ≤ small.bufSize :=
  ⟨⟨rfl, rfl, rfl, by decide⟩, by decide, by decide⟩

theorem witness_SwapReversesEveryWord : AtStart (accepted 3 0 8 8 []) ∧
    (0 : Word).toNat + (8 : Word).toNat ≤ small.bufSize ∧ (8 : Word).toNat + (8 : Word).toNat ≤ small.bufSize ∧
    (8 : Word).toNat % 4 = 0 ∧ (0 : Word).toNat + (8 : Word).toNat ≤ (8 : Word).toNat :=
  ⟨⟨rfl, rfl, rfl⟩, by decide, by decide, by decide, by decide⟩

theorem witness_SwapTwiceInPlaceRestoresBuf : AtStart (accepted 3 56 56 8 []) ∧
    (56 : Word).toNat + (8 : Word).toNat ≤ small.bufSize ∧ (8 : Word).toNat % 4 = 0 ∧
    (accepted 3 56 56 8 []).dst = (accepted 3 56 56 8 []).src := ⟨⟨rfl, rfl, rfl⟩, by decide, by decide, rfl⟩

/-- A source one byte past the end; a destination whose only block is; a destination 4 bytes behind its source. -/
theorem witness_ChainReportsFirstError : (accepted 0x304 57 0 8 []).phase = .check ∧
    small.bufSize < (57 : Word).toNat + (8 : Word).toNat ∧
    ((0 : Word).toNat + (15 : Word).toNat ≤ small.bufSize ∧
      small.bufSize < (57 : Word).toNat + 8 * ((15 : Word).toNat / 8)) ∧
    (8 ≤ (8 : Word).toNat ∧ (4 : Word) ≠ 0 ∧ (0 : Word).toNat < (4 : Word).toNat + 8 * ((8 : Word).toNat / 8) ∧
      (4 : Word).toNat < (0 : Word).toNat + 8 * ((8 : Word).toNat / 8)) := by decide

/-- A length of 7, and one of 8 with an abort pending. -/
theorem witness_ChainStartsFeedback :
    (accepted 0x304 0 64 7 []).seq = .run ∧ (accepted 0x304 0 64 7 []).phase = .check ∧
    ((64 : Word).toNat + 8 * ((7 : Word).toNat / 8) ≤ small.bufSize ∧ (7 : Word).toNat < 8) ∧
    ({ accepted 0x304 0 8 8 [] with abortPend := true }.abortPend = true ∧
      { accepted 0x304 0 8 8 [] with abortPend := true }.abortAt = 0 ∧ 8 ≤ (8 : Word).toNat ∧
      (0 : Word).toNat + 8 * ((8 : Word).toNat / 8) ≤ (8 : Word).toNat) := by decide

theorem witness_ChainEncEnciphersOneBlock : AtElement (looping 0x304 48 0 16 [] 1 2) ∧
    (48 : Word).toNat + 8 * 1 + 8 ≤ small.bufSize ∧ (0 : Word).toNat + 8 * 1 + 8 ≤ small.bufSize :=
  ⟨⟨rfl, rfl, rfl, by decide⟩, by decide, by decide⟩

/-- For CHAIN_DEC; for CHUNK_DEC the state differs in CMD only. -/
theorem witness_ChainDecDeciphersOneBlock : AtElement (looping 0x305 48 0 16 [] 1 2) ∧
    AtElement (looping 9 48 0 16 [] 1 2) ∧
    (48 : Word).toNat + 8 * 1 + 8 ≤ small.bufSize ∧ (0 : Word).toNat + 8 * 1 + 8 ≤ small.bufSize :=
  ⟨⟨rfl, rfl, rfl, by decide⟩, ⟨rfl, rfl, rfl, by decide⟩, by decide, by decide⟩

/-- Twenty bytes, two blocks and a tail, the blocks ending where the source begins. -/
theorem witness_ChainRunsTheChain :
    AtStart (accepted 0x304 44 28 20 []) ∧ AtStart (accepted 0x305 44 28 20 []) ∧
    (44 : Word).toNat + (20 : Word).toNat ≤ small.bufSize ∧
    (28 : Word).toNat + 8 * ((20 : Word).toNat / 8) ≤ (44 : Word).toNat :=
  ⟨⟨rfl, rfl, rfl⟩, ⟨rfl, rfl, rfl⟩, by decide, by decide⟩

/-- Twelve bytes, so a tail of four at 8, in which the two states differ; the destination is the source. -/
theorem witness_ChainIgnoresTheTail :
    AtStart (accepted 0x304 0 0 12 []) ∧ (0 : Word).toNat + (12 : Word).toNat ≤ small.bufSize ∧
    (accepted 0x304 0 0 12 []).storeBytes 8 [2] = { accepted 0x304 0 0 12 [] with buf := [(8, 2)] } ∧
    (∀ a, ¬ ((0 : Word).toNat + 8 * ((12 : Word).toNat / 8) ≤ a ∧ a < (0 : Word).toNat + (12 : Word).toNat) →
      byteAt ((accepted 0x304 0 0 12 []).storeBytes 8 [2]) a = byteAt (accepted 0x304 0 0 12 []) a) := by
  refine ⟨⟨rfl, rfl, rfl⟩, by decide, rfl, fun a ha => byteAt_storeBytes_outside _ _ ?_⟩
  rw [show (0 : Word).toNat + 8 * ((12 : Word).toNat / 8) = 8 by decide,
    show (0 : Word).toNat + (12 : Word).toNat = 12 by decide] at ha
  simp only [List.length_cons, List.length_nil]
  omega

theorem witness_ChainRoundTripRestoresBytes : AtStart (accepted 0x304 0 16 16 []) ∧ (16 : Word).toNat % 8 = 0 ∧
    (0 : Word).toNat + (16 : Word).toNat ≤ (16 : Word).toNat ∧
    (48 : Word).toNat + (16 : Word).toNat ≤ small.bufSize ∧
    (16 : Word).toNat + (16 : Word).toNat ≤ (48 : Word).toNat :=
  ⟨⟨rfl, rfl, rfl⟩, by decide, by decide, by decide, by decide⟩

theorem witness_SplitChainEqualsWholeChain : (accepted 0x304 0 32 24 []).params.wf = true ∧
    AtStart (accepted 0x304 0 32 24 []) ∧ (24 : Word).toNat = 8 * (1 + 2) ∧
    (32 : Word).toNat + (24 : Word).toNat ≤ small.bufSize ∧
    (0 : Word).toNat + (24 : Word).toNat ≤ (32 : Word).toNat :=
  ⟨by decide, ⟨rfl, rfl, rfl⟩, by decide, by decide, by decide⟩

theorem witness_CheckCommandsRefuseRangePastBuf : (accepted 6 60 0 5 []).phase = .check ∧
    (accepted 6 60 0 5 []).params.bufSize < (accepted 6 60 0 5 []).src.toNat + (accepted 6 60 0 5 []).len.toNat := by
  decide

/-- The last byte of BUF. -/
theorem witness_takeOneByte : AtElement (looping 6 60 0 4 [] 3 4) ∧ AtElement (looping 8 60 0 6 [] 3 4) ∧
    (looping 6 60 0 4 [] 3 4).srcBase + 3 + 1 ≤ small.bufSize :=
  ⟨⟨rfl, rfl, rfl, by decide⟩, ⟨rfl, rfl, rfl, by decide⟩, by decide⟩

/-- SUM16 and CRC32 over the last bytes of BUF. -/
theorem witness_checkRuns : AtStart (accepted 6 60 0 4 []) ∧ AtStart (accepted 7 60 0 4 []) ∧
    (60 : Word).toNat + (4 : Word).toNat ≤ small.bufSize := ⟨⟨rfl, rfl, rfl⟩, ⟨rfl, rfl, rfl⟩, by decide⟩

/-- A frame past BUF, and one of three bytes. -/
theorem witness_ParseReportsFirstError : (accepted 8 61 0 4 []).phase = .check ∧
    small.bufSize < (61 : Word).toNat + (4 : Word).toNat ∧
    ((61 : Word).toNat + (3 : Word).toNat ≤ small.bufSize ∧ (3 : Word).toNat < 4) := by decide

/-- Frames of four bytes with a wrong trailer (V-P's ERR 5 case), with too long a table (V-P9), and that are
recorded (V-P10); and the 30-byte frame, whose table ends exactly at its bound. -/
theorem witness_ParseDecidesTheFrame :
    AtStart (accepted 8 0 0 4 [1, 0, 2, 0]) ∧ 4 ≤ (4 : Word).toNat ∧
    byteSum (accepted 8 0 0 4 [1, 0, 2, 0]) 0 2 ≠ halfAt (accepted 8 0 0 4 [1, 0, 2, 0]) 2 ∧
    byteSum (accepted 8 0 0 4 [2, 0, 2, 0]) 0 2 = halfAt (accepted 8 0 0 4 [2, 0, 2, 0]) 2 ∧
    lastIdx .excl (halfAt (accepted 8 0 0 4 [2, 0, 2, 0]) 0).toNat = 1 ∧ 4 - 2 < 8 * 1 + 12 ∧
    byteSum (accepted 8 0 0 4 [1, 0, 1, 0]) 0 2 = halfAt (accepted 8 0 0 4 [1, 0, 1, 0]) 2 ∧
    lastIdx .excl (halfAt (accepted 8 0 0 4 [1, 0, 1, 0]) 0).toNat < 1 ∧
    byteSum (accepted 8 0 0 30 frame) 0 28 = halfAt (accepted 8 0 0 30 frame) 28 ∧
    lastIdx .excl (halfAt (accepted 8 0 0 30 frame) 0).toNat = 1 ∧ 8 * 1 + 12 ≤ 30 - 2 :=
  ⟨⟨rfl, rfl, rfl⟩, by decide, by decide +kernel, by decide +kernel, by decide +kernel, by decide,
    by decide +kernel, by decide +kernel, by decide +kernel, by decide +kernel, by decide⟩

theorem witness_ParseChecksumIsSum16 : AtStart (accepted 8 60 0 4 []) ∧ (accepted 8 60 0 4 []).errCode = 0 ∧
    4 ≤ (4 : Word).toNat ∧ (60 : Word).toNat + (4 : Word).toNat ≤ small.bufSize :=
  ⟨⟨rfl, rfl, rfl⟩, rfl, by decide, by decide⟩

/-- The frame whose chunk is one byte longer. -/
def longChunk : List Byte := [2, 0, 0, 0] ++ [0, 0, 0, 0, 0, 0, 0, 0] ++ [0x14, 0, 0, 0] ++ [11, 0, 0, 0]

/-- One state for each check of CHUNK_DEC: no frame, index 0, index 2, a chunk one byte past the frame, a
destination one byte past BUF, a destination on the frame's last byte. -/
theorem witness_ChunkDecReportsFirstError :
    (EngineInv (chunkRun frame false 1 32) ∧ (chunkRun frame false 1 32).phase = .check ∧
      (chunkRun frame false 1 32).frameValid = false) ∧
    (EngineInv (chunkRun frame true 0 32) ∧ ¬ 1 ≤ (chunkRun frame true 0 32).chunkSel.toNat) ∧
    (EngineInv (chunkRun frame true 2 32) ∧ ¬ (chunkRun frame true 2 32).chunkSel.toNat ≤ lastIdx .excl 2) ∧
    (EngineInv (chunkRun longChunk true 1 32) ∧
      30 < (wordAt (chunkRun longChunk true 1 32) 12).toNat + (wordAt (chunkRun longChunk true 1 32) 16).toNat) ∧
    (EngineInv (chunkRun frame true 1 57) ∧ (wordAt (chunkRun frame true 1 57) 12).toNat +
        (wordAt (chunkRun frame true 1 57) 16).toNat ≤ 30 ∧
      64 < 57 + 8 * ((wordAt (chunkRun frame true 1 57) 16).toNat / 8)) ∧
    (EngineInv (chunkRun frame true 1 29) ∧
      29 + 8 * ((wordAt (chunkRun frame true 1 29) 16).toNat / 8) ≤ 64 ∧
      8 ≤ (wordAt (chunkRun frame true 1 29) 16).toNat ∧ 29 < 0 + 30) := by
  refine ⟨⟨chunkRun_inv _ _ _ _ (by decide), rfl, rfl⟩, ⟨chunkRun_inv _ _ _ _ (by decide), by decide⟩,
    ⟨chunkRun_inv _ _ _ _ (by decide), by decide⟩, ⟨chunkRun_inv _ _ _ _ (by decide), by decide +kernel⟩,
    ⟨chunkRun_inv _ _ _ _ (by decide), by decide +kernel, by decide +kernel⟩,
    ⟨chunkRun_inv _ _ _ _ (by decide), by decide +kernel, by decide +kernel, by decide⟩⟩

/-- The destination begins right after the frame; for ChunkDecDeciphersTheChunk and ChunkDecEqualsDecode. -/
theorem witness_ChunkDecDeciphersTheChunk :
    EngineInv (chunkRun frame true 1 30) ∧ AtStart (chunkRun frame true 1 30) ∧
    (chunkRun frame true 1 30).frameValid = true ∧ 1 ≤ (1 : Half).toNat ∧ (1 : Half).toNat ≤ lastIdx .excl 2 ∧
    (wordAt (chunkRun frame true 1 30) 12).toNat + (wordAt (chunkRun frame true 1 30) 16).toNat ≤ 30 ∧
    30 + 8 * ((wordAt (chunkRun frame true 1 30) 16).toNat / 8) ≤ 64 ∧
    meets 30 (8 * ((wordAt (chunkRun frame true 1 30) 16).toNat / 8)) 0 30 = false := by
  refine ⟨chunkRun_inv _ _ _ _ (by decide), ⟨rfl, rfl, rfl⟩, rfl, by decide, by decide, by decide +kernel,
    by decide +kernel, by decide +kernel⟩

theorem witness_ChunkViewReadsDescriptor :
    (EngineInv (reading (framed 1) .chunkOff) ∧ (reading (framed 1) .chunkOff).seq = .idle ∧
      NextReads (reading (framed 1) .status) .status [] ∧ NextReads (reading (framed 1) .chunkCount) .chunkCount [] ∧
      NextReads (reading (framed 1) .chunkOff) .chunkOff [] ∧ NextReads (reading (framed 1) .chunkLen) .chunkLen [] ∧
      (framed 1).frameValid = true ∧ 1 ≤ (1 : Half).toNat ∧ (1 : Half).toNat ≤ lastIdx .excl 2) ∧
    (EngineInv (reading (framed 2) .chunkOff) ∧ NextReads (reading (framed 2) .chunkOff) .chunkOff [] ∧
      ¬ (2 : Half).toNat ≤ lastIdx .excl 2) :=
  ⟨⟨inv_withPending (framed_inv 1) _, rfl, rfl, rfl, rfl, rfl, rfl, by decide, by decide⟩,
    ⟨inv_withPending (framed_inv 2) _, rfl, by decide⟩⟩

/-- A SWAP of two words with an abort pending: due before its first step's word, with no word, not yet due; due and not
yet due in its loop; after its last word; and PARSE after its last byte. -/
theorem witness_AbortTakenAtAbortPoint : abortable .swap = true ∧ abortable .parse = true ∧
    (let s : State := { accepted 3 0 16 8 [] with abortPend := true };
      s.seq = .run ∧ s.phase = .check ∧ s.abortPend = true ∧ swapChecks s = none ∧ 0 < elementCount s .swap ∧
      s.abortAt = 0) ∧
    (let s : State := { accepted 3 0 16 0 [] with abortPend := true };
      s.seq = .run ∧ swapChecks s = none ∧ elementCount s .swap = 0) ∧
    (let s : State := { accepted 3 0 16 8 [] with abortPend := true, abortAt := 1 };
      s.seq = .run ∧ s.phase = .check ∧ 0 < s.abortAt ∧
      answersNext (exec .swap { s with abortPend := false }) = true) ∧
    (let s : State := { looping 3 0 16 8 [] 1 2 with abortPend := true, abortAt := 1 };
      s.seq = .run ∧ s.phase = .loop ∧ s.index < s.count ∧ s.abortAt ≤ s.index) ∧
    (let s : State := { looping 3 0 16 8 [] 0 2 with abortPend := true, abortAt := 1 };
      s.seq = .run ∧ s.phase = .loop ∧ s.index < s.count ∧ s.index < s.abortAt) ∧
    (let s : State := { looping 3 0 16 8 [] 2 2 with abortPend := true };
      s.seq = .run ∧ s.phase = .loop ∧ s.count ≤ s.index) ∧
    (let s : State := { looping 8 60 0 4 [] 2 2 with abortPend := true };
      s.seq = .run ∧ s.phase = .loop ∧ s.count ≤ s.index ∧ 2 ≤ s.len.toNat ∧
      s.srcBase + s.len.toNat ≤ s.params.bufSize) := by decide +kernel

/-- An abort that is taken before word 1 ends SWAP with CUR = 4, one drawn past the last word is lost; a CUR read of an
ENC_BLOCK may return 8, one of a PARSE of four bytes 3 or 4, and one of a SWAP that fails its checks only 0
(R48, R242). -/
theorem test_finalCur :
    finalCur { accepted 3 0 16 8 [] with abortPend := true, abortAt := 1 } .swap = 4 ∧
    finalCur { accepted 3 0 16 8 [] with abortPend := true, abortAt := 2 } .swap = 8 ∧
    finalCur (accepted 1 0 0 0 []) .encBlock = 8 ∧ finalCur (accepted 8 0 0 4 []) .parse = 4 ∧
    finalCur (accepted 3 0 4 8 []) .swap = 0 := by decide +kernel

theorem witness_AbortRequestRemembered : (2 : Word).getLsbD 0 = false ∧ (2 : Word).getLsbD 1 = true ∧
    (NextWrites (writing (accepted 3 0 16 8 []) .ctrl 2) .ctrl 2 [] ∧
      decode true (accepted 3 0 16 8 []).cmd = .ok .swap ∧ abortable .swap = true) ∧
    { accepted 3 0 16 8 [] with abortPend := true }.abortPend = true ∧ (accepted 3 0 16 8 []).abortPend = false ∧
    (NextWrites (writing (accepted 1 0 16 8 []) .ctrl 2) .ctrl 2 [] ∧
      decode true (accepted 1 0 16 8 []).cmd = .ok .encBlock ∧ abortable .encBlock = false) ∧
    (NextWrites (writing engine .ctrl 2) .ctrl 2 [] ∧ engine.seq = .idle) :=
  ⟨by decide, by decide, ⟨rfl, rfl, rfl⟩, rfl, rfl, ⟨rfl, rfl, rfl⟩, rfl, rfl⟩

theorem witness_BusyRegisterWriteIgnored : (writing (accepted 3 0 16 8 []) .src 5).seq = .run ∧
    NextWrites (writing (accepted 3 0 16 8 []) .src 5) .src 5 [] ∧
    Reg.src ≠ .ctrl ∧ Reg.src ≠ .intStatus ∧ Reg.src ≠ .intEnable := ⟨rfl, rfl, by decide, by decide, by decide⟩

/-- A byte access while a command runs, and on the idle engine a word access that ends one byte past BUF, and a
misaligned halfword and word access inside it. -/
theorem witness_BufAccessRefused : (0 : Nat) < 0x1000000 ∧ (accepted 3 0 16 8 []).seq = .run ∧
    (Width.word.bytes = some 4 ∧ engine.params.bufSize < 61 + 4) ∧
    (Width.half.bytes = some 2 ∧ 61 % 2 ≠ 0 ∧ 61 + 2 ≤ engine.params.bufSize) ∧
    (Width.word.bytes = some 4 ∧ 58 % 4 ≠ 0 ∧ 58 + 4 ≤ engine.params.bufSize) ∧
    { engine with pending := [.host (.write (0x1000 + (0x1000000 + 61)) .word 0)] }.pending =
      [.host (.write (engine.params.hostBase + (0x1000000 + 61)) .word 0)] ∧
    { engine with pending := [.host (.read (0x1000 + (0x1000000 + 61)) .word)] }.pending =
      [.host (.read (engine.params.hostBase + (0x1000000 + 61)) .word)] := by decide

/-- The first reserved offset, the last below 0x100, and both ends of the reserved range, the last word of which that
lies in it and the last that begins in it. -/
theorem witness_ReservedOffsetsReadZero :
    (0x34 < 0x100 ∧ 0x34 % 4 = 0 ∧ regAt 0x34 = none) ∧ (0xFC < 0x100 ∧ 0xFC % 4 = 0 ∧ regAt 0xFC = none) ∧
    (0x100 ≤ 0x100 ∧ 0x100 < 0x1000000) ∧ (0x100 ≤ 0xFFFFFC ∧ 0xFFFFFC < 0x1000000) ∧
    (0x100 ≤ 0xFFFFFF ∧ 0xFFFFFF < 0x1000000) ∧
    { engine with pending := [.host (.read (0x1000 + 0x101) .half)] }.pending =
      [.host (.read (engine.params.hostBase + 0x101) .half)] ∧
    { engine with pending := [.host (.write (0x1000 + 0xFFFFFF) .byte 7)] }.pending =
      [.host (.write (engine.params.hostBase + 0xFFFFFF) .byte 7)] ∧
    (∀ r : Reg, r.offset ≠ 0x34 ∧ r.offset ≠ 0xFC) := by
  refine ⟨by decide, by decide, by decide, by decide, by decide, by decide, by decide, fun r => ?_⟩
  cases r <;> decide

theorem witness_BadRegisterAccessRefused : 0x28 < 0x100 ∧ Width.half ≠ .word ∧ 0x2A % 4 ≠ 0 ∧
    { engine with pending := [.host (.read (0x1000 + 0x2A) .word)] }.pending =
      [.host (.read (engine.params.hostBase + 0x2A) .word)] ∧
    { engine with pending := [.host (.write (0x1000 + 0x28) .half 7)] }.pending =
      [.host (.write (engine.params.hostBase + 0x28) .half 7)] := by decide

/-- SRC, each narrower register, and a read-only one. -/
theorem witness_IdleRegisterWriteHoldsValue : engine.seq = .idle ∧
    (NextWrites (writing engine .src 5) .src 5 [] ∧ step (writing engine .src 5) = .next { engine with src := 5 }) ∧
    (NextWrites (writing engine .intEnable 15) .intEnable 15 [] ∧
      step (writing engine .intEnable 15) = .next { engine with intEnable := 7 }) ∧
    (NextWrites (writing engine .crcCfg 4) .crcCfg 4 [] ∧
      step (writing engine .crcCfg 4) = .next { engine with crcCfg := 0 }) ∧
    (NextWrites (writing engine .chunkSel 0x10001) .chunkSel 0x10001 [] ∧
      step (writing engine .chunkSel 0x10001) = .next { engine with chunkSel := 1 }) ∧
    (NextWrites (writing engine .cur 5) .cur 5 [] ∧ step (writing engine .cur 5) = .next engine) :=
  ⟨rfl, ⟨rfl, rfl⟩, ⟨rfl, rfl⟩, ⟨rfl, rfl⟩, ⟨rfl, rfl⟩, rfl, rfl⟩

/-- The last word of BUF; for HostBufWriteStoresLittleEndian and HostBufReadReturnsLittleEndian. -/
theorem witness_HostBufAccess : engine.seq = .idle ∧ Width.word.bytes = some 4 ∧ 60 % 4 = 0 ∧
    60 + 4 ≤ engine.params.bufSize ∧ engine.params.wf = true ∧
    { engine with pending := [.host (.write (0x1000 + (0x1000000 + 60)) .word 0x04030201)] }.pending =
      [.host (.write (engine.params.hostBase + (0x1000000 + 60)) .word 0x04030201)] ∧
    { engine with pending := [.host (.read (0x1000 + (0x1000000 + 60)) .word)] }.pending =
      [.host (.read (engine.params.hostBase + (0x1000000 + 60)) .word)] := by decide

theorem witness_BusyCursorReadIsBounded : EngineInv (reading (chunkRun frame true 1 32) .cur) ∧
    (reading (chunkRun frame true 1 32) .cur).seq = .run ∧
    decode true (reading (chunkRun frame true 1 32) .cur).cmd = .ok .chunkDec ∧
    NextReads (reading (chunkRun frame true 1 32) .cur) .cur [] ∧
    NextReads (reading (chunkRun frame true 1 32) .status) .status [] ∧
    NextReads (reading (chunkRun frame true 1 32) .fb0) .fb0 [] ∧
    NextReads (reading (chunkRun frame true 1 32) .chkRef) .chkRef [] :=
  ⟨inv_withPending (chunkRun_inv _ _ _ _ (by decide)) _, rfl, rfl, rfl, rfl, rfl, rfl⟩

theorem witness_HostReadHasNoSideEffect : ∃ t,
    (reading engine .id).pending = .host (.read 0x1000 .word) :: [] ∧ step (reading engine .id) = .next t :=
  ⟨_, rfl, rfl⟩

/-- Both registers, idle and while a command runs. -/
theorem witness_IntStatusWriteOneToClear : NextWrites (writing engine .intStatus 7) .intStatus 7 [] ∧
    NextWrites (writing (accepted 3 0 16 8 []) .intStatus 7) .intStatus 7 [] ∧
    NextWrites (writing engine .intEnable 7) .intEnable 7 [] ∧
    NextWrites (writing (accepted 3 0 16 8 []) .intEnable 7) .intEnable 7 [] ∧
    (writing (accepted 3 0 16 8 []) .intEnable 7).seq = .run := ⟨rfl, rfl, rfl, rfl, rfl⟩

/-- A clearing write, a soft reset and a power-on reset, each on an engine with DONE_IS pending. -/
theorem witness_PendingBitsStayUntilCleared :
    let s := { engine with intStatus := 1 }
    (∃ t, step (writing s .intStatus 1) = .next t ∧ t.intStatus.getLsbD 0 = false) ∧
    (∃ t, step (writing s .ctrl 1) = .next t ∧ t.intStatus.getLsbD 0 = false) ∧
    (∃ t, step { s with pending := [.powerOn] } = .next t ∧ t.intStatus.getLsbD 0 = false) ∧
    s.intStatus.getLsbD 0 = true :=
  ⟨⟨_, rfl, rfl⟩, ⟨_, rfl, rfl⟩, ⟨_, rfl, rfl⟩, rfl⟩

theorem witness_OnlyCmdWriteStartsSequencer : ∃ t, engine.seq = .idle ∧
    step (writing engine .cmd 3) = .next t ∧ t.seq = .run := ⟨_, rfl, rfl, rfl⟩

theorem witness_CommandsWriteOnlyTheirRegisters : ∃ t, exec .nop engine = .next t := ⟨_, rfl⟩

/-- A soft reset of the idle engine, and of one running a SWAP. -/
theorem witness_SoftResetRestoresRegisters : NextWrites (writing engine .ctrl 3) .ctrl 3 [] ∧
    NextWrites (writing (accepted 3 0 16 8 []) .ctrl 1) .ctrl 1 [] ∧ (3 : Word).getLsbD 0 = true ∧
    engine.seq = .idle ∧ (accepted 3 0 16 8 []).seq = .run ∧
    decode true (accepted 3 0 16 8 []).cmd = .ok .swap := ⟨rfl, rfl, rfl, rfl, rfl, rfl⟩

theorem witness_ResetRegisterValues : { engine with cmd := 3, pending := [.powerOn] }.pending = [.powerOn] := rfl

/-- The bounds of R7: 8, and 16 MiB. -/
theorem witness_InvHoldsAtReset : ({ small with bufSize := 8 } : Params).wf = true ∧
    ({ small with bufSize := 0x1000000 } : Params).wf = true := by decide

/-- For EveryStepKeepsInv and NoStepLeavesBuf: a running engine with a frame, and a step it takes. -/
theorem witness_EveryStepKeepsInv : EngineInv (chunkRun frame true 1 57) ∧
    ∃ t, step (chunkRun frame true 1 57) = .next t := by
  refine ⟨chunkRun_inv _ _ _ _ (by decide), ?_⟩
  have h : answersNext (step (chunkRun frame true 1 57)) = true := by decide +kernel
  revert h
  cases step (chunkRun frame true 1 57) with
  | next t => exact fun _ => ⟨t, rfl⟩
  | fault r => exact fun h => nomatch h
  | refused r => exact fun h => nomatch h

theorem witness_EveryCommandCompletes : EngineInv (chunkRun frame true 1 30) ∧
    (chunkRun frame true 1 30).seq = .run ∧ (chunkRun frame true 1 30).phase = .check ∧
    decode (chunkRun frame true 1 30).params.hasCrc32 (chunkRun frame true 1 30).cmd = .ok .chunkDec :=
  ⟨chunkRun_inv _ _ _ _ (by decide), rfl, rfl, rfl⟩

end Sys2Proof.Machine.Tests
end

section
/-! Byte order and reset (spec/00_scope.md R7 to R10): the bytes of a reversed word, the word view of BUF with
either byte order, and the invariant of a freshly reset engine. -/

namespace Sys2Proof.Machine

/-! ### The reversed word -/

/-- Byte `i` of a word is byte `3 - i` of the reversed word (R9, R140). -/
theorem byteOf_bswap32 (w : Word) {i : Nat} (hi : i < 4) : byteOf (bswap32 w) i = byteOf w (3 - i) := by
  match i, hi with
  | 0, _ => exact byteOf_wordOfBytes_zero ..
  | 1, _ => exact byteOf_wordOfBytes_one ..
  | 2, _ => exact byteOf_wordOfBytes_two ..
  | 3, _ => exact byteOf_wordOfBytes_three ..

/-- The reversed word as a number: byte 0 of the word is its highest byte (R9). -/
theorem toNat_bswap32 (w : Word) : (bswap32 w).toNat =
    (byteOf w 3).toNat + 0x100 * (byteOf w 2).toNat + 0x10000 * (byteOf w 1).toNat
      + 0x1000000 * (byteOf w 0).toNat := by
  rw [bswap32, toNat_wordOfBytes]

/-- Settles O11: the reversed word is put together from the word's bytes, the highest first. -/
theorem bswapReversesBytes : Obligations.BswapReversesBytes :=
  fun w => ⟨bswap32_bswap32 w, toNat_bswap32 w⟩

/-! ### The word view of BUF -/

/-- A word read inside BUF, in either byte order (R86). -/
theorem rdWord_inside {s : State} {a : Nat} {swap : Bool} (h : a + 4 ≤ s.params.bufSize) :
    rdWord s a swap = .next (orderWord swap (wordAt s a)) := by
  rw [rdWord, memRead32_inside h, andThen_next]

/-- A word write inside BUF, in either byte order (R86). -/
theorem wrWord_inside {s : State} {a : Nat} {v : Word} {swap : Bool} (h : a + 4 ≤ s.params.bufSize) :
    wrWord s a v swap = .next (s.storeBytes a (bytesOfWord (orderWord swap v) 4)) :=
  memWrite_inside (by simpa using h)

/-- The word seen with the bytes reversed has the byte at the lowest address in bits 31 to 24 (R88). -/
theorem toNat_bswap32_wordAt (s : State) (a : Nat) : (bswap32 (wordAt s a)).toNat =
    0x1000000 * (byteAt s a).toNat + 0x10000 * (byteAt s (a + 1)).toNat + 0x100 * (byteAt s (a + 2)).toNat
      + (byteAt s (a + 3)).toNat := by
  rw [wordAt, bswap32_wordOfBytes, toNat_wordOfBytes]
  omega

/-- Byte `i` of a stored word lies at the word's address plus `i` (R10, R87). -/
theorem byteAt_storeBytes_word (s : State) (a : Nat) (w : Word) {i : Nat} (hi : i < 4) :
    byteAt (s.storeBytes a (bytesOfWord w 4)) (a + i) = byteOf w i :=
  byteAt_of_wordAt (wordAt_storeBytes s a w) i hi

/-- A word stored with its bytes reversed has byte `3 - i` at its address plus `i` (R88). -/
theorem byteAt_storeBytes_bswap32 (s : State) (a : Nat) (v : Word) {i : Nat} (hi : i < 4) :
    byteAt (s.storeBytes a (bytesOfWord (bswap32 v) 4)) (a + i) = byteOf v (3 - i) := by
  rw [byteAt_storeBytes_word s a _ hi, byteOf_bswap32 v hi]

/-- Settles O12: the swapped view reads and stores the reversed word of the little-endian view. -/
theorem bigEndianWordView : Obligations.BigEndianWordView := by
  intro s a v h
  refine ⟨⟨_, rdWord_inside h, toNat_bswap32_wordAt s a⟩, _, wrWord_inside h, ?_⟩
  have hbyte {i : Nat} (hi : i < 4) := byteAt_storeBytes_bswap32 s a v hi
  have hframe (c : Nat) (hc : c < a ∨ a + 4 ≤ c) :=
    byteAt_storeBytes_outside s (bytesOfWord (bswap32 v) 4) (a := a) (c := c) (by simpa using hc)
  exact ⟨hbyte (i := 0) (by omega), hbyte (i := 1) (by omega), hbyte (i := 2) (by omega),
    hbyte (i := 3) (by omega), rfl, hframe⟩

/-! ### Reset -/

/-- The reset state is idle, with an empty BUF list, a zero cursor and no error or frame, so only the bounds of R7
remain of the invariant (R290). -/
theorem engineInv_resetWith {p : Params} (hp : p.wf = true) : EngineInv (State.resetWith p) where
  params := hp
  canonical := rfl
  inside := rfl
  cursor := Nat.zero_le _
  codes := Nat.zero_le _
  errDone := fun h => absurd rfl h
  frame := fun h => nomatch h
  quiet := fun _ => rfl
  running := fun h => nomatch h
  seen := fun _ => Nat.le_refl _

/-- The suggested parameters are within the bounds of R7. -/
theorem suggested_wf : Params.suggested.wf = true := by decide

/-- Settles O57: the suggested parameters are one choice within the bounds. -/
theorem invHoldsAtReset : Obligations.InvHoldsAtReset :=
  ⟨fun _ => engineInv_resetWith, engineInv_resetWith suggested_wf⟩

end Sys2Proof.Machine
end

section
/-! The invariant through one step of a running command (spec/60_exceptions.md R260 to R262, R304). A running command
is before its checks (`AtCheck`) or in its loop (`InLoop`); one lemma each says what the start, one element and the end
of a command do to such a state, and `exec_outcome` says what any step of any command then leaves. -/

namespace Sys2Proof.Machine

/-! ### The part of the invariant that speaks of BUF, CUR and the recorded frame -/

/-- The clauses of `EngineInv` that no completion, error or start of a command can touch. -/
structure StoreInv (s : State) : Prop where
  params : s.params.wf = true
  canonical : memWf s.buf = true
  inside : memBelow s.params.bufSize s.buf = true
  cursor : s.cur.toNat ≤ s.params.bufSize
  frame : s.frameValid = true → FrameFits s

theorem EngineInv.store {s : State} (h : EngineInv s) : StoreInv s :=
  ⟨h.params, h.canonical, h.inside, h.cursor, h.frame⟩

/-- The bounds of R7 as inequalities. -/
theorem StoreInv.bufSize_bounds {s : State} (h : StoreInv s) :
    8 ≤ s.params.bufSize ∧ s.params.bufSize ≤ 0x1000000 := by
  have hw := h.params
  simp only [Params.wf, Bool.and_eq_true, decide_eq_true_eq] at hw
  exact ⟨hw.1.2, hw.2⟩

/-- Every descriptor with a valid index lies in BUF (R215). -/
theorem StoreInv.descriptor_inside {s : State} (h : StoreInv s) (hf : s.frameValid = true)
    (hv : validIndex s s.chunkSel.toNat = true) :
    chunkOffAddr s s.chunkSel.toNat + 4 ≤ s.params.bufSize ∧
      chunkLenAddr s s.chunkSel.toNat + 4 ≤ s.params.bufSize := by
  obtain ⟨_, hframe, htable⟩ := h.frame hf
  obtain ⟨h1, hlast⟩ := validIndex_eq_true.1 hv
  have := htable (h1.trans hlast)
  unfold chunkOffAddr chunkLenAddr
  omega

/-- CHUNK_DEC's checks never leave BUF (R84, R215). -/
theorem StoreInv.chunkChecks_answer {s : State} (h : StoreInv s) : ∃ c, chunkChecks s = .next c := by
  unfold chunkChecks
  split_ifs with hf hv
  · exact ⟨_, rfl⟩
  · exact ⟨_, rfl⟩
  · obtain ⟨ho, hl⟩ := h.descriptor_inside (by simpa using hf) (by simpa using hv)
    rw [memRead32_inside ho, andThen_next, memRead32_inside hl, andThen_next]
    exact ⟨_, rfl⟩

/-- The checks of every command answer (R84). -/
theorem StoreInv.commandChecks_answer {s : State} (h : StoreInv s) (i : Instr) :
    ∃ c, commandChecks s i = .next c := by
  cases i with
  | chunkDec => exact h.chunkChecks_answer
  | _ => exact ⟨_, rfl⟩

/-! ### Idle engines -/

/-- The invariant of an idle engine, of which nothing runs. -/
theorem StoreInv.engineInv_idle {s : State} (h : StoreInv s) (hidle : s.seq = .idle) (codes : s.errCode.toNat ≤ 9)
    (errDone : s.errCode ≠ 0 → s.done = true) (quiet : s.abortPend = false)
    (seen : s.curSeen.toNat ≤ s.cur.toNat) : EngineInv s where
  params := h.params
  canonical := h.canonical
  inside := h.inside
  cursor := h.cursor
  codes := codes
  errDone := errDone
  frame := h.frame
  quiet := fun _ => quiet
  running := fun hr => by rw [hidle] at hr; nomatch hr
  seen := fun _ => seen

/-- A successful completion of a running command leaves the invariant (R261). -/
theorem StoreInv.engineInv_complete {s : State} (h : StoreInv s) (he : s.errCode = 0)
    (hseen : s.curSeen.toNat ≤ s.cur.toNat) : EngineInv s.complete :=
  StoreInv.engineInv_idle ⟨h.params, h.canonical, h.inside, h.cursor, h.frame⟩ rfl (by simp [he]) (fun _ => rfl) rfl
    hseen

/-- Only the codes of R263 are produced. -/
theorem code_le_nine (e : CmdError) : e.code.toNat ≤ 9 := by cases e <;> decide

/-- An error completion leaves the invariant (R262). -/
theorem StoreInv.engineInv_raiseError {s : State} (h : StoreInv s) (e : CmdError) (info : Word)
    (hseen : s.curSeen.toNat ≤ s.cur.toNat) : EngineInv (s.raiseError e info) :=
  StoreInv.engineInv_idle ⟨h.params, h.canonical, h.inside, h.cursor, h.frame⟩ rfl (code_le_nine e) (fun _ => rfl) rfl
    hseen

/-! ### Running commands -/

/-- A command is accepted and its checks are still to be made: `EngineInv` of such an engine, clause by clause. -/
structure AtCheck (i : Instr) (s : State) : Prop extends StoreInv s where
  run : s.seq = .run
  command : currentCommand s = .ok i
  unfinished : s.done = false
  noError : s.errCode = 0
  noInfo : s.errInfo = 0
  abort : s.abortPend = true → abortable i = true
  seen : s.curSeen.toNat ≤ finalCur s i
  grain : s.curSeen.toNat % granule i = 0
  phase : s.phase = .check
  cur : s.cur = 0
  index : s.index = 0

/-- A command is in its loop: `EngineInv` of such an engine, clause by clause. -/
structure InLoop (i : Instr) (s : State) : Prop extends StoreInv s where
  run : s.seq = .run
  command : currentCommand s = .ok i
  unfinished : s.done = false
  noError : s.errCode = 0
  noInfo : s.errInfo = 0
  abort : s.abortPend = true → abortable i = true ∧ s.index ≤ s.abortAt
  seen : s.curSeen.toNat ≤ endingCur s s.count i
  grain : s.curSeen.toNat % granule i = 0
  phase : s.phase = .loop
  bound : s.index ≤ s.count
  cur : s.cur.toNat = granule i * s.index
  ranges : RangesFit s i

/-- The invariant of a running engine is that of its command. -/
theorem StoreInv.engineInv_running {i : Instr} {s : State} (h : StoreInv s) (hr : s.seq = .run)
    (hi : currentCommand s = .ok i) (hf : RunningFits s i) : EngineInv s where
  params := h.params
  canonical := h.canonical
  inside := h.inside
  cursor := h.cursor
  codes := by obtain ⟨-, he, -⟩ := hf; simp [he]
  errDone := fun hne => by obtain ⟨-, he, -⟩ := hf; exact absurd he hne
  frame := h.frame
  quiet := fun hidle => by rw [hr] at hidle; nomatch hidle
  running := fun _ => ⟨i, hi, hf⟩
  seen := fun hidle => by rw [hr] at hidle; nomatch hidle

theorem AtCheck.engineInv {i : Instr} {s : State} (h : AtCheck i s) : EngineInv s :=
  h.engineInv_running h.run h.command ⟨h.unfinished, h.noError, h.noInfo,
    fun ha => ⟨h.abort ha, by rw [h.index]; exact Nat.zero_le _⟩, h.seen, h.grain,
    by simp [Progress, h.phase, h.cur, h.index]⟩

theorem InLoop.engineInv {i : Instr} {s : State} (h : InLoop i s) : EngineInv s :=
  h.engineInv_running h.run h.command ⟨h.unfinished, h.noError, h.noInfo, h.abort,
    by rw [finalCur_loop h.phase]; exact h.seen, h.grain,
    by simpa [Progress, h.phase] using ⟨h.bound, h.cur, h.ranges⟩⟩

/-- The invariant says of a running command that it is before its checks or in its loop. -/
theorem EngineInv.atCheck_or_inLoop {i : Instr} {s : State} (h : EngineInv s) (hr : s.seq = .run)
    (hi : currentCommand s = .ok i) : AtCheck i s ∨ InLoop i s := by
  obtain ⟨j, hj, hdone, herr, hinfo, habort, hseen, hgrain, hprog⟩ := h.running hr
  obtain rfl : i = j := by rw [hi] at hj; exact Except.ok.inj hj
  cases hp : s.phase with
  | check =>
    obtain ⟨hcur, hindex⟩ : s.cur = 0 ∧ s.index = 0 := by simpa [Progress, hp] using hprog
    exact .inl ⟨h.store, hr, hi, hdone, herr, hinfo, fun ha => (habort ha).1, hseen, hgrain, hp, hcur, hindex⟩
  | loop =>
    obtain ⟨hbound, hcur, hranges⟩ : s.index ≤ s.count ∧ s.cur.toNat = granule i * s.index ∧ RangesFit s i := by
      simpa [Progress, hp] using hprog
    rw [finalCur_loop hp] at hseen
    exact .inr ⟨h.store, hr, hi, hdone, herr, hinfo, habort, hseen, hgrain, hp, hbound, hcur, hranges⟩

/-! ### The CUR a loop ends with -/

/-- A loop whose ranges lie in BUF consumes no more bytes than BUF has (R33). -/
theorem consumed_le_bufSize {s : State} {i : Instr} (h : RangesFit s i) : granule i * s.count ≤ s.params.bufSize := by
  cases i <;> simp only [RangesFit, granule] at h ⊢ <;> omega

/-- A loop that has consumed every element ends with the CUR of its completion: an abort still pending is lost
(R242). -/
theorem InLoop.endingCur_at_end {i : Instr} {s : State} (h : InLoop i s) (he : s.index = s.count) :
    endingCur s s.count i = completedCur s s.count i :=
  endingCur_completed fun ha => he ▸ (h.abort ha).2

/-- An abort that is due is taken before the very element it was drawn for, so CUR is as a read foresaw it (R48,
R242). -/
theorem InLoop.endingCur_at_abort {i : Instr} {s : State} (h : InLoop i s) (hlt : s.index < s.count)
    (ha : abortDue s = true) : endingCur s s.count i = s.cur.toNat := by
  obtain ⟨hpend, hat⟩ := abortDue_eq_true.1 ha
  have heq : s.abortAt = s.index := Nat.le_antisymm hat (h.abort hpend).2
  rw [endingCur_aborted hpend (heq ▸ hlt), h.cur, heq]

/-! ### What one step leaves -/

/-- The number of sequencer steps a running command still needs at most (R304). -/
def stepsLeft (s : State) (i : Instr) : Nat :=
  match s.phase with
  | .check => max 1 (elementCount s i) + 1
  | .loop => s.count - s.index + 1

theorem stepsLeft_check {s : State} {i : Instr} (h : s.phase = .check) :
    stepsLeft s i = max 1 (elementCount s i) + 1 := by simp [stepsLeft, h]

theorem stepsLeft_loop {s : State} {i : Instr} (h : s.phase = .loop) :
    stepsLeft s i = s.count - s.index + 1 := by simp [stepsLeft, h]

/-- A command has ended, with the final CUR that bounded its CUR reads. -/
structure Ended (final : Nat) (t : State) : Prop where
  inv : EngineInv t
  idle : t.seq = .idle
  done : t.done = true
  cur : t.cur.toNat = final

/-- A step of command `i` from `s` ends it, or leaves it in its loop with the same final CUR and fewer steps to
take. -/
inductive StepOutcome (i : Instr) (s t : State) : Prop where
  | ended (h : Ended (finalCur s i) t)
  | goesOn (h : InLoop i t) (final : finalCur t i = finalCur s i) (fewer : stepsLeft t i < stepsLeft s i)

theorem StepOutcome.engineInv {i : Instr} {s t : State} (h : StepOutcome i s t) : EngineInv t := by
  cases h with
  | ended h => exact h.inv
  | goesOn h => exact h.engineInv

/-- One element of a loop is processed: one more granule is consumed, and of the registers only BUF, the feedback and
the hidden working state change. -/
inductive Element (i : Instr) (s : State) : State → Prop where
  | mk (buf : List Host.Cell) (fb latch : Block) (sum16 : Half) (crc roundSum : Word) (round : BitVec 5)
      (canonical : memWf buf = true) (inside : memBelow s.params.bufSize buf = true) :
      Element i s { s with buf := buf, fb := fb, latch := latch, sum16 := sum16, crc := crc, roundSum := roundSum,
                           round := round, index := s.index + 1,
                           cur := BitVec.ofNat 32 (granule i * (s.index + 1)) }

/-- The start of a loop: the working state is set, and a recorded frame may be invalidated. -/
inductive Started (i : Instr) (s : State) : State → Prop where
  | mk (fb : Block) (frameValid : Bool) (srcBase : Nat) (sum16 : Half) (crc : Word)
      (lowered : frameValid = true → s.frameValid = true) :
      Started i s { s with fb := fb, frameValid := frameValid, srcBase := srcBase, sum16 := sum16, crc := crc,
                           phase := .loop, index := 0, count := elementCount s i }

/-- A processed element keeps the invariant, and with it the CUR the command ends with. -/
theorem InLoop.after_element {i : Instr} {s t : State} (h : InLoop i s) (hlt : s.index < s.count)
    (ha : abortDue s = false) (he : Element i s t) :
    InLoop i t ∧ t.index = s.index + 1 ∧ t.count = s.count ∧ endingCur t t.count i = endingCur s s.count i := by
  have hsize := h.bufSize_bounds
  have hextent := consumed_le_bufSize h.ranges
  have hstep : granule i * (s.index + 1) ≤ granule i * s.count := Nat.mul_le_mul_left _ hlt
  have hcur : (BitVec.ofNat 32 (granule i * (s.index + 1))).toNat = granule i * (s.index + 1) := by
    rw [BitVec.toNat_ofNat]; exact Nat.mod_eq_of_lt (by omega)
  have habort : s.abortPend = true → s.index < s.abortAt := fun hp => by
    by_contra hle
    rw [abortDue_eq_true.2 ⟨hp, Nat.le_of_not_lt hle⟩] at ha
    nomatch ha
  obtain ⟨buf, fb, latch, sum16, crc, roundSum, round, canonical, inside⟩ := he
  exact ⟨⟨⟨h.params, canonical, inside, hcur.trans_le (hstep.trans hextent), h.frame⟩, h.run, h.command,
    h.unfinished, h.noError, h.noInfo, fun hp => ⟨(h.abort hp).1, habort hp⟩, h.seen, h.grain, h.phase, hlt, hcur,
    h.ranges⟩, rfl, rfl, rfl⟩

/-- A processed element leaves one step fewer. -/
theorem InLoop.element {i : Instr} {s t : State} (h : InLoop i s) (hlt : s.index < s.count)
    (ha : abortDue s = false) (he : Element i s t) : StepOutcome i s t := by
  obtain ⟨ht, hindex, hcount, hending⟩ := h.after_element hlt ha he
  refine .goesOn ht ?_ ?_
  · rw [finalCur_loop ht.phase, finalCur_loop h.phase, hending]
  · rw [stepsLeft_loop ht.phase, stepsLeft_loop h.phase, hindex, hcount]
    omega

/-- The start of a loop whose ranges lie in BUF enters it with the final CUR the acceptance foresaw. -/
theorem AtCheck.started {i : Instr} {s t : State} (h : AtCheck i s) (hc : commandChecks s i = .next none)
    (hs : Started i s t) (hr : RangesFit t i) :
    InLoop i t ∧ finalCur t i = finalCur s i ∧ t.index = 0 ∧ t.count = elementCount s i := by
  have hfinal : finalCur s i = endingCur s (elementCount s i) i := finalCur_passed h.phase hc
  obtain ⟨fb, frameValid, srcBase, sum16, crc, lowered⟩ := hs
  refine ⟨⟨⟨h.params, h.canonical, h.inside, h.cursor, fun hf => h.frame (lowered hf)⟩, h.run, h.command,
    h.unfinished, h.noError, h.noInfo, fun hp => ⟨h.abort hp, Nat.zero_le _⟩, ?_, h.grain, rfl, Nat.zero_le _, ?_, hr⟩,
    ?_, rfl, rfl⟩
  · have := h.seen
    rw [hfinal] at this
    exact this
  · show s.cur.toNat = granule i * 0
    rw [h.cur]
    rfl
  · rw [hfinal]
    rfl

/-- One step of a loop, from what its element and its end do. -/
theorem InLoop.loopStep_outcome {i : Instr} {s : State} {body last : State → Result State} (h : InLoop i s)
    (hbody : s.index < s.count → ∃ t, body s = .next t ∧ Element i s t)
    (hlast : s.index = s.count → ∃ t, last s = .next t ∧ Ended (completedCur s s.count i) t) :
    ∃ t, loopStep body last s = .next t ∧ StepOutcome i s t := by
  by_cases hlt : s.index < s.count
  · cases ha : abortDue s with
    | false =>
      obtain ⟨t, hb, he⟩ := hbody hlt
      exact ⟨t, (loopStep_more hlt ha).trans hb, h.element hlt ha he⟩
    | true =>
      have hcur := h.endingCur_at_abort hlt ha
      have hseen : s.curSeen.toNat ≤ s.cur.toNat := hcur ▸ h.seen
      exact ⟨_, loopStep_abort hlt ha, .ended ⟨h.engineInv_raiseError _ _ hseen, rfl, rfl,
        by rw [finalCur_loop h.phase, hcur]; rfl⟩⟩
  · have heq : s.index = s.count := Nat.le_antisymm h.bound (Nat.le_of_not_lt hlt)
    obtain ⟨t, hl, hend⟩ := hlast heq
    refine ⟨t, (loopStep_last hlt).trans hl, .ended ?_⟩
    rw [finalCur_loop h.phase, h.endingCur_at_end heq]
    exact hend

/-- A failed check ends a command with CUR 0, the only value a CUR read could have returned (R33, R48). -/
theorem AtCheck.failed {i : Instr} {s : State} {e : CmdError} {info : Word} (h : AtCheck i s)
    (hc : commandChecks s i = .next (some (e, info))) : Ended (finalCur s i) (s.raiseError e info) := by
  have hfinal := finalCur_failed h.phase hc
  have hseen := h.seen
  rw [hfinal] at hseen ⊢
  exact ⟨h.engineInv_raiseError _ _ (hseen.trans (Nat.zero_le _)), rfl, rfl, by simp [h.cur]⟩

/-- One step of a looping command, from what its start, its element and its end do. -/
theorem commandStep_outcome {i : Instr} {s : State} {checks : State → Result CheckResult} {start : State → State}
    {body last : State → Result State} (h : AtCheck i s ∨ InLoop i s) (hchecks : checks s = commandChecks s i)
    (hstart : commandChecks s i = .next none → Started i s (start s) ∧ RangesFit (start s) i)
    (hbody : ∀ u, InLoop i u → u.index < u.count → ∃ t, body u = .next t ∧ Element i u t)
    (hlast : ∀ u, InLoop i u → u.index = u.count →
      ∃ t, last u = .next t ∧ Ended (completedCur u u.count i) t) :
    ∃ t, commandStep checks start body last s = .next t ∧ StepOutcome i s t := by
  rcases h with h | h
  · obtain ⟨c, hc⟩ := h.commandChecks_answer i
    match c, hc with
    | some (e, info), hc =>
      exact ⟨_, commandStep_failed h.phase (hchecks.trans hc), .ended (h.failed hc)⟩
    | none, hc =>
      obtain ⟨hs, hr⟩ := hstart hc
      obtain ⟨hloop, hfinal, hindex, hcount⟩ := h.started hc hs hr
      obtain ⟨t, ht, hout⟩ := hloop.loopStep_outcome (hbody _ hloop) (hlast _ hloop)
      refine ⟨t, (commandStep_passed h.phase (hchecks.trans hc)).trans ht, ?_⟩
      cases hout with
      | ended hend => exact .ended (hfinal ▸ hend)
      | goesOn ht' hfin hfewer =>
        refine .goesOn ht' (hfin.trans hfinal) (hfewer.trans_le ?_)
        rw [stepsLeft_loop hloop.phase, stepsLeft_check h.phase, hindex, hcount]
        omega
  · obtain ⟨t, ht, hout⟩ := h.loopStep_outcome (hbody s h) (hlast s h)
    exact ⟨t, (commandStep_loop h.phase).trans ht, hout⟩

end Sys2Proof.Machine
end

section
/-! One step of each command under the invariant (spec/40_byteorder.md to spec/45_control.md): what its start, one
element and its end do, and from these that every step of every command answers, keeps the invariant and brings the
command nearer to the final CUR its reads were bounded by. -/

namespace Sys2Proof.Machine

/-! ### Starts: the ranges the checks have established -/

theorem swap_started {s : State} (hc : commandChecks s .swap = .next none) :
    Started .swap s (swapStart s) ∧ RangesFit (swapStart s) .swap := by
  obtain ⟨hsrc, hdst, -, -⟩ := swapChecks_eq_none.1 (Host.Outcome.next.inj hc)
  refine ⟨.mk s.fb _ s.src.toNat s.sum16 s.crc fun hf => (Bool.and_eq_true_iff.1 hf).1, ?_⟩
  show s.src.toNat + 4 * (s.len.toNat / 4) ≤ s.params.bufSize ∧ s.dst.toNat + 4 * (s.len.toNat / 4) ≤ s.params.bufSize
  omega

/-- The ranges of a chained command whose checks have passed. -/
theorem chain_ranges {s : State} (hc : chainChecks s = none) :
    s.src.toNat + 8 * (s.len.toNat / 8) ≤ s.params.bufSize ∧
      s.dst.toNat + 8 * (s.len.toNat / 8) ≤ s.params.bufSize := by
  obtain ⟨hsrc, hdst, -⟩ := chainChecks_eq_none.1 hc
  omega

theorem chainEnc_started {s : State} {swi swo cont : Bool}
    (hc : commandChecks s (.chainEnc swi swo cont) = .next none) :
    Started (.chainEnc swi swo cont) s (chainStart cont s) ∧ RangesFit (chainStart cont s) (.chainEnc swi swo cont) :=
  ⟨.mk _ _ s.src.toNat s.sum16 s.crc fun hf => (Bool.and_eq_true_iff.1 hf).1,
    chain_ranges (Host.Outcome.next.inj hc)⟩

theorem chainDec_started {s : State} {swi swo cont : Bool}
    (hc : commandChecks s (.chainDec swi swo cont) = .next none) :
    Started (.chainDec swi swo cont) s (chainStart cont s) ∧ RangesFit (chainStart cont s) (.chainDec swi swo cont) :=
  ⟨.mk _ _ s.src.toNat s.sum16 s.crc fun hf => (Bool.and_eq_true_iff.1 hf).1,
    chain_ranges (Host.Outcome.next.inj hc)⟩

theorem sum16_started {s : State} (hc : commandChecks s .sum16 = .next none) :
    Started .sum16 s (s.beginSum s.len.toNat) ∧ RangesFit (s.beginSum s.len.toNat) .sum16 :=
  ⟨.mk s.fb s.frameValid s.src.toNat 0 s.crc id, sourceChecks_eq_none.1 (Host.Outcome.next.inj hc)⟩

theorem crc32_started {s : State} (hc : commandChecks s .crc32 = .next none) :
    Started .crc32 s (crcStart s) ∧ RangesFit (crcStart s) .crc32 :=
  ⟨.mk s.fb s.frameValid s.src.toNat s.sum16 s.crcInit id, sourceChecks_eq_none.1 (Host.Outcome.next.inj hc)⟩

theorem parse_started {s : State} (hc : commandChecks s .parse = .next none) :
    Started .parse s (s.beginSum (s.len.toNat - 2)) ∧ RangesFit (s.beginSum (s.len.toNat - 2)) .parse := by
  obtain ⟨hsrc, hlen⟩ := parseChecks_eq_none.1 (Host.Outcome.next.inj hc)
  refine ⟨.mk s.fb s.frameValid s.src.toNat 0 s.crc id, rfl, ?_, hlen, hsrc⟩
  show s.len.toNat - 2 + 2 = s.len.toNat
  omega

/-- The chunk's blocks lie in the frame, and the frame in BUF (R215, R220). -/
theorem chunkDec_started {s : State} (h : StoreInv s) (hc : commandChecks s .chunkDec = .next none) :
    Started .chunkDec s (chunkStart s) ∧ RangesFit (chunkStart s) .chunkDec := by
  obtain ⟨hf, -, -, -, hx⟩ := chunkChecks_eq_none.1 hc
  obtain ⟨hin, hdst, hmeets⟩ := chunkExtentChecks_eq_none.1 hx
  obtain ⟨-, hframe, -⟩ := h.frame hf
  refine ⟨.mk ⟨0, 0⟩ s.frameValid _ s.sum16 s.crc id, ?_, hdst, hf, hmeets⟩
  show s.frameBase.toNat + (wordAt s (chunkOffAddr s s.chunkSel.toNat)).toNat +
    8 * ((wordAt s (chunkLenAddr s s.chunkSel.toNat)).toNat / 8) ≤ s.params.bufSize
  omega

/-! ### Elements -/

/-- Bytes stored inside BUF keep its canonical form and its bound. -/
theorem StoreInv.memPut {s : State} (h : StoreInv s) {a : Nat} {bs : List Byte}
    (ha : a + bs.length ≤ s.params.bufSize) :
    memWf (memPut s.buf a bs) = true ∧ memBelow s.params.bufSize (memPut s.buf a bs) = true :=
  ⟨memWf_memPut a bs h.canonical, memBelow_memPut ha h.inside⟩

theorem swapWord_element {u : State} (h : InLoop .swap u) (hlt : u.index < u.count) :
    ∃ t, swapWord u = .next t ∧ Element .swap u t := by
  obtain ⟨hsrc, hdst⟩ := h.ranges
  obtain ⟨hwf, hin⟩ := h.memPut (a := u.dst.toNat + 4 * u.index)
    (bs := bytesOfWord (bswap32 (wordAt u (u.srcBase + 4 * u.index))) 4) (by rw [bytesOfWord_length]; omega)
  exact ⟨_, swapWord_eq_next.2 ⟨by omega, by omega, rfl⟩, .mk _ _ _ _ _ _ _ hwf hin⟩

theorem chainEncBlock_element {swi swo cont : Bool} {u : State} (h : InLoop (.chainEnc swi swo cont) u)
    (hlt : u.index < u.count) :
    ∃ t, chainEncBlock swi swo u = .next t ∧ Element (.chainEnc swi swo cont) u t := by
  obtain ⟨hsrc, hdst⟩ := h.ranges
  obtain ⟨hwf, hin⟩ := h.memPut (a := u.dst.toNat + 8 * u.index)
    (bs := bytesOfBlock (xteaEnc ((blockAt u (u.srcBase + 8 * u.index) swi).xor u.fb) u.key) swo)
    (by rw [bytesOfBlock_length]; omega)
  exact ⟨_, chainEncBlock_eq_next.2 ⟨by omega, by omega, rfl⟩, .mk _ _ _ _ _ _ _ hwf hin⟩

/-- One block of CHAIN_DEC or CHUNK_DEC, whose granule is the same. -/
theorem chainDecBlock_element {i : Instr} {swi swo : Bool} {u : State} (h : StoreInv u) (hg : granule i = 8)
    (hsrc : u.srcBase + 8 * u.count ≤ u.params.bufSize) (hdst : u.dst.toNat + 8 * u.count ≤ u.params.bufSize)
    (hlt : u.index < u.count) : ∃ t, chainDecBlock swi swo u = .next t ∧ Element i u t := by
  obtain ⟨hwf, hin⟩ := h.memPut (a := u.dst.toNat + 8 * u.index)
    (bs := bytesOfBlock ((xteaDec (blockAt u (u.srcBase + 8 * u.index) swi) u.key).xor u.fb) swo)
    (by rw [bytesOfBlock_length]; omega)
  have he := Element.mk (i := i) (s := u) _ (blockAt u (u.srcBase + 8 * u.index) swi)
    (blockAt u (u.srcBase + 8 * u.index) swi) u.sum16 u.crc
    (xteaDecRun (blockAt u (u.srcBase + 8 * u.index) swi) u.key).sum 31 hwf hin
  rw [hg] at he
  exact ⟨_, chainDecBlock_eq_next.2 ⟨by omega, by omega, rfl⟩, he⟩

/-- One byte of SUM16 or PARSE, whose granule is the same. -/
theorem sumByte_element {i : Instr} {u : State} (h : StoreInv u) (hg : granule i = 1)
    (hsrc : u.srcBase + u.count ≤ u.params.bufSize) (hlt : u.index < u.count) :
    ∃ t, sumByte u = .next t ∧ Element i u t := by
  have he := Element.mk (i := i) (s := u) u.buf u.fb u.latch
    (u.sum16 + (byteAt u (u.srcBase + u.index)).setWidth 16) u.crc u.roundSum u.round h.canonical h.inside
  rw [hg] at he
  exact ⟨_, sumByte_eq_next.2 ⟨by omega, rfl⟩, he⟩

theorem crcStep_element {u : State} (h : InLoop .crc32 u) (hlt : u.index < u.count) :
    ∃ t, crcStep u = .next t ∧ Element .crc32 u t := by
  have hsrc : u.srcBase + u.count ≤ u.params.bufSize := h.ranges
  exact ⟨_, crcStep_eq_next.2 ⟨by omega, rfl⟩, .mk _ _ _ _ _ _ _ h.canonical h.inside⟩

/-! ### Ends -/

/-- The completion of a loop that has consumed every element, whatever result it leaves in CHK and in the CRC
register. -/
theorem InLoop.ended_complete {i : Instr} {s : State} (h : InLoop i s) (he : s.index = s.count)
    (hc : completedCur s s.count i = granule i * s.count) (chk crc : Word) :
    Ended (completedCur s s.count i) (State.complete { s with chk := chk, crc := crc }) := by
  have hcur : s.cur.toNat = completedCur s s.count i := by rw [hc, h.cur, he]
  have hseen : s.curSeen.toNat ≤ s.cur.toNat := by rw [hcur, ← h.endingCur_at_end he]; exact h.seen
  have hstore : StoreInv { s with chk := chk, crc := crc } :=
    ⟨h.params, h.canonical, h.inside, h.cursor, h.frame⟩
  exact ⟨hstore.engineInv_complete h.noError hseen, rfl, rfl, hcur⟩

theorem finishPlain_ended {i : Instr} {s : State} (h : InLoop i s) (he : s.index = s.count)
    (hc : completedCur s s.count i = granule i * s.count) :
    ∃ t, finishPlain s = .next t ∧ Ended (completedCur s s.count i) t :=
  ⟨_, rfl, h.ended_complete he hc s.chk s.crc⟩

theorem sumFinish_ended {s : State} (h : InLoop .sum16 s) (he : s.index = s.count) :
    ∃ t, sumFinish s = .next t ∧ Ended (completedCur s s.count .sum16) t :=
  ⟨_, rfl, h.ended_complete he (Nat.one_mul _).symm _ s.crc⟩

theorem crcFinish_ended {s : State} (h : InLoop .crc32 s) (he : s.index = s.count) :
    ∃ t, crcFinish s = .next t ∧ Ended (completedCur s s.count .crc32) t :=
  ⟨_, rfl, h.ended_complete he (Nat.one_mul _).symm _ _⟩

/-- A table that does not reach the trailer ends before it (R215). -/
theorem tableTooLong_eq_false {e : ChunkEnd} {n c : Nat} :
    tableTooLong e n c = false ↔ (1 ≤ lastIdx e c → 8 * lastIdx e c + 12 ≤ n - 2) := by
  simp [tableTooLong]

/-- The three ends of PARSE (R212 to R216): in each CUR is LEN, and a frame is recorded only where it fits. -/
theorem parseFinish_ended {s : State} (h : InLoop .parse s) (he : s.index = s.count) :
    ∃ t, parseFinish s = .next t ∧ Ended (completedCur s s.count .parse) t := by
  obtain ⟨hbase, hcount, hlen, hin⟩ := h.ranges
  have hseen : s.curSeen.toNat ≤ s.len.toNat := by
    have := h.seen
    rw [h.endingCur_at_end he] at this
    exact this
  have hstore : ∀ trailer, StoreInv (s.summedFrame trailer) := fun _ =>
    ⟨h.params, h.canonical, h.inside, (Nat.le_add_left _ _).trans hin, h.frame⟩
  unfold parseFinish
  rw [memRead16_inside (by omega), andThen_next]
  split_ifs with hsum
  · exact ⟨_, rfl, (hstore _).engineInv_raiseError _ _ hseen, rfl, rfl, rfl⟩
  · rw [memRead16_inside (by omega), andThen_next]
    split_ifs with htable
    · exact ⟨_, rfl, (hstore _).engineInv_raiseError _ _ hseen, rfl, rfl, rfl⟩
    · have hrecord : ∀ trailer, StoreInv ((s.summedFrame trailer).recordFrame (halfAt s s.srcBase)) := fun t =>
        ⟨h.params, h.canonical, h.inside, (hstore t).cursor, fun _ =>
          ⟨hlen, hin, tableTooLong_eq_false.1 (Bool.eq_false_iff.2 htable)⟩⟩
      exact ⟨_, rfl, (hrecord _).engineInv_complete h.noError hseen, rfl, rfl, rfl⟩

/-! ### Commands -/

/-- A command that has no loop is before its checks, and no abort is pending for it (R243). -/
theorem atCheck_of_not_abortable {i : Instr} {s : State} (hi : abortable i = false) (h : AtCheck i s ∨ InLoop i s) :
    AtCheck i s ∧ s.abortPend = false := by
  rcases h with h | h
  · exact ⟨h, Bool.eq_false_iff.2 fun hp => by simp [h.abort hp] at hi⟩
  · cases i with
    | nop | encBlock | decBlock => exact h.ranges.elim
    | _ => nomatch hi

theorem nop_outcome {s : State} (h : AtCheck .nop s) (ha : s.abortPend = false) :
    ∃ t, exec .nop s = .next t ∧ StepOutcome .nop s t := by
  have hfinal : finalCur s .nop = 0 := by
    rw [finalCur_passed h.phase rfl, endingCur_completed fun hp => by simp [ha] at hp]
    rfl
  have hseen : s.curSeen.toNat ≤ s.cur.toNat := by have := h.seen; omega
  exact ⟨_, rfl, .ended ⟨h.engineInv_complete h.noError hseen, rfl, rfl, by simp [h.cur, hfinal]⟩⟩

/-- ENC_BLOCK and DEC_BLOCK end at once with CUR 8, whatever block they leave (R155, R156). -/
theorem block_ended {i : Instr} {s : State} (h : AtCheck i s) (ha : s.abortPend = false)
    (hc : commandChecks s i = .next none) (h8 : ∀ n, completedCur s n i = 8) (x : Rounds) (b : Block) :
    Ended (finalCur s i) (State.complete (State.advance { s.ranXtea x with blk := b, index := 0 } 8)) := by
  have hfinal : finalCur s i = 8 := by
    rw [finalCur_passed h.phase hc, endingCur_completed fun hp => by simp [ha] at hp, h8]
  have hstore : StoreInv (State.advance { s.ranXtea x with blk := b, index := 0 } 8) :=
    ⟨h.params, h.canonical, h.inside, h.bufSize_bounds.1, h.frame⟩
  have hseen : s.curSeen.toNat ≤ 8 := by rw [← hfinal]; exact h.seen
  rw [hfinal]
  exact ⟨hstore.engineInv_complete h.noError hseen, rfl, rfl, rfl⟩

/-- PARSE clears FRAME_VALID before its checks; that is still the start of the same command (R212). -/
theorem AtCheck.parseChecksStart {s : State} (h : AtCheck .parse s) :
    AtCheck .parse (parseChecksStart s) ∧ finalCur (parseChecksStart s) .parse = finalCur s .parse ∧
      stepsLeft (parseChecksStart s) .parse = stepsLeft s .parse := by
  have hs : Machine.parseChecksStart s = { s with frameValid := false } := by
    simp [Machine.parseChecksStart, h.phase]
  rw [hs]
  exact ⟨⟨⟨h.params, h.canonical, h.inside, h.cursor, fun hf => nomatch hf⟩, h.run, h.command, h.unfinished,
    h.noError, h.noInfo, h.abort, h.seen, h.grain, h.phase, h.cur, h.index⟩, rfl, rfl⟩

theorem parseChecksStart_loop {s : State} (h : s.phase = .loop) : parseChecksStart s = s := by
  simp [parseChecksStart, h]

theorem parse_outcome {s : State} (h : AtCheck .parse s ∨ InLoop .parse s) :
    ∃ t, exec .parse s = .next t ∧ StepOutcome .parse s t := by
  have hstep : ∀ s, AtCheck .parse s ∨ InLoop .parse s → ∃ t, commandStep (fun s => .next (parseChecks s))
      (fun s => s.beginSum (s.len.toNat - 2)) sumByte parseFinish s = .next t ∧ StepOutcome .parse s t :=
    fun s hs => commandStep_outcome hs rfl parse_started
      (fun u hu hlt => by
        obtain ⟨hbase, hcount, hlen, hin⟩ := hu.ranges
        exact sumByte_element hu.toStoreInv rfl (by omega) hlt)
      fun u hu he => parseFinish_ended hu he
  rw [exec_parse]
  rcases h with h | h
  · obtain ⟨h', hfinal, hleft⟩ := h.parseChecksStart
    obtain ⟨t, ht, hout⟩ := hstep _ (.inl h')
    refine ⟨t, ht, ?_⟩
    cases hout with
    | ended hend => exact .ended (hfinal ▸ hend)
    | goesOn hloop hfin hfewer => exact .goesOn hloop (hfin.trans hfinal) (hleft ▸ hfewer)
  · rw [parseChecksStart_loop h.phase]
    exact hstep s (.inr h)

/-- Every step of a running command answers, keeps the invariant, and either ends the command with its final CUR or
leaves fewer steps with the same final CUR (R48, R260, R304). -/
theorem exec_outcome {i : Instr} {s : State} (h : AtCheck i s ∨ InLoop i s) :
    ∃ t, exec i s = .next t ∧ StepOutcome i s t := by
  cases i with
  | nop =>
    obtain ⟨h, ha⟩ := atCheck_of_not_abortable rfl h
    exact nop_outcome h ha
  | encBlock =>
    obtain ⟨h, ha⟩ := atCheck_of_not_abortable rfl h
    exact ⟨_, rfl, .ended (block_ended h ha rfl (fun _ => rfl) _ _)⟩
  | decBlock =>
    obtain ⟨h, ha⟩ := atCheck_of_not_abortable rfl h
    exact ⟨_, rfl, .ended (block_ended h ha rfl (fun _ => rfl) _ _)⟩
  | swap =>
    rw [exec_swap]
    exact commandStep_outcome h rfl swap_started (fun _ hu => swapWord_element hu)
      fun _ hu he => finishPlain_ended hu he rfl
  | chainEnc swi swo cont =>
    rw [exec_chainEnc]
    exact commandStep_outcome h rfl chainEnc_started (fun _ hu => chainEncBlock_element hu)
      fun _ hu he => finishPlain_ended hu he rfl
  | chainDec swi swo cont =>
    rw [exec_chainDec]
    exact commandStep_outcome h rfl chainDec_started
      (fun _ hu => chainDecBlock_element hu.toStoreInv rfl hu.ranges.1 hu.ranges.2)
      fun _ hu he => finishPlain_ended hu he rfl
  | sum16 =>
    rw [exec_sum16]
    exact commandStep_outcome h rfl sum16_started (fun _ hu => sumByte_element hu.toStoreInv rfl hu.ranges)
      fun _ hu he => sumFinish_ended hu he
  | crc32 =>
    rw [exec_crc32]
    exact commandStep_outcome h rfl crc32_started (fun _ hu => crcStep_element hu)
      fun _ hu he => crcFinish_ended hu he
  | parse => exact parse_outcome h
  | chunkDec =>
    have hstore : StoreInv s := h.elim (·.toStoreInv) (·.toStoreInv)
    rw [exec_chunkDec]
    exact commandStep_outcome h rfl (chunkDec_started hstore)
      (fun _ hu => chainDecBlock_element hu.toStoreInv rfl hu.ranges.1 hu.ranges.2.1)
      fun _ hu he => finishPlain_ended hu he rfl

/-! ### Runs -/

/-- A running command ends within the steps it has left, with its final CUR. -/
theorem runCommand_ends {i : Instr} {n : Nat} {s : State} (h : AtCheck i s ∨ InLoop i s) (hn : stepsLeft s i ≤ n) :
    ∃ t, runCommand i n s = .next t ∧ Ended (finalCur s i) t := by
  induction n generalizing s with
  | zero => unfold stepsLeft at hn; split at hn <;> omega
  | succ n ih =>
    have hrun : s.seq = .run := h.elim (·.run) (·.run)
    obtain ⟨u, hu, hout⟩ := exec_outcome h
    rw [runCommand_run hrun, hu, andThen_next]
    cases hout with
    | ended hend => exact ⟨u, runCommand_idle hend.idle, hend⟩
    | goesOn hloop hfinal hfewer => exact hfinal ▸ ih (.inr hloop) (by omega)

/-- Settles O60, by the number of steps left, which every step of the command lowers. -/
theorem everyCommandCompletes : Obligations.EveryCommandCompletes := by
  intro s i hinv hrun hphase hi
  obtain ⟨t, ht, hend⟩ := runCommand_ends (hinv.atCheck_or_inLoop hrun hi) (stepsLeft_check hphase).le
  exact ⟨t, ht, hend.idle, hend.done, hend.cur⟩

end Sys2Proof.Machine
end

section
/-! What an event can do (spec/20_memory.md R82, R90 to R95, R100; spec/10_state.md R47): one inversion lemma for a
register write, for a host transaction and for a step. -/

namespace Sys2Proof.Machine

/-! ### Register writes -/

/-- A register of the offset table stands at its own offset (R21). -/
theorem regAt_eq_some {off : Nat} {r : Reg} (h : regAt off = some r) : r.offset = off := by
  unfold regAt at h
  split at h <;> cases h <;> rfl

/-- A write to an operand register on an idle engine touches only the registers a host may set (R21). -/
theorem setReg_operand {r : Reg} (hctrl : r ≠ .ctrl) (hcmd : r ≠ .cmd) (hint : r ≠ .intStatus) (s : State) (v : Word) :
    setReg s v r =
      { s with
        src := (setReg s v r).src, dst := (setReg s v r).dst, len := (setReg s v r).len, key := (setReg s v r).key,
        fb := (setReg s v r).fb, blk := (setReg s v r).blk, crcPoly := (setReg s v r).crcPoly,
        crcInit := (setReg s v r).crcInit, crcXorout := (setReg s v r).crcXorout, crcCfg := (setReg s v r).crcCfg,
        chunkSel := (setReg s v r).chunkSel, intEnable := (setReg s v r).intEnable } := by
  cases r with
  | ctrl => exact absurd rfl hctrl
  | cmd => exact absurd rfl hcmd
  | intStatus => exact absurd rfl hint
  | _ => rfl

/-- What a write of `v` to register `r` can do (R21, R47). -/
inductive RegWriteEffect (r : Reg) (v : Word) (s : State) : State → Prop where
  /-- A write that a running command refuses. -/
  | refused (busy : s.seq = .run) (closed : r.openWhileBusy = false) : RegWriteEffect r v s s.accessError
  | control (hr : r = .ctrl) : RegWriteEffect r v s (writeCtrl v s)
  | command (hr : r = .cmd) (idle : s.seq = .idle) : RegWriteEffect r v s (s.accept v)
  | cleared (hr : r = .intStatus) :
    RegWriteEffect r v s { s with intStatus := s.intStatus &&& ~~~(v.setWidth 3) }
  | enabled (hr : r = .intEnable) : RegWriteEffect r v s { s with intEnable := v.setWidth 3 }
  /-- An operand register of an idle engine takes its value; a read-only one keeps it. -/
  | operand (idle : s.seq = .idle) (src dst len crcPoly crcInit crcXorout : Word) (key : Key) (fb blk : Block)
      (crcCfg : BitVec 2) (chunkSel : Half) (intEnable : BitVec 3) :
    RegWriteEffect r v s
      { s with
        src := src, dst := dst, len := len, key := key, fb := fb, blk := blk, crcPoly := crcPoly,
        crcInit := crcInit, crcXorout := crcXorout, crcCfg := crcCfg, chunkSel := chunkSel,
        intEnable := intEnable }

/-- A running command refuses the registers that are closed to it (R47). -/
theorem writeReg_refused {r : Reg} {v : Word} {s : State} (hb : s.seq = .run) (hr : r.openWhileBusy = false) :
    writeReg r v s = s.accessError := by
  simp [writeReg, busy_eq_true.2 hb, hr]

/-- A register open to a running command is set, busy or idle (R47). -/
theorem writeReg_open {r : Reg} {v : Word} {s : State} (hr : r.openWhileBusy = true) :
    writeReg r v s = setReg s v r := by
  simp [writeReg, hr]

theorem writeReg_idle {r : Reg} {v : Word} {s : State} (hi : s.seq = .idle) : writeReg r v s = setReg s v r := by
  simp [writeReg, busy_eq_false.2 hi]

/-- The registers a running command leaves open (R47). -/
theorem openWhileBusy_eq_false {r : Reg} (hctrl : r ≠ .ctrl) (hint : r ≠ .intStatus) (hen : r ≠ .intEnable) :
    r.openWhileBusy = false := by
  cases r with
  | ctrl => exact absurd rfl hctrl
  | intStatus => exact absurd rfl hint
  | intEnable => exact absurd rfl hen
  | _ => rfl

theorem writeReg_effect (r : Reg) (v : Word) (s : State) : RegWriteEffect r v s (writeReg r v s) := by
  by_cases hctrl : r = .ctrl
  · subst hctrl
    rw [writeReg_open rfl]
    exact .control rfl
  by_cases hint : r = .intStatus
  · subst hint
    rw [writeReg_open rfl]
    exact .cleared rfl
  by_cases hen : r = .intEnable
  · subst hen
    rw [writeReg_open rfl]
    exact .enabled rfl
  have hclosed := openWhileBusy_eq_false hctrl hint hen
  cases hseq : s.seq with
  | run => exact writeReg_refused hseq hclosed ▸ .refused hseq hclosed
  | idle =>
    rw [writeReg_idle hseq]
    by_cases hcmd : r = .cmd
    · subst hcmd
      exact .command rfl hseq
    · rw [setReg_operand hctrl hcmd hint]
      exact .operand hseq _ _ _ _ _ _ _ _ _ _ _ _

/-! ### Host transactions -/

/-- The next event `x` is a write of `v` to register `r`. -/
def WritesReg (s : State) (x : Access) (r : Reg) (v : Word) : Prop :=
  x = .write (s.params.hostBase + r.offset) .word v

/-- What a host transaction can do. -/
inductive HostEffect (x : Access) (s : State) : State → Prop where
  | nothing : HostEffect x s s
  | answered (v : Word) : HostEffect x s (s.answer v)
  | refused : HostEffect x s s.accessError
  | refusedRead : HostEffect x s (s.accessError.answer 0)
  /-- A read of a register that a running command leaves unspecified (R48). -/
  | drawn (v : Word) : HostEffect x s (State.answer { s with draws := s.draws + 1 } v)
  /-- A CUR read while a command runs (R48). -/
  | cursor (busy : s.seq = .run) :
    HostEffect x s (State.answer { s with draws := s.draws + 1, curSeen := cursorDraw s } (cursorDraw s))
  /-- An accepted BUF write (R89, R93). -/
  | stored (idle : s.seq = .idle) (a : Nat) (bs : List Byte) (inside : a + bs.length ≤ s.params.bufSize) :
    HostEffect x s ((s.clearFrame a bs.length).storeBytes a bs)
  /-- A register write. -/
  | register (r : Reg) (v : Word) (hx : WritesReg s x r v) {t : State} (effect : RegWriteEffect r v s t) :
    HostEffect x s t

theorem readReg_effect {x : Access} {r : Reg} {s t : State} (h : readReg r s = .next t) : HostEffect x s t := by
  unfold readReg at h
  split at h
  · next hb =>
    split at h
    · obtain ⟨v, -, ⟨⟩⟩ := andThen_eq_next.1 h
      exact .answered v
    · cases h
      exact .drawn _
    · cases h
      exact .cursor (busy_eq_true.1 hb)
  · obtain ⟨v, -, ⟨⟩⟩ := andThen_eq_next.1 h
    exact .answered v

theorem readBuf_effect (x : Access) (a : Nat) (w : Width) (s : State) : HostEffect x s (readBuf a w s) := by
  unfold readBuf
  split
  · exact .answered _
  · exact .refusedRead

theorem writeBuf_effect (x : Access) (a : Nat) (w : Width) (v : Word) (s : State) :
    HostEffect x s (writeBuf a w v s) := by
  unfold writeBuf
  split
  · next n hn =>
    obtain ⟨hidle, -, -, hin⟩ := bufAccess_eq_some.1 hn
    have := HostEffect.stored (x := x) hidle a (bytesOfWord v n) (by rwa [bytesOfWord_length])
    rwa [bytesOfWord_length] at this
  · exact .refused

/-- An address in the register space is the window's base plus its offset (R82). -/
theorem address_of_regionOf {base address off : Nat} (h : regionOf base address = .register off) :
    address = base + off := by
  unfold regionOf at h
  split_ifs at h with hout
  cases h
  omega

theorem hostAccess_effect {x : Access} {s t : State} (h : hostAccess x s = .next t) : HostEffect x s t := by
  cases x with
  | read address w =>
    simp only [hostAccess] at h
    split at h
    · cases h; exact .nothing
    · cases h; exact .answered 0
    · cases h; exact readBuf_effect _ _ _ _
    · split at h
      · split at h
        · exact readReg_effect h
        · cases h; exact .answered 0
      · cases h; exact .refusedRead
  | write address w v =>
    simp only [hostAccess] at h
    split at h
    · cases h; exact .nothing
    · cases h; exact .nothing
    · cases h; exact writeBuf_effect _ _ _ _ _
    · next off hoff =>
      split at h
      · next hw =>
        simp only [Bool.and_eq_true, beq_iff_eq] at hw
        split at h
        · next r hr =>
          cases h
          refine .register r v ?_ (writeReg_effect r v s)
          rw [WritesReg, hw.1, address_of_regionOf hoff, regAt_eq_some hr]
        · cases h; exact .nothing
      · cases h; exact .refused

/-! ### Steps -/

/-- What a step can be, by the event at the head of the order (R100). -/
inductive StepEffect (s t : State) : Prop where
  /-- The sequencer has its turn, with or without an event of its own. -/
  | sequencer (rest : List Event) (h : sequencerStep { s with pending := rest } = .next t)
  | host (x : Access) (rest : List Event) (head : s.pending = .host x :: rest)
      (h : HostEffect x { s with pending := rest } t)
  | powerOn (rest : List Event) (head : s.pending = .powerOn :: rest)
      (h : t = State.powerOnReset { s with pending := rest })
  /-- The host's WAIT ends. -/
  | waited (rest : List Event) (v : Word) (h : t = State.answer { s with pending := rest } v)

theorem step_effect {s t : State} (h : step s = .next t) : StepEffect s t := by
  unfold step nextEvent at h
  split at h
  · exact .sequencer s.pending h
  · exact .sequencer _ h
  · next x rest head => exact .host x rest head (hostAccess_effect h)
  · next rest head => exact .powerOn rest head (Host.Outcome.next.inj h).symm
  · next rest head =>
    unfold waitStep at h
    split at h
    · exact .sequencer s.pending h
    · exact .waited rest _ (Host.Outcome.next.inj h).symm

/-- What the sequencer does: nothing on an idle engine, else the command's step, or the error completion of a word
that is no command (R100, R260, R293). -/
theorem sequencerStep_cases {s t : State} (h : sequencerStep s = .next t) :
    (s.seq = .idle ∧ t = s) ∨ (s.seq = .run ∧ ∃ i, currentCommand s = .ok i ∧ exec i s = .next t) ∨
      (s.seq = .run ∧ (∃ e, currentCommand s = .error e) ∧ t = s.raiseError .badCmd s.cmd) := by
  unfold sequencerStep at h
  split at h
  · next hidle => exact .inl ⟨hidle, (Host.Outcome.next.inj h).symm⟩
  · next hrun =>
    split at h
    · next i hi => exact .inr (.inl ⟨hrun, i, hi, h⟩)
    · next e he => exact .inr (.inr ⟨hrun, ⟨e, he⟩, (Host.Outcome.next.inj h).symm⟩)

/-- What a CTRL write can do: a soft reset, an abort request, or nothing (R27). -/
theorem writeCtrl_cases (v : Word) (s : State) :
    (v.getLsbD 0 = true ∧ writeCtrl v s = s.softReset) ∨
      (v.getLsbD 0 = false ∧ (writeCtrl v s = s.requestAbort ∨ writeCtrl v s = s)) := by
  unfold writeCtrl
  split_ifs with h0 h1
  · exact .inl ⟨h0, rfl⟩
  · exact .inr ⟨by simpa using h0, .inl rfl⟩
  · exact .inr ⟨by simpa using h0, .inr rfl⟩

/-- What the acceptance of a word can do (R260). -/
theorem accept_cases (s : State) (w : Word) :
    (∃ i, decode s.params.hasCrc32 w = .ok i ∧ s.accept w = s.latchCommand w) ∨
      s.accept w = (s.latchCommand w).raiseError .badCmd w := by
  unfold State.accept
  split
  · next i hi => exact .inl ⟨i, hi, rfl⟩
  · exact .inr rfl

end Sys2Proof.Machine
end

section
/-! The invariant through every event (spec/20_memory.md R100): each effect of a host transaction keeps it, a reset
restores it, and the sequencer's step keeps it by `exec_outcome`. -/

namespace Sys2Proof.Machine

/-! ### Reads, access errors and the interrupt registers -/

/-- The invariant does not speak of the interrupt registers, nor of the model's records of reads, draws and events. -/
theorem EngineInv.withPort {s : State} (h : EngineInv s) (intStatus intEnable : BitVec 3) (draws : Nat)
    (readData : Word) (pending : List Event) :
    EngineInv { s with intStatus := intStatus, intEnable := intEnable, draws := draws, readData := readData,
                       pending := pending } :=
  ⟨h.params, h.canonical, h.inside, h.cursor, h.codes, h.errDone, h.frame, h.quiet, h.running, h.seen⟩

theorem EngineInv.withPending {s : State} (h : EngineInv s) (rest : List Event) :
    EngineInv { s with pending := rest } := h.withPort s.intStatus s.intEnable s.draws s.readData rest

theorem EngineInv.answer {s : State} (h : EngineInv s) (v : Word) : EngineInv (s.answer v) :=
  h.withPort s.intStatus s.intEnable s.draws v s.pending

theorem EngineInv.accessError {s : State} (h : EngineInv s) : EngineInv s.accessError :=
  h.withPort _ s.intEnable s.draws s.readData s.pending

/-- The final CUR of a running command is the CUR a run ends with, and so a word. -/
theorem EngineInv.finalCur_lt {i : Instr} {s : State} (h : EngineInv s) (hr : s.seq = .run)
    (hi : currentCommand s = .ok i) : finalCur s i < 2 ^ 32 := by
  obtain ⟨t, -, hend⟩ := runCommand_ends (h.atCheck_or_inLoop hr hi) (Nat.le_refl _)
  exact hend.cur ▸ t.cur.isLt

/-- What a CUR read of a running command answers lies between the last one read and the final CUR, in whole granules
(R48). -/
theorem EngineInv.cursorDraw_bounds {i : Instr} {s : State} (h : EngineInv s) (hr : s.seq = .run)
    (hi : currentCommand s = .ok i) :
    s.curSeen.toNat ≤ (cursorDraw s).toNat ∧ (cursorDraw s).toNat ≤ finalCur s i ∧
      (cursorDraw s).toNat % granule i = 0 := by
  obtain ⟨j, hj, -, -, -, -, hseen, hgrain, -⟩ := h.running hr
  obtain rfl : i = j := by rw [hi] at hj; exact Except.ok.inj hj
  exact Machine.cursorDraw_bounds hi hseen (h.finalCur_lt hr hi) hgrain

/-- A CUR read of a running command keeps the invariant. -/
theorem EngineInv.cursorRead {s : State} (h : EngineInv s) (hr : s.seq = .run) :
    EngineInv (State.answer { s with draws := s.draws + 1, curSeen := cursorDraw s } (cursorDraw s)) := by
  obtain ⟨i, hi, hdone, herr, hinfo, habort, -, -, hprog⟩ := h.running hr
  obtain ⟨-, hle, hgrain⟩ := h.cursorDraw_bounds hr hi
  exact StoreInv.engineInv_running (i := i) ⟨h.params, h.canonical, h.inside, h.cursor, h.frame⟩ hr hi
    ⟨hdone, herr, hinfo, habort, hle, hgrain, hprog⟩

/-! ### Register and BUF writes -/

/-- An operand register of an idle engine takes any value. -/
theorem EngineInv.operandWrite {s : State} (h : EngineInv s) (hidle : s.seq = .idle)
    (src dst len crcPoly crcInit crcXorout : Word) (key : Key) (fb blk : Block) (crcCfg : BitVec 2) (chunkSel : Half)
    (intEnable : BitVec 3) :
    EngineInv { s with
      src := src, dst := dst, len := len, key := key, fb := fb, blk := blk, crcPoly := crcPoly, crcInit := crcInit,
      crcXorout := crcXorout, crcCfg := crcCfg, chunkSel := chunkSel, intEnable := intEnable } :=
  StoreInv.engineInv_idle ⟨h.params, h.canonical, h.inside, h.cursor, h.frame⟩ hidle h.codes h.errDone
    (h.quiet hidle) (h.seen hidle)

/-- A host write to BUF keeps the invariant: it lists no address beyond BUF, and can only clear FRAME_VALID (R93). -/
theorem EngineInv.bufWrite {s : State} (h : EngineInv s) (hidle : s.seq = .idle) {a : Nat} {bs : List Byte}
    (ha : a + bs.length ≤ s.params.bufSize) : EngineInv ((s.clearFrame a bs.length).storeBytes a bs) := by
  obtain ⟨hwf, hin⟩ := h.store.memPut ha
  exact StoreInv.engineInv_idle
    ⟨h.params, hwf, hin, h.cursor, fun hf => h.frame (Bool.and_eq_true_iff.1 hf).1⟩ hidle h.codes h.errDone
    (h.quiet hidle) (h.seen hidle)

/-- The acceptance of a word keeps the invariant: a legal one starts before its checks, any other ends at once
(R260). -/
theorem EngineInv.accept {s : State} (h : EngineInv s) (w : Word) : EngineInv (s.accept w) := by
  have hstore : StoreInv (s.latchCommand w) := ⟨h.params, h.canonical, h.inside, Nat.zero_le _, h.frame⟩
  rcases accept_cases s w with ⟨i, hi, heq⟩ | heq
  · rw [heq]
    exact hstore.engineInv_running rfl hi
      ⟨rfl, rfl, rfl, fun hp => (nomatch hp), Nat.zero_le _, Nat.zero_mod _, rfl, rfl⟩
  · rw [heq]
    exact hstore.engineInv_raiseError _ _ (Nat.zero_le _)

/-- A command that a request would abort ends no lower than any CUR read has told (R48, R242). -/
theorem curSeen_le_endingCur_of_abort {s t : State} {i : Instr} {n : Nat} (h : s.curSeen.toNat ≤ completedCur s n i)
    (hc : completedCur t n i = completedCur s n i) (hat : abortFloor s i ≤ t.abortAt) :
    s.curSeen.toNat ≤ endingCur t n i := by
  unfold endingCur
  split_ifs
  · exact (curSeen_le_abortFloor s i).trans (Nat.mul_le_mul_left _ hat)
  · rwa [hc]

/-- A bound of the final CUR carries over to a state of the same progress and checks, if it does at the command's
end. -/
theorem le_finalCur_of_endingCur {s t : State} {i : Instr} {v : Nat} (hphase : t.phase = s.phase)
    (hpass : checksPass t i = checksPass s i) (hcount : t.count = s.count)
    (helements : elementCount t i = elementCount s i) (h : v ≤ finalCur s i)
    (hending : ∀ n, v ≤ endingCur s n i → v ≤ endingCur t n i) : v ≤ finalCur t i := by
  unfold finalCur at h ⊢
  rw [hphase, hpass, hcount, helements]
  cases hp : s.phase <;> simp only [hp] at h ⊢
  · split_ifs at h ⊢ with hc
    · exact hending _ h
    · exact h
  · exact hending _ h

/-- An abort request keeps the invariant: it is never taken below a CUR value already read (R242). -/
theorem EngineInv.requestAbort {s : State} (h : EngineInv s) : EngineInv s.requestAbort := by
  rcases requestAbort_cases s with ⟨i, hr, hi, habortable, hpend, heq⟩ | heq
  · obtain ⟨j, hj, hdone, herr, hinfo, -, hseen, hgrain, hprog⟩ := h.running hr
    obtain rfl : i = j := by rw [hi] at hj; exact Except.ok.inj hj
    have hcompleted : ∀ n, endingCur s n i = completedCur s n i := fun n =>
      endingCur_completed fun hp => by simp [hpend] at hp
    rw [heq]
    exact StoreInv.engineInv_running (i := i) ⟨h.params, h.canonical, h.inside, h.cursor, h.frame⟩ hr hi
      ⟨hdone, herr, hinfo, fun _ => ⟨habortable, (index_le_abortFloor s i).trans (Nat.le_add_right _ _)⟩,
        le_finalCur_of_endingCur (s := s) rfl rfl rfl rfl hseen fun n hn =>
          curSeen_le_endingCur_of_abort (hcompleted n ▸ hn) rfl (Nat.le_add_right _ _),
        hgrain, hprog⟩
  · rwa [heq]

/-! ### Resets -/

/-- A soft reset's free bytes lie in BUF, or there are none (R292). -/
theorem memBelow_scrambled {s : State} (h : memBelow s.params.bufSize s.buf = true) :
    memBelow s.params.bufSize (memPut s.buf s.dst.toNat (freeBytes s.draws (scrambleLen s))) = true := by
  have hlen : (freeBytes s.draws (scrambleLen s)).length ≤ s.params.bufSize - s.dst.toNat := by
    simp only [freeBytes, List.length_map, List.length_range, scrambleLen]
    split
    · split
      · exact Nat.min_le_right _ _
      · exact Nat.zero_le _
    · exact Nat.zero_le _
  by_cases hd : s.dst.toNat ≤ s.params.bufSize
  · exact memBelow_memPut (by omega) h
  · rw [List.length_eq_zero_iff.1 (Nat.le_zero.1 (hlen.trans (by omega)))]
    exact h

/-- A soft reset keeps the invariant (R291, R292). -/
theorem EngineInv.softReset {s : State} (h : EngineInv s) : EngineInv s.softReset :=
  StoreInv.engineInv_idle
    ⟨h.params, memWf_memPut _ _ h.canonical, memBelow_scrambled (s := s) h.inside, Nat.zero_le _, fun hf => nomatch hf⟩
    rfl (Nat.zero_le _) (fun he => absurd rfl he) rfl (Nat.le_refl _)

/-- A power-on reset keeps the invariant (R290). -/
theorem EngineInv.powerOnReset {s : State} (h : EngineInv s) : EngineInv s.powerOnReset :=
  StoreInv.engineInv_idle ⟨h.params, rfl, rfl, Nat.zero_le _, fun hf => nomatch hf⟩ rfl (Nat.zero_le _)
    (fun he => absurd rfl he) rfl (Nat.le_refl _)

/-! ### Every event -/

theorem EngineInv.regWrite {r : Reg} {v : Word} {s t : State} (h : EngineInv s) (he : RegWriteEffect r v s t) :
    EngineInv t := by
  cases he with
  | refused busy closed => exact h.accessError
  | control hr =>
    rcases writeCtrl_cases v s with ⟨-, heq⟩ | ⟨-, heq | heq⟩
    · rw [heq]; exact h.softReset
    · rw [heq]; exact h.requestAbort
    · rw [heq]; exact h
  | command hr idle => exact h.accept v
  | cleared hr => exact h.withPort _ s.intEnable s.draws s.readData s.pending
  | enabled hr => exact h.withPort s.intStatus _ s.draws s.readData s.pending
  | operand idle => exact h.operandWrite idle _ _ _ _ _ _ _ _ _ _ _ _

theorem EngineInv.hostAccess {x : Access} {s t : State} (h : EngineInv s) (he : HostEffect x s t) : EngineInv t := by
  cases he with
  | nothing => exact h
  | answered v => exact h.answer v
  | refused => exact h.accessError
  | refusedRead => exact h.accessError.answer 0
  | drawn v => exact h.withPort s.intStatus s.intEnable _ v s.pending
  | cursor busy => exact h.cursorRead busy
  | stored idle a bs inside => exact h.bufWrite idle inside
  | register r v hx effect => exact h.regWrite effect

/-- The sequencer's step keeps the invariant; a running engine never meets a word that is no command. -/
theorem EngineInv.sequencerStep {s t : State} (h : EngineInv s) (hs : sequencerStep s = .next t) : EngineInv t := by
  rcases sequencerStep_cases hs with ⟨-, rfl⟩ | ⟨hr, i, hi, hexec⟩ | ⟨hr, ⟨e, he⟩, -⟩
  · exact h
  · obtain ⟨u, hu, hout⟩ := exec_outcome (h.atCheck_or_inLoop hr hi)
    obtain rfl : t = u := Host.Outcome.next.inj (hexec.symm.trans hu)
    exact hout.engineInv
  · obtain ⟨i, hi, -⟩ := h.running hr
    rw [he] at hi
    nomatch hi

/-- Settles O58, by the event of the step. -/
theorem everyStepKeepsInv : Obligations.EveryStepKeepsInv := by
  intro s t h hstep
  cases step_effect hstep with
  | sequencer rest hs => exact (h.withPending rest).sequencerStep hs
  | host x rest head he => exact (h.withPending rest).hostAccess he
  | powerOn rest head ht => exact ht ▸ (h.withPending rest).powerOnReset
  | waited rest v ht => exact ht ▸ (h.withPending rest).answer v

end Sys2Proof.Machine
end

section
/-! What a command's step may write (spec/30_encoding.md R123): the frame of every command, from the frames of the
parts its step is made of. -/

namespace Sys2Proof.Machine

/-- What the parts of command `i`'s step leave unchanged (R123, R37 to R44). Every clause holds by itself of a part
that does not touch its register, so a part's proof names only the registers it writes. -/
structure CommandFrame (i : Instr) (s t : State) : Prop where
  params : t.params = s.params := by rfl
  cmd : t.cmd = s.cmd := by rfl
  src : t.src = s.src := by rfl
  dst : t.dst = s.dst := by rfl
  len : t.len = s.len := by rfl
  key : t.key = s.key := by rfl
  crcPoly : t.crcPoly = s.crcPoly := by rfl
  crcInit : t.crcInit = s.crcInit := by rfl
  crcXorout : t.crcXorout = s.crcXorout := by rfl
  crcCfg : t.crcCfg = s.crcCfg := by rfl
  chunkSel : t.chunkSel = s.chunkSel := by rfl
  intEnable : t.intEnable = s.intEnable := by rfl
  epoch : t.epoch = s.epoch := by rfl
  pending : t.pending = s.pending := by rfl
  /-- A command clears no bit of INT_STATUS (R35). -/
  intStatus : ∀ j, s.intStatus.getLsbD j = true → t.intStatus.getLsbD j = true := by exact fun _ h => h
  blk : i ≠ .encBlock → i ≠ .decBlock → t.blk = s.blk := by exact fun _ _ => rfl
  fb : (∀ a b c, i ≠ .chainEnc a b c) → (∀ a b c, i ≠ .chainDec a b c) → i ≠ .chunkDec → t.fb = s.fb := by
    exact fun _ _ _ => rfl
  chk : i ≠ .sum16 → i ≠ .crc32 → i ≠ .parse → t.chk = s.chk := by exact fun _ _ _ => rfl
  chkRef : i ≠ .parse → t.chkRef = s.chkRef := by exact fun _ => rfl
  frameBase : i ≠ .parse → t.frameBase = s.frameBase := by exact fun _ => rfl
  frameLen : i ≠ .parse → t.frameLen = s.frameLen := by exact fun _ => rfl
  chunkCount : i ≠ .parse → t.chunkCount = s.chunkCount := by exact fun _ => rfl
  frameValid : i ≠ .parse → t.frameValid = true → s.frameValid = true := by exact fun _ h => h
  buf : i ≠ .swap → (∀ a b c, i ≠ .chainEnc a b c) → (∀ a b c, i ≠ .chainDec a b c) → i ≠ .chunkDec →
    t.buf = s.buf := by exact fun _ _ _ _ => rfl

theorem CommandFrame.trans {i : Instr} {s t u : State} (h : CommandFrame i s t) (h' : CommandFrame i t u) :
    CommandFrame i s u where
  params := h'.params.trans h.params
  cmd := h'.cmd.trans h.cmd
  src := h'.src.trans h.src
  dst := h'.dst.trans h.dst
  len := h'.len.trans h.len
  key := h'.key.trans h.key
  crcPoly := h'.crcPoly.trans h.crcPoly
  crcInit := h'.crcInit.trans h.crcInit
  crcXorout := h'.crcXorout.trans h.crcXorout
  crcCfg := h'.crcCfg.trans h.crcCfg
  chunkSel := h'.chunkSel.trans h.chunkSel
  intEnable := h'.intEnable.trans h.intEnable
  epoch := h'.epoch.trans h.epoch
  pending := h'.pending.trans h.pending
  intStatus := fun j hj => h'.intStatus j (h.intStatus j hj)
  blk := fun he hd => (h'.blk he hd).trans (h.blk he hd)
  fb := fun he hd hc => (h'.fb he hd hc).trans (h.fb he hd hc)
  chk := fun hs hc hp => (h'.chk hs hc hp).trans (h.chk hs hc hp)
  chkRef := fun hp => (h'.chkRef hp).trans (h.chkRef hp)
  frameBase := fun hp => (h'.frameBase hp).trans (h.frameBase hp)
  frameLen := fun hp => (h'.frameLen hp).trans (h.frameLen hp)
  chunkCount := fun hp => (h'.chunkCount hp).trans (h.chunkCount hp)
  frameValid := fun hp ht => h.frameValid hp (h'.frameValid hp ht)
  buf := fun hs he hd hc => (h'.buf hs he hd hc).trans (h.buf hs he hd hc)

/-! ### The parts of a step -/

/-- Setting bits of INT_STATUS clears none. -/
theorem getLsbD_or_of_left {x y : BitVec 3} {j : Nat} (h : x.getLsbD j = true) : (x ||| y).getLsbD j = true := by
  simp [h]

theorem complete_frame (i : Instr) (s : State) : CommandFrame i s s.complete :=
  { intStatus := fun _ => getLsbD_or_of_left }

theorem raiseError_frame (i : Instr) (s : State) (e : CmdError) (info : Word) :
    CommandFrame i s (s.raiseError e info) :=
  { intStatus := fun _ => getLsbD_or_of_left }

theorem advance_frame (i : Instr) (s : State) (granule : Nat) : CommandFrame i s (s.advance granule) := {}

theorem finishPlain_frame (i : Instr) {s t : State} (h : finishPlain s = .next t) : CommandFrame i s t := by
  cases h
  exact complete_frame i s

theorem swapStart_frame (s : State) : CommandFrame .swap s (swapStart s) :=
  { frameValid := fun _ hf => (Bool.and_eq_true_iff.1 hf).1 }

theorem swapWord_frame {s t : State} (h : swapWord s = .next t) : CommandFrame .swap s t := by
  obtain ⟨-, -, rfl⟩ := swapWord_eq_next.1 h
  have hbuf (a : Nat) (bs : List Byte) : CommandFrame .swap s (s.storeBytes a bs) :=
    { buf := fun hs => absurd rfl hs }
  exact (hbuf _ _).trans (advance_frame _ _ 4)

/-- The commands that chain blocks (R170, R220). -/
def Chained (i : Instr) : Prop :=
  (∃ a b c, i = .chainEnc a b c) ∨ (∃ a b c, i = .chainDec a b c) ∨ i = .chunkDec

/-- A frame clause about the other commands says nothing of a command that chains. -/
theorem Chained.elim {i : Instr} (hi : Chained i) (he : ∀ a b c, i ≠ .chainEnc a b c)
    (hd : ∀ a b c, i ≠ .chainDec a b c) (hc : i ≠ .chunkDec) : False := by
  rcases hi with ⟨a, b, c, h⟩ | ⟨a, b, c, h⟩ | h
  · exact he a b c h
  · exact hd a b c h
  · exact hc h

theorem chainEnc_chained (a b c : Bool) : Chained (.chainEnc a b c) := .inl ⟨a, b, c, rfl⟩

theorem chainDec_chained (a b c : Bool) : Chained (.chainDec a b c) := .inr (.inl ⟨a, b, c, rfl⟩)

theorem chunkDec_chained : Chained .chunkDec := .inr (.inr rfl)

theorem chainStart_frame {i : Instr} (hi : Chained i) (cont : Bool) (s : State) :
    CommandFrame i s (chainStart cont s) :=
  { frameValid := fun _ hf => (Bool.and_eq_true_iff.1 hf).1
    fb := fun he hd hc => (hi.elim he hd hc).elim }

theorem chunkStart_frame (s : State) : CommandFrame .chunkDec s (chunkStart s) :=
  { fb := fun he hd hc => (chunkDec_chained.elim he hd hc).elim }

/-- One block of a chain stores bytes and sets the feedback, whatever the cipher's values are. -/
theorem chainBlock_frame {i : Instr} (hi : Chained i) (s : State) (x : Rounds) (w f : Block) (a : Nat)
    (bs : List Byte) : CommandFrame i s (((s.chained x w f).storeBytes a bs).advance 8) := by
  have hfb : CommandFrame i s (s.chained x w f) := { fb := fun he hd hc => (hi.elim he hd hc).elim }
  have hbuf : CommandFrame i (s.chained x w f) ((s.chained x w f).storeBytes a bs) :=
    { buf := fun _ he hd hc => (hi.elim he hd hc).elim }
  exact (hfb.trans hbuf).trans (advance_frame i _ 8)

theorem chainEncBlock_frame {i : Instr} (hi : Chained i) {swi swo : Bool} {s t : State}
    (h : chainEncBlock swi swo s = .next t) : CommandFrame i s t := by
  obtain ⟨-, -, rfl⟩ := chainEncBlock_eq_next.1 h
  exact chainBlock_frame hi s _ _ _ _ _

theorem chainDecBlock_frame {i : Instr} (hi : Chained i) {swi swo : Bool} {s t : State}
    (h : chainDecBlock swi swo s = .next t) : CommandFrame i s t := by
  obtain ⟨-, -, rfl⟩ := chainDecBlock_eq_next.1 h
  exact chainBlock_frame hi s _ _ _ _ _

theorem beginSum_frame (i : Instr) (s : State) (n : Nat) : CommandFrame i s (s.beginSum n) := {}

theorem sumByte_frame (i : Instr) {s t : State} (h : sumByte s = .next t) : CommandFrame i s t := by
  obtain ⟨-, rfl⟩ := sumByte_eq_next.1 h
  exact {}

theorem sumFinish_frame {s t : State} (h : sumFinish s = .next t) : CommandFrame .sum16 s t := by
  cases h
  exact .trans { chk := fun hs => absurd rfl hs } (complete_frame _ _)

theorem crcStart_frame (s : State) : CommandFrame .crc32 s (crcStart s) := {}

theorem crcStep_frame {s t : State} (h : crcStep s = .next t) : CommandFrame .crc32 s t := by
  obtain ⟨-, rfl⟩ := crcStep_eq_next.1 h
  exact {}

theorem crcFinish_frame {s t : State} (h : crcFinish s = .next t) : CommandFrame .crc32 s t := by
  cases h
  exact .trans { chk := fun _ hc => absurd rfl hc } (complete_frame _ _)

/-- PARSE may write FRAME_VALID before its checks (R212). -/
theorem parseChecksStart_frame (s : State) : CommandFrame .parse s (parseChecksStart s) := by
  unfold parseChecksStart
  split
  · exact { frameValid := fun hp => absurd rfl hp }
  · exact {}

theorem summedFrame_frame (s : State) (trailer : Half) : CommandFrame .parse s (s.summedFrame trailer) :=
  { chk := fun _ _ hp => absurd rfl hp, chkRef := fun hp => absurd rfl hp }

theorem recordFrame_frame (s : State) (count : Half) : CommandFrame .parse s (s.recordFrame count) :=
  { frameBase := fun hp => absurd rfl hp, frameLen := fun hp => absurd rfl hp,
    chunkCount := fun hp => absurd rfl hp, frameValid := fun hp => absurd rfl hp }

theorem parseFinish_frame {s t : State} (h : parseFinish s = .next t) : CommandFrame .parse s t := by
  obtain ⟨trailer, -, h⟩ := andThen_eq_next.1 h
  split at h
  · cases h
    exact (summedFrame_frame s _).trans (raiseError_frame _ _ _ _)
  · obtain ⟨count, -, h⟩ := andThen_eq_next.1 h
    split at h
    · cases h
      exact (summedFrame_frame s _).trans (raiseError_frame _ _ _ _)
    · cases h
      exact ((summedFrame_frame s _).trans (recordFrame_frame _ _)).trans (complete_frame _ _)

/-! ### Whole steps -/

/-- A looping command's step keeps what its start, its element and its end keep. -/
theorem commandStep_frame {i : Instr} {checks : State → Result CheckResult} {start : State → State}
    {body last : State → Result State} (hstart : ∀ s, CommandFrame i s (start s))
    (hbody : ∀ {s t}, body s = .next t → CommandFrame i s t)
    (hlast : ∀ {s t}, last s = .next t → CommandFrame i s t) {s t : State}
    (h : commandStep checks start body last s = .next t) : CommandFrame i s t := by
  have hloop : ∀ {s}, loopStep body last s = .next t → CommandFrame i s t := fun h => by
    rcases loopStep_eq_next.1 h with ⟨-, -, rfl⟩ | ⟨-, -, hb⟩ | ⟨-, hl⟩
    · exact raiseError_frame i _ _ _
    · exact hbody hb
    · exact hlast hl
  rcases commandStep_eq_next.1 h with ⟨-, e, info, -, rfl⟩ | ⟨-, -, h⟩ | ⟨-, h⟩
  · exact raiseError_frame i s e info
  · exact (hstart s).trans (hloop h)
  · exact hloop h

/-- The frame of every command's step. -/
theorem exec_frame {i : Instr} {s t : State} (h : exec i s = .next t) : CommandFrame i s t := by
  cases i with
  | nop =>
    cases h
    exact complete_frame _ s
  | encBlock =>
    cases h
    exact .trans { blk := fun he => absurd rfl he } (complete_frame _ _)
  | decBlock =>
    cases h
    exact .trans { blk := fun _ hd => absurd rfl hd } (complete_frame _ _)
  | swap => exact commandStep_frame swapStart_frame swapWord_frame (finishPlain_frame _) (exec_swap s ▸ h)
  | chainEnc swi swo cont =>
    have hi := chainEnc_chained swi swo cont
    exact commandStep_frame (chainStart_frame hi cont) (chainEncBlock_frame hi) (finishPlain_frame _)
      (exec_chainEnc swi swo cont s ▸ h)
  | chainDec swi swo cont =>
    have hi := chainDec_chained swi swo cont
    exact commandStep_frame (chainStart_frame hi cont) (chainDecBlock_frame hi) (finishPlain_frame _)
      (exec_chainDec swi swo cont s ▸ h)
  | sum16 =>
    exact commandStep_frame (fun s => beginSum_frame _ s _) (sumByte_frame _) sumFinish_frame (exec_sum16 s ▸ h)
  | crc32 => exact commandStep_frame crcStart_frame crcStep_frame crcFinish_frame (exec_crc32 s ▸ h)
  | parse =>
    exact (parseChecksStart_frame s).trans
      (commandStep_frame (fun s => beginSum_frame _ s _) (sumByte_frame _) parseFinish_frame (exec_parse s ▸ h))
  | chunkDec =>
    exact commandStep_frame chunkStart_frame (chainDecBlock_frame chunkDec_chained) (finishPlain_frame _)
      (exec_chunkDec s ▸ h)

/-- Settles O54, from the frames of the parts of each command's step. -/
theorem commandsWriteOnlyTheirRegisters : Obligations.CommandsWriteOnlyTheirRegisters := by
  intro i s t h
  have f := exec_frame h
  exact ⟨f.params, f.cmd, f.src, f.dst, f.len, f.key, f.crcPoly, f.crcInit, f.crcXorout, f.crcCfg, f.chunkSel,
    f.intEnable, f.epoch, f.pending, f.blk, f.fb, f.chk,
    fun hp => ⟨f.chkRef hp, f.frameBase hp, f.frameLen hp, f.chunkCount hp, f.frameValid hp⟩, f.buf⟩

end Sys2Proof.Machine
end

section
/-! What only one kind of event can do: clear a bit of INT_STATUS (spec/10_state.md R35), and start the sequencer
(spec/70_reset_and_hazards.md R293). -/

namespace Sys2Proof.Machine

/-- An abort request leaves INT_STATUS and SEQ as they are (R242). -/
theorem requestAbort_flags (s : State) : s.requestAbort.intStatus = s.intStatus ∧ s.requestAbort.seq = s.seq := by
  rcases requestAbort_cases s with ⟨i, -, -, -, -, heq⟩ | heq <;> rw [heq] <;> exact ⟨rfl, rfl⟩

/-! ### Interrupts stay pending -/

/-- The sequencer's step clears no bit of INT_STATUS. -/
theorem sequencerStep_keeps_intStatus {s t : State} {j : Nat} (h : sequencerStep s = .next t)
    (hj : s.intStatus.getLsbD j = true) : t.intStatus.getLsbD j = true := by
  rcases sequencerStep_cases h with ⟨-, rfl⟩ | ⟨-, i, -, hexec⟩ | ⟨-, -, rfl⟩
  · exact hj
  · exact (exec_frame hexec).intStatus j hj
  · exact getLsbD_or_of_left hj

/-- Neither does the acceptance of a word. -/
theorem accept_keeps_intStatus {s : State} {w : Word} {j : Nat} (hj : s.intStatus.getLsbD j = true) :
    (s.accept w).intStatus.getLsbD j = true := by
  rcases accept_cases s w with ⟨i, -, heq⟩ | heq <;> rw [heq]
  · exact hj
  · exact getLsbD_or_of_left hj

/-- A write of `v` to INT_STATUS leaves the bits that are 0 in `v` (R35). -/
theorem getLsbD_cleared (x : BitVec 3) (v : Word) {j : Nat} (hj : j < 3) :
    (x &&& ~~~(v.setWidth 3)).getLsbD j = (x.getLsbD j && !v.getLsbD j) := by
  simp [hj]

/-- A register write that clears a bit of INT_STATUS is a clearing write or a soft reset. -/
theorem RegWriteEffect.clears {r : Reg} {v : Word} {s t : State} {j : Nat} (h : RegWriteEffect r v s t)
    (hs : s.intStatus.getLsbD j = true) (ht : t.intStatus.getLsbD j = false) :
    (r = .intStatus ∧ v.getLsbD j = true) ∨ (r = .ctrl ∧ v.getLsbD 0 = true) := by
  cases h with
  | refused => rw [State.accessError_intStatus, getLsbD_or_of_left hs] at ht; nomatch ht
  | control hr =>
    rcases writeCtrl_cases v s with ⟨h0, -⟩ | ⟨-, heq | heq⟩
    · exact .inr ⟨hr, h0⟩
    · rw [heq, (requestAbort_flags s).1, hs] at ht; nomatch ht
    · rw [heq, hs] at ht; nomatch ht
  | command => rw [accept_keeps_intStatus hs] at ht; nomatch ht
  | cleared hr =>
    rw [getLsbD_cleared _ _ (BitVec.lt_of_getLsbD hs), hs] at ht
    exact .inl ⟨hr, by simpa using ht⟩
  | enabled | operand => rw [show s.intStatus.getLsbD j = false from ht] at hs; nomatch hs

/-- A host transaction that clears a bit of INT_STATUS is a clearing write or a soft reset. -/
theorem HostEffect.clears {x : Access} {s t : State} {j : Nat} (h : HostEffect x s t)
    (hs : s.intStatus.getLsbD j = true) (ht : t.intStatus.getLsbD j = false) :
    (∃ v, WritesReg s x .intStatus v ∧ v.getLsbD j = true) ∨ (∃ v, WritesReg s x .ctrl v ∧ v.getLsbD 0 = true) := by
  cases h with
  | refused | refusedRead =>
    have hkeep : (s.intStatus ||| 4).getLsbD j = true := getLsbD_or_of_left hs
    rw [show (s.intStatus ||| 4).getLsbD j = false from ht] at hkeep
    nomatch hkeep
  | register r v hx effect =>
    rcases effect.clears hs ht with ⟨rfl, hv⟩ | ⟨rfl, hv⟩
    · exact .inl ⟨v, hx, hv⟩
    · exact .inr ⟨v, hx, hv⟩
  | nothing | answered | drawn | cursor | stored =>
    rw [show s.intStatus.getLsbD j = false from ht] at hs
    nomatch hs

/-- Settles O51, by the event of the step. -/
theorem pendingBitsStayUntilCleared : Obligations.PendingBitsStayUntilCleared := by
  intro s t j hstep hs ht
  cases step_effect hstep with
  | sequencer rest h => rw [sequencerStep_keeps_intStatus h hs] at ht; nomatch ht
  | host x rest head h =>
    rcases h.clears hs ht with ⟨v, hx, hv⟩ | ⟨v, hx, hv⟩
    · exact ⟨rest, .inl ⟨v, head.trans (congrArg (Event.host · :: rest) hx), hv⟩⟩
    · exact ⟨rest, .inr (.inl ⟨v, head.trans (congrArg (Event.host · :: rest) hx), hv⟩)⟩
  | powerOn rest head => exact ⟨rest, .inr (.inr head)⟩
  | waited rest v heq =>
    subst heq
    rw [show s.intStatus.getLsbD j = false from ht] at hs
    nomatch hs

/-! ### Nothing runs until the host writes CMD -/

/-- A register write that starts an idle engine is the acceptance of a legal word (R260). -/
theorem RegWriteEffect.starts {r : Reg} {v : Word} {s t : State} (h : RegWriteEffect r v s t) (hs : s.seq = .idle)
    (ht : t.seq = .run) : r = .cmd ∧ ∃ i, decode s.params.hasCrc32 v = .ok i := by
  cases h with
  | control hr =>
    rcases writeCtrl_cases v s with ⟨-, heq⟩ | ⟨-, heq | heq⟩
    · rw [heq] at ht; nomatch ht
    · rw [heq, (requestAbort_flags s).2, hs] at ht; nomatch ht
    · rw [heq, hs] at ht; nomatch ht
  | command hr =>
    rcases accept_cases s v with ⟨i, hi, -⟩ | heq
    · exact ⟨hr, i, hi⟩
    · rw [heq] at ht; nomatch ht
  | refused | cleared | enabled | operand => rw [show s.seq = .run from ht] at hs; nomatch hs

/-- A host transaction that starts an idle engine is the write of a legal word to CMD. -/
theorem HostEffect.starts {x : Access} {s t : State} (h : HostEffect x s t) (hs : s.seq = .idle)
    (ht : t.seq = .run) : ∃ w i, WritesReg s x .cmd w ∧ decode s.params.hasCrc32 w = .ok i := by
  cases h with
  | register r v hx effect =>
    obtain ⟨rfl, i, hi⟩ := effect.starts hs ht
    exact ⟨v, i, hx, hi⟩
  | nothing | answered | refused | refusedRead | drawn | cursor | stored =>
    rw [show s.seq = .run from ht] at hs
    nomatch hs

/-- Settles O53, by the event of the step. -/
theorem onlyCmdWriteStartsSequencer : Obligations.OnlyCmdWriteStartsSequencer := by
  intro s t hs hstep ht
  cases step_effect hstep with
  | sequencer rest h =>
    rcases sequencerStep_cases h with ⟨-, rfl⟩ | ⟨hr, -⟩ | ⟨hr, -⟩
    · rw [show s.seq = .run from ht] at hs; nomatch hs
    · rw [show s.seq = .run from hr] at hs; nomatch hs
    · rw [show s.seq = .run from hr] at hs; nomatch hs
  | host x rest head h =>
    obtain ⟨w, i, hx, hi⟩ := h.starts hs ht
    exact ⟨w, i, rest, head.trans (congrArg (Event.host · :: rest) hx), hi⟩
  | powerOn rest head heq => subst heq; nomatch ht
  | waited rest v heq =>
    subst heq
    rw [show s.seq = .run from ht] at hs
    nomatch hs

end Sys2Proof.Machine
end

section
/-! What one host transaction answers (spec/10_state.md R20 to R48, spec/20_memory.md R82, R95): register writes and
reads, idle and while a command runs, and the reserved parts of the window. -/

namespace Sys2Proof.Machine

/-! ### CMD and CTRL -/

/-- A register write on an idle engine sets the register. -/
theorem step_writeReg_idle {s : State} {r : Reg} {v : Word} {rest : List Event} (hidle : s.seq = .idle)
    (h : NextWrites s r v rest) : step s = .next (setReg { s with pending := rest } v r) :=
  (step_writeReg h).trans (congrArg _ (writeReg_idle (s := { s with pending := rest }) hidle))

/-- A write to CMD on an idle engine is the acceptance of the word (R260). -/
theorem step_writeCmd {s : State} {w : Word} {rest : List Event} (hidle : s.seq = .idle)
    (h : NextWrites s .cmd w rest) : step s = .next (State.accept { s with pending := rest } w) :=
  step_writeReg_idle hidle h

theorem accept_legal {s : State} {w : Word} {i : Instr} (hi : decode s.params.hasCrc32 w = .ok i) :
    s.accept w = s.latchCommand w := by
  simp [State.accept, hi]

/-- Settles O4: the step is the acceptance of the word. -/
theorem acceptanceLatchesCommand : Obligations.AcceptanceLatchesCommand := by
  intro s w i rest hidle h hi
  have ha : State.accept { s with pending := rest } w = State.latchCommand { s with pending := rest } w :=
    accept_legal hi
  rw [step_writeCmd hidle h, ha]
  rfl

/-- A write to CTRL takes effect busy or idle (R47). -/
theorem step_writeCtrl {s : State} {v : Word} {rest : List Event} (h : NextWrites s .ctrl v rest) :
    step s = .next (writeCtrl v { s with pending := rest }) := by
  rw [step_writeReg h, writeReg_open rfl]
  rfl

theorem writeCtrl_reset {v : Word} (h : v.getLsbD 0 = true) (s : State) : writeCtrl v s = s.softReset := by
  simp [writeCtrl, h]

theorem writeCtrl_abort {v : Word} (h0 : v.getLsbD 0 = false) (h1 : v.getLsbD 1 = true) (s : State) :
    writeCtrl v s = s.requestAbort := by
  unfold writeCtrl
  rw [h0, h1]
  rfl

theorem requestAbort_idle {s : State} (h : s.seq = .idle) : s.requestAbort = s := by
  simp [State.requestAbort, busy_eq_false.2 h]

/-- An abort request while a command runs (R242, R243). -/
theorem requestAbort_running {s : State} {i : Instr} (hr : s.seq = .run) (hi : currentCommand s = .ok i) :
    s.requestAbort = if abortable i && !s.abortPend then
      { s with abortPend := true, abortAt := abortFloor s i + (Config.freeWord s.draws).toNat,
               draws := s.draws + 1 }
    else s := by
  simp [State.requestAbort, busy_eq_true.2 hr, hi]

/-- Settles O40, by whether a command runs, can be aborted, and has an abort pending. -/
theorem abortRequestRemembered : Obligations.AbortRequestRemembered := by
  intro s v rest h h0 h1
  have hstep : step s = .next (State.requestAbort { s with pending := rest }) := by
    rw [step_writeCtrl h, writeCtrl_abort h0 h1]
  have hrun : ∀ i, s.seq = .run → decode s.params.hasCrc32 s.cmd = .ok i →
      step s = .next (if abortable i && !s.abortPend then
        { s with abortPend := true, abortAt := abortFloor s i + (Config.freeWord s.draws).toNat,
                 draws := s.draws + 1, pending := rest }
      else { s with pending := rest }) := fun i hr hi =>
    hstep.trans (congrArg _ (requestAbort_running (s := { s with pending := rest }) hr hi))
  refine ⟨fun i hr hi ha hp => ?_, fun i hr hi ha hp => ?_, fun i hr hi ha => ?_, fun hidle => ?_⟩
  · refine ⟨_, (hrun i hr hi).trans (congrArg _ (if_pos (by simp [ha, hp]))), rfl, rfl,
      (index_le_abortFloor s i).trans (Nat.le_add_right _ _), ?_⟩
    exact (curSeen_le_abortFloor s i).trans (Nat.mul_le_mul_left _ (Nat.le_add_right _ _))
  · simpa [ha, hp] using hrun i hr hi
  · simpa [ha] using hrun i hr hi
  · exact hstep.trans (congrArg _ (requestAbort_idle (s := { s with pending := rest }) hidle))

/-! ### Writes while busy, and the interrupt registers -/

/-- Settles O41: every other register is closed to a running command. -/
theorem busyRegisterWriteIgnored : Obligations.BusyRegisterWriteIgnored := by
  intro s r v rest hr h hctrl hint hen
  exact (step_writeReg h).trans (congrArg _ (writeReg_refused (s := { s with pending := rest }) hr
    (openWhileBusy_eq_false hctrl hint hen)))

/-- A register of `n` bits reads as the word written, cut to its low `n` bits (R23). -/
theorem setWidth_setWidth_eq_and (v : Word) (n : Nat) :
    (v.setWidth n).setWidth 32 = v &&& BitVec.ofNat 32 (2 ^ n - 1) := by
  apply BitVec.eq_of_getLsbD_eq
  intro j hj
  simp only [BitVec.getLsbD_setWidth, BitVec.getLsbD_and, BitVec.getLsbD_ofNat, Nat.testBit_two_pow_sub_one, hj,
    decide_true, Bool.true_and, Bool.and_comm]

/-- Settles O50: the two interrupt registers are open busy and idle, and keep three bits. -/
theorem intStatusWriteOneToClear : Obligations.IntStatusWriteOneToClear := by
  intro s v rest
  refine ⟨fun h => ?_, fun h => ?_⟩
  · rw [step_writeReg h, writeReg_open rfl]
    exact ⟨_, rfl, rfl, fun j hj => getLsbD_cleared s.intStatus v hj⟩
  · rw [step_writeReg h, writeReg_open rfl]
    refine ⟨_, rfl, rfl, fun j hj => ?_, congrArg _ (setWidth_setWidth_eq_and v 3)⟩
    show (v.setWidth 3).getLsbD j = v.getLsbD j
    simp [hj]

/-! ### Reserved offsets -/

/-- An offset at which no register stands names none (R22). -/
theorem regAt_eq_none {off : Nat} (h : ∀ r : Reg, r.offset ≠ off) : regAt off = none := by
  cases hr : regAt off with
  | none => rfl
  | some r => exact absurd (regAt_eq_some hr) (h r)

/-- Settles O43, for the reserved register offsets and for the reserved range. -/
theorem reservedOffsetsReadZero : Obligations.ReservedOffsetsReadZero := by
  rintro s off w v rest (⟨rfl, hoff, halign, hnone⟩ | ⟨hlow, hhigh⟩)
  · have hreg := regionOf_register s.params.hostBase off hoff
    refine ⟨fun h => ?_, fun h => ?_⟩ <;> rw [step_host h]
    · simp [hostAccess, hreg, halign, regAt_eq_none hnone]
    · simp [hostAccess, hreg, halign, regAt_eq_none hnone, State.answer]
  · have hreg := regionOf_reserved s.params.hostBase off hlow hhigh
    refine ⟨fun h => ?_, fun h => ?_⟩ <;> rw [step_host h]
    · simp [hostAccess, hreg]
    · simp [hostAccess, hreg, State.answer]

/-! ### Writes on an idle engine -/

/-- The 32-bit registers take the word written (R20, R21). -/
theorem regValue_setReg_word (s : State) (v : Word) {r : Reg}
    (hr : r ∈ [Reg.src, .dst, .len, .key0, .key1, .key2, .key3, .fb0, .fb1, .blk0, .blk1, .crcPoly, .crcInit,
      .crcXorout]) : regValue (setReg s v r) r = .next v := by
  cases r with
  | src | dst | len | key0 | key1 | key2 | key3 | fb0 | fb1 | blk0 | blk1 | crcPoly | crcInit | crcXorout => rfl
  | _ => exact absurd hr (by decide)

/-- A read-only register ignores a write (R21). -/
theorem setReg_readOnly (s : State) (v : Word) {r : Reg}
    (hr : r ∈ [Reg.id, .cap, .bufsz, .status, .errInfo, .cur, .chk, .chkRef, .frameBase, .frameLen, .chunkCount,
      .chunkOff, .chunkLen]) : setReg s v r = s := by
  cases r with
  | id | cap | bufsz | status | errInfo | cur | chk | chkRef | frameBase | frameLen | chunkCount | chunkOff
  | chunkLen => rfl
  | _ => exact absurd hr (by decide)

/-- A write to one register leaves what every other reads, the chunk view apart, which reads through CHUNK_SEL: each
pair of a writable and another register stands for its own part of the state (R21). -/
theorem regValue_setReg_other (s : State) (v : Word) {r q : Reg} (hctrl : r ≠ .ctrl) (hcmd : r ≠ .cmd)
    (hint : r ≠ .intStatus) (hq : q ≠ r) (hoff : q ≠ .chunkOff) (hlen : q ≠ .chunkLen) :
    regValue (setReg s v r) q = regValue s q := by
  cases r with
  | ctrl => exact absurd rfl hctrl
  | cmd => exact absurd rfl hcmd
  | intStatus => exact absurd rfl hint
  | id | cap | bufsz | status | errInfo | cur | chk | chkRef | frameBase | frameLen | chunkCount | chunkOff
  | chunkLen => rfl
  | chunkSel =>
    cases q with
    | chunkSel => exact absurd rfl hq
    | chunkOff => exact absurd rfl hoff
    | chunkLen => exact absurd rfl hlen
    | _ => rfl
  | _ => cases q <;> first | rfl | exact absurd rfl hq

/-- No write to an operand register touches SEQ, the order of events or BUF. -/
theorem setReg_keeps (s : State) (v : Word) {r : Reg} (hctrl : r ≠ .ctrl) (hcmd : r ≠ .cmd) (hint : r ≠ .intStatus) :
    (setReg s v r).seq = s.seq ∧ (setReg s v r).pending = s.pending ∧ (setReg s v r).buf = s.buf := by
  have h := setReg_operand hctrl hcmd hint s v
  exact ⟨(congrArg State.seq h :), (congrArg State.pending h :), (congrArg State.buf h :)⟩

/-- What a register reads does not depend on the events still to come. -/
theorem regValue_withPending (s : State) (rest : List Event) (r : Reg) :
    regValue { s with pending := rest } r = regValue s r := rfl

/-- Settles O45: the step sets the register, and a register has a part of the state of its own. -/
theorem idleRegisterWriteHoldsValue : Obligations.IdleRegisterWriteHoldsValue := by
  intro s t r v rest hidle h hctrl hcmd hint hstep
  obtain rfl : setReg { s with pending := rest } v r = t :=
    Host.Outcome.next.inj ((step_writeReg_idle hidle h).symm.trans hstep)
  obtain ⟨hseq, hpending, hbuf⟩ := setReg_keeps { s with pending := rest } v hctrl hcmd hint
  refine ⟨hseq.trans hidle, hpending, hbuf,
    regValue_setReg_word _ v, ?_, ?_, ?_, setReg_readOnly _ v, fun q hq hoff hlen =>
      (regValue_setReg_other _ v hctrl hcmd hint hq hoff hlen).trans (regValue_withPending s rest q)⟩
  · rintro rfl
    exact congrArg _ (setWidth_setWidth_eq_and v 3)
  · rintro rfl
    exact congrArg _ (setWidth_setWidth_eq_and v 2)
  · rintro rfl
    exact congrArg _ (setWidth_setWidth_eq_and v 16)

/-! ### Reads -/

/-- The chunk view without a valid frame and index (R46). -/
theorem chunkView_invalid {s : State} (h : ¬ (s.frameValid = true ∧ validIndex s s.chunkSel.toNat = true)) (a : Nat) :
    chunkView s a = .next 0 :=
  if_neg (by simpa using h)

/-- The chunk view with a valid frame and index (R46, R219). -/
theorem StoreInv.chunkView_valid {s : State} (h : StoreInv s) (hf : s.frameValid = true)
    (hv : validIndex s s.chunkSel.toNat = true) :
    regValue s .chunkOff = .next (wordAt s (chunkOffAddr s s.chunkSel.toNat)) ∧
      regValue s .chunkLen = .next (wordAt s (chunkLenAddr s s.chunkSel.toNat)) := by
  obtain ⟨hoff, hlen⟩ := h.descriptor_inside hf hv
  have hview : ∀ a, chunkView s a = memRead32 s a := fun a => if_pos (by simp [hf, hv])
  exact ⟨(hview _).trans (memRead32_inside hoff), (hview _).trans (memRead32_inside hlen)⟩

/-- Every register has a value (R215 for the chunk view). -/
theorem StoreInv.regValue_answer {s : State} (h : StoreInv s) (r : Reg) : ∃ v, regValue s r = .next v := by
  by_cases hvalid : s.frameValid = true ∧ validIndex s s.chunkSel.toNat = true
  · obtain ⟨hoff, hlen⟩ := h.chunkView_valid hvalid.1 hvalid.2
    cases r with
    | chunkOff => exact ⟨_, hoff⟩
    | chunkLen => exact ⟨_, hlen⟩
    | _ => exact ⟨_, rfl⟩
  · cases r with
    | chunkOff => exact ⟨_, chunkView_invalid hvalid _⟩
    | chunkLen => exact ⟨_, chunkView_invalid hvalid _⟩
    | _ => exact ⟨_, rfl⟩

/-- A register that answers its current value, busy or idle (R48, R95). -/
theorem readReg_current {s : State} {r : Reg} {v : Word} (hr : s.seq = .idle ∨ r.busyRead = .current)
    (hv : regValue s r = .next v) : readReg r s = .next (s.answer v) := by
  unfold readReg
  rcases hr with hidle | hcur
  · rw [busy_eq_false.2 hidle, hv]
    rfl
  · rw [hcur, hv]
    exact ite_self _

/-- A register that a running command leaves unspecified (R48). -/
theorem readReg_draw {s : State} {r : Reg} {bits : Nat} (hbusy : s.seq = .run) (hr : r.busyRead = .draw bits) :
    readReg r s = .next (State.answer { s with draws := s.draws + 1 }
      (((Config.freeWord s.draws).setWidth bits).setWidth 32)) := by
  simp [readReg, busy_eq_true.2 hbusy, hr]

/-- A CUR read while a command runs (R48). -/
theorem readReg_cur {s : State} (hbusy : s.seq = .run) : readReg .cur s =
    .next (State.answer { s with draws := s.draws + 1, curSeen := cursorDraw s } (cursorDraw s)) := by
  simp [readReg, busy_eq_true.2 hbusy, Reg.busyRead]

/-- A read of a register that answers its current value changes nothing else. -/
theorem step_readReg_current {s : State} {r : Reg} {v : Word} {rest : List Event} (h : NextReads s r rest)
    (hr : s.seq = .idle ∨ r.busyRead = .current) (hv : regValue s r = .next v) :
    step s = .next { s with readData := v, pending := rest } :=
  (step_readReg h).trans (readReg_current (s := { s with pending := rest }) hr hv)

/-- CAP's fields (R25). -/
theorem capWord_eq (p : Params) : capWord p =
    (if p.chunkEnd = .incl then 0x200 else 0) + (if p.hasCrc32 then 0x100 else 0) + 0x20 := by
  unfold capWord
  cases p.chunkEnd <;> cases p.hasCrc32 <;> rfl

/-- Settles O38: the first part register by register, the reads by whether the chunk view is valid. -/
theorem chunkViewReadsDescriptor : Obligations.ChunkViewReadsDescriptor := by
  intro s rest hinv valid
  have hvalid : valid ↔ s.frameValid = true ∧ validIndex s s.chunkSel.toNat = true := by
    rw [validIndex_eq_true]
  refine ⟨?_, fun hidle => ⟨fun r h => ?_, fun h hv => ?_, fun h hv => ?_, fun h hv => ?_⟩⟩
  · simp only [List.forall_mem_cons]
    exact ⟨rfl, congrArg _ (capWord_eq s.params), rfl, rfl, rfl, rfl, rfl, rfl, rfl, rfl, rfl, rfl, rfl, rfl, rfl,
      rfl, rfl, rfl, rfl, rfl, rfl, rfl, rfl, rfl, rfl, rfl, rfl, rfl, rfl, rfl, fun _ h => nomatch h⟩
  · obtain ⟨v, hv⟩ := hinv.store.regValue_answer r
    exact ⟨v, hv, step_readReg_current h (.inl hidle) hv⟩
  · obtain ⟨hf, hindex⟩ := hvalid.1 hv
    exact step_readReg_current h (.inl hidle) (hinv.store.chunkView_valid hf hindex).1
  · obtain ⟨hf, hindex⟩ := hvalid.1 hv
    exact step_readReg_current h (.inl hidle) (hinv.store.chunkView_valid hf hindex).2
  · have hview := chunkView_invalid (mt hvalid.2 hv)
    exact h.elim (step_readReg_current · (.inl hidle) (hview _)) (step_readReg_current · (.inl hidle) (hview _))

/-- Settles O48, by R48's three lists. -/
theorem busyCursorReadIsBounded : Obligations.BusyCursorReadIsBounded := by
  intro s i rest hinv hr hi
  have hdraw {r : Reg} {bits : Nat} (hb : r.busyRead = .draw bits) (h : NextReads s r rest) :=
    (step_readReg h).trans (readReg_draw (s := { s with pending := rest }) hr hb)
  refine ⟨fun h => ?_, fun r hmem h => ?_, fun r hmem h => ?_, fun r hmem h => ?_⟩
  · exact ⟨_, (step_readReg h).trans (readReg_cur (s := { s with pending := rest }) hr), rfl,
      (hinv.withPending rest).cursorDraw_bounds hr hi⟩
  · have hcurrent : r.busyRead = .current := by clear h; revert r; decide
    obtain ⟨v, hv⟩ := hinv.store.regValue_answer r
    exact ⟨v, hv, step_readReg_current h (.inr hcurrent) hv⟩
  · have hb : r.busyRead = .draw 32 := by clear h; revert r; decide
    simpa [State.answer] using hdraw hb h
  · have hb : r.busyRead = .draw 16 := by clear h; revert r; decide
    rw [hdraw hb h, setWidth_setWidth_eq_and]
    rfl

end Sys2Proof.Machine
end

section
/-! The flags a host sees (spec/10_state.md R29 to R32, spec/60_exceptions.md R270), and the two resets
(spec/70_reset_and_hazards.md R290 to R292). -/

namespace Sys2Proof.Machine

/-! ### IRQ and STATUS -/

/-- IRQ is asserted exactly when some source is pending and enabled (R270). -/
theorem irq_eq_true {s : State} :
    irq s = true ↔ ∃ j, j < 3 ∧ s.intStatus.getLsbD j = true ∧ s.intEnable.getLsbD j = true := by
  rw [irq, bne_iff_ne]
  constructor
  · intro hne
    by_contra hall
    refine hne (BitVec.eq_of_getLsbD_eq fun j hj => ?_)
    by_contra hbit
    rw [BitVec.getLsbD_and, show (0 : BitVec 3).getLsbD j = false from BitVec.getLsbD_zero, Bool.not_eq_false,
      Bool.and_eq_true] at hbit
    exact hall ⟨j, hj, hbit⟩
  · rintro ⟨j, -, hs, he⟩ hzero
    have : (s.intStatus &&& s.intEnable).getLsbD j = true := by rw [BitVec.getLsbD_and, hs, he]; rfl
    rw [hzero, show (0 : BitVec 3).getLsbD j = false from BitVec.getLsbD_zero] at this
    nomatch this

/-- STATUS as a number: the four flags, and ERR_CODE from bit 8 up (R29). -/
theorem toNat_statusWord (s : State) : (statusWord s).toNat =
    s.busy.toNat + 2 * s.done.toNat + 4 * (errFlag s).toNat + 8 * s.frameValid.toNat + 256 * s.errCode.toNat := by
  have := s.errCode.isLt
  have := s.busy.toNat_le; have := s.done.toNat_le; have := (errFlag s).toNat_le; have := s.frameValid.toNat_le
  rw [statusWord, BitVec.toNat_ofNat]
  omega

/-- A flag stands in bit `j` of a word that is the flag times `2 ^ j` above what lies below it. -/
theorem getLsbD_of_toNat {w : Word} {j high low : Nat} {b : Bool} (hlow : low < 2 ^ j)
    (h : w.toNat = low + 2 ^ j * (b.toNat + 2 * high)) : w.getLsbD j = b := by
  rw [BitVec.getLsbD, h, Nat.testBit_eq_decide_div_mod_eq, Nat.add_mul_div_left _ _ (Nat.two_pow_pos j),
    Nat.div_eq_of_lt hlow]
  cases b <;> simp

/-- A field stands in bits `[start + len - 1 : start]` of a word when the word is the field there, above what lies
below it. -/
theorem extractLsb'_of_toNat {w : Word} {start len high low : Nat} {x : BitVec len} (hlow : low < 2 ^ start)
    (h : w.toNat = low + 2 ^ start * (x.toNat + 2 ^ len * high)) : w.extractLsb' start len = x := by
  apply BitVec.eq_of_toNat_eq
  rw [BitVec.extractLsb'_toNat, h, Nat.shiftRight_eq_div_pow, Nat.add_mul_div_left _ _ (Nat.two_pow_pos start),
    Nat.div_eq_of_lt hlow, Nat.zero_add, Nat.add_mul_mod_self_left, Nat.mod_eq_of_lt x.isLt]

/-- Settles O52: STATUS is the sum of its fields, each of which stays below the next. -/
theorem irqIsPendingAndEnabled : Obligations.IrqIsPendingAndEnabled := by
  intro s
  have hw := toNat_statusWord s
  have hbusy := s.busy.toNat_le
  have hdone := s.done.toNat_le
  have herr := (errFlag s).toNat_le
  have hvalid := s.frameValid.toNat_le
  have hcode := s.errCode.isLt
  have hbit0 : (statusWord s).getLsbD 0 = s.busy := getLsbD_of_toNat (low := 0)
    (high := s.done.toNat + 2 * (errFlag s).toNat + 4 * s.frameValid.toNat + 128 * s.errCode.toNat)
    (by omega) (by omega)
  have hbit2 : (statusWord s).getLsbD 2 = errFlag s := getLsbD_of_toNat (low := s.busy.toNat + 2 * s.done.toNat)
    (high := s.frameValid.toNat + 32 * s.errCode.toNat) (by omega) (by omega)
  refine ⟨irq_eq_true, statusWord s, rfl, ?_, ?_, ?_, ?_, ?_, ?_, ?_⟩
  · rw [hbit0, busy_eq_true]
  · exact getLsbD_of_toNat (low := s.busy.toNat)
      (high := (errFlag s).toNat + 2 * s.frameValid.toNat + 64 * s.errCode.toNat) (by omega) (by omega)
  · rw [hbit2, errFlag, bne_iff_ne]
  · exact getLsbD_of_toNat (low := s.busy.toNat + 2 * s.done.toNat + 4 * (errFlag s).toNat)
      (high := 16 * s.errCode.toNat) (by omega) (by omega)
  · exact extractLsb'_of_toNat
      (low := s.busy.toNat + 2 * s.done.toNat + 4 * (errFlag s).toNat + 8 * s.frameValid.toNat) (high := 0)
      (by omega) (by omega)
  · exact extractLsb'_of_toNat
      (low := s.busy.toNat + 2 * s.done.toNat + 4 * (errFlag s).toNat + 8 * s.frameValid.toNat)
      (high := s.errCode.toNat) (by omega) (by simp; omega)
  · exact extractLsb'_of_toNat (low := (statusWord s).toNat) (high := 0) (by omega) (by simp)

/-! ### Power-on reset -/

/-- Every register reads its reset value, whatever BUF and the model's own records hold (R21, R290). -/
theorem resetReads_resetWith (p : Params) (buf : List Host.Cell) (epoch draws : Nat) (readData : Word)
    (pending : List Event) :
    ResetReads p { State.resetWith p with
      buf := buf, epoch := epoch, draws := draws, readData := readData, pending := pending } := by
  refine ⟨rfl, congrArg _ (capWord_eq p), rfl, rfl, rfl, rfl, rfl, rfl, rfl, rfl, rfl, ?_, rfl, rfl,
    (by decide : ((0 : BitVec 3) &&& 0 != 0) = false)⟩
  simp only [List.forall_mem_cons]
  exact ⟨rfl, rfl, rfl, rfl, rfl, rfl, rfl, rfl, rfl, rfl, rfl, rfl, rfl, rfl, rfl, rfl, rfl, rfl, rfl, rfl, rfl, rfl,
    fun _ h => nomatch h⟩

/-- A step whose event is a power-on reset performs it (R290). -/
theorem step_powerOn {s : State} {rest : List Event} (h : s.pending = .powerOn :: rest) :
    step s = .next (State.powerOnReset { s with pending := rest }) := by
  simp [step, nextEvent, h]

/-- Settles O55: both states are the reset state up to the model's own records. -/
theorem resetRegisterValues : Obligations.ResetRegisterValues :=
  ⟨fun p => resetReads_resetWith p [] 0 0 0 [], fun _ _ h =>
    ⟨_, step_powerOn h, resetReads_resetWith _ _ _ _ _ _, rfl, fun _ => rfl⟩⟩

/-! ### Soft reset -/

/-- A soft reset changes no byte of BUF outside the destination it leaves unspecified (R292). -/
theorem byteAt_softReset {s : State} {a : Nat} (h : a < s.dst.toNat ∨ s.dst.toNat + scrambleLen s ≤ a) :
    byteAt s.softReset a = byteAt s a := by
  have hbuf : byteAt s.softReset a =
      byteAt (s.storeBytes s.dst.toNat (freeBytes s.draws (scrambleLen s))) a := rfl
  rw [hbuf, byteAt_storeBytes_outside _ _ (by simpa [freeBytes] using h)]

theorem scrambleLen_idle {s : State} (h : s.seq = .idle) : scrambleLen s = 0 := by
  simp [scrambleLen, busy_eq_false.2 h]

/-- The unspecified bytes are no more than the command's output (R292). -/
theorem scrambleLen_le_outLen {s : State} {i : Instr} (hr : s.seq = .run) (hi : currentCommand s = .ok i) :
    scrambleLen s ≤ outLen s i := by
  simp [scrambleLen, busy_eq_true.2 hr, hi]

/-- Settles O56: a soft reset is the reset state but for BUF, and frees no byte outside the destination. -/
theorem softResetRestoresRegisters : Obligations.SoftResetRestoresRegisters := by
  intro s v rest h h0
  refine ⟨_, (step_writeCtrl h).trans (congrArg _ (writeCtrl_reset h0 _)), rfl, fun hidle a => ?_,
    fun i hr hi a ha => ?_⟩
  · have hnone : scrambleLen { s with pending := rest } = 0 := scrambleLen_idle hidle
    refine byteAt_softReset (s := { s with pending := rest }) ?_
    rw [hnone]
    exact Nat.lt_or_ge _ _
  · have hle : scrambleLen { s with pending := rest } ≤ outLen s i :=
      scrambleLen_le_outLen (s := { s with pending := rest }) hr hi
    exact byteAt_softReset (s := { s with pending := rest })
      (ha.imp_right fun hge => (Nat.add_le_add_left hle _).trans hge)

end Sys2Proof.Machine
end

section
/-! One element of a command's loop (spec/40_byteorder.md R141, spec/42_chain.md R172, R173, spec/43_checksum.md R191,
R194, spec/44_frame.md R212, R220): what it reads, what it stores, and its frame. -/

namespace Sys2Proof.Machine

/-! ### The step at an element -/

/-- With an element left and no abort due before it, the step of a command is the body of its loop (R102, R242). -/
theorem exec_atElement {i : Instr} {checks : State → Result CheckResult} {start : State → State}
    {body last : State → Result State} {s : State} (h : AtElement s)
    (hx : exec i s = commandStep checks start body last s) : exec i s = body s := by
  obtain ⟨-, hphase, habort, hlt⟩ := h
  rw [hx, commandStep_loop hphase, loopStep_more hlt habort]

/-- Settles O27: the step is the loop's body, which reads the byte and moves on. -/
theorem checkCommandsTakeOneByte : Obligations.CheckCommandsTakeOneByte := fun s h hin =>
  ⟨(exec_atElement h (exec_sum16 s)).trans (sumByte_eq_next.2 ⟨hin, rfl⟩),
    (exec_atElement h (exec_crc32 s)).trans (crcStep_eq_next.2 ⟨hin, rfl⟩)⟩

/-- PARSE clears FRAME_VALID only before its checks, so its step at an element is the loop's body too (R212). -/
theorem exec_parse_atElement {s : State} (h : AtElement s) : exec .parse s = sumByte s := by
  have hphase : s.phase = .loop := by obtain ⟨-, hphase, -⟩ := h; exact hphase
  have hx := exec_parse s
  rw [parseChecksStart_loop hphase] at hx
  exact exec_atElement h hx

/-- Settles O32: PARSE's loop has the body of SUM16. -/
theorem parseSumsOneByte : Obligations.ParseSumsOneByte := fun _ h hin =>
  (exec_parse_atElement h).trans (sumByte_eq_next.2 ⟨hin, rfl⟩)

/-! ### Elements that are read from one range and stored to another -/

/-- `view` reads what it answers from the `g` bytes at its address. -/
def ViewsBytes {α : Type} (g : Nat) (view : State → Nat → α) : Prop :=
  ∀ {s t : State} {a b : Nat}, (∀ i, i < g → byteAt t (b + i) = byteAt s (a + i)) → view t b = view s a

theorem wordAt_viewsBytes : ViewsBytes 4 wordAt := wordAt_congr

theorem blockAt_viewsBytes (swap : Bool) : ViewsBytes 8 (blockAt · · swap) := blockAt_congr

/-- An element of `g` bytes has been stored at the destination, where `view` reads it as `out`, and the feedback is
`f`; of the registers only these, the index, CUR and the hidden state of the XTEA unit change. -/
structure ElementStored {α : Type} (g : Nat) (view : State → Nat → α) (f : Block) (out : α) (s t : State) : Prop where
  registers : t = { s with
    buf := t.buf, fb := f, index := s.index + 1, cur := BitVec.ofNat 32 (g * (s.index + 1)),
    round := t.round, roundSum := t.roundSum, latch := t.latch }
  value : view t (s.dst.toNat + g * s.index) = out
  frame : ∀ a, a < s.dst.toNat + g * s.index ∨ s.dst.toNat + g * s.index + g ≤ a → byteAt t a = byteAt s a

/-- The body of a loop that reads element `index` of the source, with its range in BUF, and stores `result` of the
key, the element and the feedback in its place in the destination, leaving the feedback at `next` of the same. -/
def StoresElements {α : Type} (g : Nat) (sview dview : State → Nat → α) (next : Key → α → Block → Block)
    (result : Key → α → Block → α) (body : State → Result State) : Prop :=
  ∀ u : State, u.srcBase + g * u.index + g ≤ u.params.bufSize → u.dst.toNat + g * u.index + g ≤ u.params.bufSize →
    ∃ v, body u = .next v ∧
      ElementStored g dview (next u.key (sview u (u.srcBase + g * u.index)) u.fb)
        (result u.key (sview u (u.srcBase + g * u.index)) u.fb) u v

/-- A word stored with its frame. -/
theorem swapWord_stored (u : State) :
    ElementStored 4 wordAt u.fb (bswap32 (wordAt u (u.srcBase + 4 * u.index))) u
      ((u.storeBytes (u.dst.toNat + 4 * u.index)
        (bytesOfWord (bswap32 (wordAt u (u.srcBase + 4 * u.index))) 4)).advance 4) where
  registers := rfl
  value := wordAt_storeBytes u _ _
  frame := fun _ ha => byteAt_storeBytes_outside u _ (by rwa [bytesOfWord_length])

/-- SWAP's loop reverses words and leaves the feedback alone (R141). -/
theorem swapWord_stores :
    StoresElements 4 wordAt wordAt (fun _ _ f => f) (fun _ w _ => bswap32 w) swapWord :=
  fun u hsrc hdst => ⟨_, swapWord_eq_next.2 ⟨hsrc, hdst, rfl⟩, swapWord_stored u⟩

/-- A block stored in a chain with its frame, whatever the cipher's values are. -/
theorem chainBlock_stored (u : State) (x : Rounds) (w f out : Block) (swap : Bool) :
    ElementStored 8 (blockAt · · swap) f out u
      (((u.chained x w f).storeBytes (u.dst.toNat + 8 * u.index) (bytesOfBlock out swap)).advance 8) where
  registers := rfl
  value := blockAt_storeBytes (u.chained x w f) _ out swap
  frame := fun _ ha => byteAt_storeBytes_outside (u.chained x w f) _ (by rwa [bytesOfBlock_length])

/-- CHAIN_ENC's loop stores the enciphered block and feeds it back (R172). -/
theorem chainEncBlock_stores (swi swo : Bool) :
    StoresElements 8 (blockAt · · swi) (blockAt · · swo) (fun k p f => xteaEnc (p.xor f) k)
      (fun k p f => xteaEnc (p.xor f) k) (chainEncBlock swi swo) :=
  fun u hsrc hdst => ⟨_, chainEncBlock_eq_next.2 ⟨hsrc, hdst, rfl⟩, chainBlock_stored u _ _ _ _ swo⟩

/-- The loop of CHAIN_DEC and CHUNK_DEC stores the deciphered block and feeds the ciphertext back (R173, R220). -/
theorem chainDecBlock_stores (swi swo : Bool) :
    StoresElements 8 (blockAt · · swi) (blockAt · · swo) (fun _ c _ => c)
      (fun k c f => (xteaDec c k).xor f) (chainDecBlock swi swo) :=
  fun u hsrc hdst => ⟨_, chainDecBlock_eq_next.2 ⟨hsrc, hdst, rfl⟩, chainBlock_stored u _ _ _ _ swo⟩

/-- Settles O14: the step is the loop's body, which stores the reversed word. -/
theorem swapReversesOneWord : Obligations.SwapReversesOneWord := fun s h hsrc hdst =>
  ⟨_, (exec_atElement h (exec_swap s)).trans (swapWord_eq_next.2 ⟨hsrc, hdst, rfl⟩), rfl,
    (swapWord_stored s).value, (swapWord_stored s).frame⟩

/-- Settles O19: the block stored is the new feedback. -/
theorem chainEncEnciphersOneBlock : Obligations.ChainEncEnciphersOneBlock := by
  intro s swi swo cont h hsrc hdst
  obtain ⟨t, ht, hstored⟩ := chainEncBlock_stores swi swo s hsrc hdst
  have hfb : t.fb = _ := congrArg State.fb hstored.registers
  exact ⟨t, (exec_atElement h (exec_chainEnc swi swo cont s)).trans ht, hstored.registers,
    hstored.value.trans hfb.symm, hstored.frame⟩

/-- Settles O20: CHAIN_DEC and CHUNK_DEC have the same loop. -/
theorem chainDecDeciphersOneBlock : Obligations.ChainDecDeciphersOneBlock := by
  intro s i swi swo cont hi h hsrc hdst
  have hexec : exec i s = chainDecBlock swi swo s := by
    rcases hi with rfl | ⟨rfl, rfl, rfl⟩
    · exact exec_atElement h (exec_chainDec swi swo cont s)
    · exact exec_atElement h (exec_chunkDec s)
  obtain ⟨t, ht, hstored⟩ := chainDecBlock_stores swi swo s hsrc hdst
  exact ⟨t, hexec.trans ht, hstored.registers, hstored.value, hstored.frame⟩

end Sys2Proof.Machine
end

section
/-! Whole runs of the commands that read one range of BUF and write another (spec/40_byteorder.md R141,
spec/42_chain.md R170 to R173): what holds after `k` elements of the loop, that a source element is still as it was
at the start when its turn comes, and from these the run to its completion. -/

namespace Sys2Proof.Machine

/-! ### After `k` elements -/

/-- `k` elements of `g` bytes have been stored since the start `s` of the loop: `dview` reads element `j` of the
destination as `out j`, the feedback is `fb k`, and the registers otherwise changed only as one element changes them. -/
structure StoredUpTo {α : Type} (g : Nat) (dview : State → Nat → α) (fb : Nat → Block) (out : Nat → α) (s : State)
    (k : Nat) (u : State) : Prop where
  registers : u = { s with
    buf := u.buf, fb := fb k, index := k, cur := if k = 0 then s.cur else BitVec.ofNat 32 (g * k),
    round := u.round, roundSum := u.roundSum, latch := u.latch }
  values : ∀ j, j < k → dview u (s.dst.toNat + g * j) = out j
  frame : ∀ a, a < s.dst.toNat ∨ s.dst.toNat + g * k ≤ a → byteAt u a = byteAt s a

/-- A command's loop with `count` elements of `g` bytes is about to begin: no abort is pending, both ranges lie in
BUF, and they are equal or apart. -/
structure LoopReady (g : Nat) (s : State) : Prop where
  run : s.seq = .run
  phase : s.phase = .loop
  abort : s.abortPend = false
  index : s.index = 0
  source : s.srcBase + g * s.count ≤ s.params.bufSize
  dest : s.dst.toNat + g * s.count ≤ s.params.bufSize
  apart : s.dst.toNat = s.srcBase ∨ s.dst.toNat + g * s.count ≤ s.srcBase ∨ s.srcBase + g * s.count ≤ s.dst.toNat

section
variable {α : Type} {g : Nat} {sview dview : State → Nat → α} {fb : Nat → Block} {out : Nat → α} {s u v : State}
  {k : Nat}

/-- Element `j` of a range ends no later than element `k` begins when `j < k`. -/
theorem element_end_le {j : Nat} (h : j < k) : g * j + g ≤ g * k := Nat.mul_le_mul_left g h

theorem StoredUpTo.zero (hindex : s.index = 0) (hfb : fb 0 = s.fb) : StoredUpTo g dview fb out s 0 s where
  registers := by
    rw [hfb, if_pos rfl]
    exact (congrArg (fun n => { s with index := n }) hindex :)
  values := fun _ hj => absurd hj (Nat.not_lt_zero _)
  frame := fun _ _ => rfl

/-- One more element: it lies past the elements stored before it, which so keep their values. -/
theorem StoredUpTo.succ (hview : ViewsBytes g dview) (h : StoredUpTo g dview fb out s k u)
    (he : ElementStored g dview (fb (k + 1)) (out k) u v) : StoredUpTo g dview fb out s (k + 1) v := by
  have hindex : u.index = k := congrArg State.index h.registers
  have hdst : u.dst = s.dst := (congrArg State.dst h.registers :)
  have hvalue := he.value
  have hframe := he.frame
  rw [hindex, hdst] at hvalue hframe
  refine ⟨?_, fun j hj => ?_, fun a ha => ?_⟩
  · rw [if_neg (Nat.succ_ne_zero k)]
    exact he.registers.trans (by rw [hindex]; rw [h.registers])
  · rcases Nat.lt_succ_iff_lt_or_eq.1 hj with hlt | rfl
    · have hle := element_end_le (g := g) hlt
      rw [← h.values j hlt]
      exact hview fun i hi => hframe _ (.inl (by omega))
    · exact hvalue
  · have hle : g * k + g = g * (k + 1) := rfl
    rw [hframe a (by omega), h.frame a (by omega)]

/-- A source element is read as it was at the start of the loop: if the ranges are equal, the elements stored so far
lie before it, and otherwise elsewhere (R141, R172, R173). -/
theorem StoredUpTo.source (hview : ViewsBytes g sview) (hready : LoopReady g s) (h : StoredUpTo g dview fb out s k u)
    (hk : k < s.count) : sview u (s.srcBase + g * k) = sview s (s.srcBase + g * k) := by
  have hle := element_end_le (g := g) hk
  refine hview fun i hi => h.frame _ ?_
  rcases hready.apart with heq | hbefore | hafter <;> omega

/-- The next element of the loop, whose feedback and results follow the body's recursion. -/
theorem StoredUpTo.element {next : Key → α → Block → Block} {result : Key → α → Block → α}
    {body : State → Result State} (hs : ViewsBytes g sview) (hd : ViewsBytes g dview) (hready : LoopReady g s)
    (hbody : StoresElements g sview dview next result body) (h : StoredUpTo g dview fb out s k u) (hk : k < s.count)
    (hfb : fb (k + 1) = next s.key (sview s (s.srcBase + g * k)) (fb k))
    (hout : out k = result s.key (sview s (s.srcBase + g * k)) (fb k)) :
    ∃ v, body u = .next v ∧ StoredUpTo g dview fb out s (k + 1) v := by
  have hindex : u.index = k := congrArg State.index h.registers
  have hdst : u.dst = s.dst := (congrArg State.dst h.registers :)
  have hbase : u.srcBase = s.srcBase := (congrArg State.srcBase h.registers :)
  have hparams : u.params = s.params := (congrArg State.params h.registers :)
  have hkey : u.key = s.key := (congrArg State.key h.registers :)
  have hfeed : u.fb = fb k := congrArg State.fb h.registers
  have hle := element_end_le (g := g) hk
  have hsource := hready.source
  have hdest := hready.dest
  obtain ⟨v, hv, he⟩ := hbody u (by rw [hbase, hindex, hparams]; omega) (by rw [hdst, hindex, hparams]; omega)
  rw [hkey, hbase, hindex, hfeed, h.source hs hready hk, ← hfb, ← hout] at he
  exact ⟨v, hv, h.succ hd he⟩

/-- The loop runs to its end: after all its elements the command completes (R102, R304). -/
theorem LoopReady.runCommand {i : Instr} {next : Key → α → Block → Block} {result : Key → α → Block → α}
    {body : State → Result State} (hs : ViewsBytes g sview) (hd : ViewsBytes g dview)
    (hbody : StoresElements g sview dview next result body)
    (hloop : ∀ u : State, u.phase = .loop → exec i u = loopStep body finishPlain u) (hready : LoopReady g s)
    (hzero : fb 0 = s.fb) (hfb : ∀ k, fb (k + 1) = next s.key (sview s (s.srcBase + g * k)) (fb k))
    (hout : ∀ k, out k = result s.key (sview s (s.srcBase + g * k)) (fb k)) :
    ∃ v, StoredUpTo g dview fb out s s.count v ∧ runCommand i (s.count + 1) s = .next v.complete := by
  refine runCommand_loop (StoredUpTo g dview fb out s) hloop (fun k u h => ?_)
    (fun k u hk h => h.element hs hd hready hbody hk (hfb k) (hout k)) s.count 0 s (Nat.zero_add _)
    (.zero hready.index hzero)
  exact ⟨(congrArg State.seq h.registers).trans hready.run, (congrArg State.phase h.registers).trans hready.phase,
    (congrArg State.abortPend h.registers).trans hready.abort, congrArg State.index h.registers,
    (congrArg State.count h.registers :)⟩

/-- After its elements the command completes successfully, with CUR at their end and the last feedback. -/
theorem StoredUpTo.completed {cur : Word} (h : StoredUpTo g dview fb out s k u)
    (hcur : (if k = 0 then s.cur else BitVec.ofNat 32 (g * k)) = cur) :
    u.complete = { successOf (s.withScratch u.complete) with buf := u.complete.buf, cur := cur, fb := fb k } := by
  rw [← hcur, h.registers]
  rfl

end

/-! ### SWAP -/

/-- Ranges that are equal or apart are the ones the checks for a partial overlap let pass. -/
theorem eq_or_meets_eq_false_iff {src dst : Word} {n : Nat} : dst = src ∨ meets src.toNat n dst.toNat n = false ↔
    dst = src ∨ dst.toNat + n ≤ src.toNat ∨ src.toNat + n ≤ dst.toNat :=
  or_congr_right (by rw [meets_eq_false]; omega)

/-- SWAP stands before its first word once its checks have passed (R141). -/
theorem swapStart_loopReady {s : State} (h : AtStart s) (hc : swapChecks s = none) : LoopReady 4 (swapStart s) := by
  obtain ⟨hrun, -, habort⟩ := h
  obtain ⟨hsrc, hdst, halign, hoverlap⟩ := swapChecks_eq_none.1 hc
  have hlen : 4 * (s.len.toNat / 4) = s.len.toNat := by omega
  rw [eq_or_meets_eq_false_iff, ← hlen] at hoverlap
  rw [← hlen] at hsrc hdst
  exact ⟨hrun, rfl, habort, rfl, hsrc, hdst, hoverlap.imp_left (congrArg _)⟩

/-- Settles O15: the loop of LEN/4 words runs to its end from what the checks have passed. -/
theorem swapReversesEveryWord : Obligations.SwapReversesEveryWord := by
  intro s h hsrc hdst halign hapart
  have hchecks : swapChecks s = none := swapChecks_eq_none.2 ⟨hsrc, hdst, halign, eq_or_meets_eq_false_iff.2 hapart⟩
  have hlen : 4 * (s.len.toNat / 4) = s.len.toNat := by omega
  have hloop (u : State) (hu : u.phase = .loop) : exec .swap u = loopStep swapWord finishPlain u :=
    (exec_swap u).trans (commandStep_loop hu)
  have hready := swapStart_loopReady h hchecks
  obtain ⟨v, hv, hdone⟩ := hready.runCommand (fb := fun _ => s.fb) wordAt_viewsBytes wordAt_viewsBytes
    swapWord_stores hloop rfl (fun _ => rfl) (fun _ => rfl)
  obtain ⟨hrun, hphase, -⟩ := h
  have hstart := runCommand_start (exec_swap s) hloop hrun hphase (congrArg _ hchecks) hready.run rfl
    (s.len.toNat / 4)
  refine ⟨v.complete, hstart.trans hdone, hv.completed ?_, hv.values, fun a ha => hv.frame a (hlen.symm ▸ ha)⟩
  show (if s.len.toNat / 4 = 0 then s.cur else BitVec.ofNat 32 (4 * (s.len.toNat / 4))) = _
  rw [hlen, BitVec.ofNat_toNat, BitVec.setWidth_eq]
  exact if_congr (by rw [← BitVec.toNat_inj]; show _ ↔ _ = 0; omega) rfl rfl

/-! ### The chained commands -/

/-- The checks of a chained command pass when its ranges lie in BUF and are equal or apart (R172). -/
theorem chainChecks_passed {s : State} (hsrc : s.src.toNat + s.len.toNat ≤ s.params.bufSize)
    (hdst : s.dst.toNat + 8 * (s.len.toNat / 8) ≤ s.params.bufSize)
    (hapart : s.dst = s.src ∨ s.dst.toNat + 8 * (s.len.toNat / 8) ≤ s.src.toNat ∨
      s.src.toNat + 8 * (s.len.toNat / 8) ≤ s.dst.toNat) : chainChecks s = none :=
  chainChecks_eq_none.2 ⟨hsrc, hdst, eq_or_meets_eq_false_iff.2 hapart⟩

/-- An empty range meets no frame (R94). -/
theorem meetsFrame_zero (s : State) (a : Nat) : meetsFrame s a 0 = false := meets_eq_false.2 (.inl rfl)

/-- With no whole block the start of a chained command keeps FRAME_VALID (R94). -/
theorem chainStart_frameValid_of_lt {s : State} (cont : Bool) (h : s.len.toNat < 8) :
    (chainStart cont s).frameValid = s.frameValid := by
  show (s.frameValid && !meetsFrame s s.dst.toNat (8 * (s.len.toNat / 8))) = s.frameValid
  rw [Nat.div_eq_of_lt h, meetsFrame_zero, Bool.not_false, Bool.and_true]

/-- The first step of a chained command whose checks pass is that of its loop (R171, R260). -/
theorem exec_chain_start {s : State} {i : Instr} {swi swo cont : Bool}
    (hi : i = .chainEnc swi swo cont ∨ i = .chainDec swi swo cont) (hphase : s.phase = .check)
    (hchecks : chainChecks s = none) : ∃ body, exec i s = loopStep body finishPlain (chainStart cont s) := by
  rcases hi with rfl | rfl
  · exact ⟨_, (exec_chainEnc swi swo cont s).trans (commandStep_passed hphase (congrArg _ hchecks))⟩
  · exact ⟨_, (exec_chainDec swi swo cont s).trans (commandStep_passed hphase (congrArg _ hchecks))⟩

/-- Settles O18: with no whole block the loop ends at once, and an abort due at element 0 comes before any block. -/
theorem chainStartsFeedback : Obligations.ChainStartsFeedback := by
  intro s i swi swo cont hrun hphase hi hsrc hdst hapart
  obtain ⟨body, hexec⟩ := exec_chain_start hi hphase (chainChecks_passed hsrc hdst hapart)
  have hcount : (chainStart cont s).count = s.len.toNat / 8 := rfl
  have hindex : (chainStart cont s).index = 0 := rfl
  refine ⟨fun hlen => ⟨_, hexec.trans (loopStep_last (by omega)), ?_⟩, fun hlen hpend hat =>
    ⟨_, hexec.trans (loopStep_abort (by omega) (abortDue_eq_true.2 ⟨hpend, hat.le⟩)), rfl⟩⟩
  exact congrArg (fun valid => { (chainStart cont s).complete with frameValid := valid })
    (chainStart_frameValid_of_lt cont hlen)

/-- A chained command stands before its first block once its checks have passed (R171). -/
theorem chainStart_loopReady {s : State} (cont : Bool) (h : AtStart s) (hc : chainChecks s = none) :
    LoopReady 8 (chainStart cont s) := by
  obtain ⟨hrun, -, habort⟩ := h
  obtain ⟨-, -, hoverlap⟩ := chainChecks_eq_none.1 hc
  obtain ⟨hsrc, hdst⟩ := chain_ranges hc
  rw [eq_or_meets_eq_false_iff] at hoverlap
  exact ⟨hrun, rfl, habort, rfl, hsrc, hdst, hoverlap.imp_left (congrArg _)⟩

/-- A chained command from its first step to its completion, for feedbacks `fb` and results `out` that follow its
body's recursion (R170 to R173). -/
theorem chain_runs {i : Instr} {swi swo cont : Bool} {next result : Key → Block → Block → Block}
    {body : State → Result State} {fb out : Nat → Block} {s : State}
    (hexec : ∀ u, exec i u = commandStep (fun u => .next (chainChecks u)) (chainStart cont) body finishPlain u)
    (hbody : StoresElements 8 (blockAt · · swi) (blockAt · · swo) next result body)
    (hzero : fb 0 = if cont then s.fb else ⟨0, 0⟩)
    (hfb : ∀ k, fb (k + 1) = next s.key (blockAt s (s.src.toNat + 8 * k) swi) (fb k))
    (hout : ∀ k, out k = result s.key (blockAt s (s.src.toNat + 8 * k) swi) (fb k)) (h : AtStart s)
    (hchecks : chainChecks s = none) :
    ∃ t, runCommand i (s.len.toNat / 8 + 1) s = .next t ∧
      t = { successOf (s.withScratch t) with
              buf := t.buf,
              cur := if s.len.toNat < 8 then s.cur else BitVec.ofNat 32 (8 * (s.len.toNat / 8)),
              fb := fb (s.len.toNat / 8),
              frameValid := s.frameValid && !meetsFrame s s.dst.toNat (8 * (s.len.toNat / 8)) } ∧
      (∀ j, j < s.len.toNat / 8 → blockAt t (s.dst.toNat + 8 * j) swo = out j) ∧
      ∀ a, a < s.dst.toNat ∨ s.dst.toNat + 8 * (s.len.toNat / 8) ≤ a → byteAt t a = byteAt s a := by
  have hloop (u : State) (hu : u.phase = .loop) : exec i u = loopStep body finishPlain u :=
    (hexec u).trans (commandStep_loop hu)
  have hready := chainStart_loopReady cont h hchecks
  obtain ⟨v, hv, hdone⟩ := hready.runCommand (fb := fb) (out := out) (blockAt_viewsBytes swi) (blockAt_viewsBytes swo)
    hbody hloop hzero hfb hout
  obtain ⟨hrun, hphase, -⟩ := h
  have hstart := runCommand_start (hexec s) hloop hrun hphase (congrArg _ hchecks) hready.run rfl (s.len.toNat / 8)
  exact ⟨v.complete, hstart.trans hdone, hv.completed (if_congr (Nat.div_eq_zero_iff_lt (by decide)) rfl rfl),
    hv.values, hv.frame⟩

/-- Settles O21: `C_k` is both the result of block `k` and the feedback of the next. -/
theorem chainEncRunsTheChain : Obligations.ChainEncRunsTheChain := fun s swi swo cont h hsrc hdst hapart =>
  chain_runs (out := fun j => chainCipher s.key _ _ (j + 1)) (exec_chainEnc swi swo cont)
    (chainEncBlock_stores swi swo) rfl (fun _ => rfl) (fun _ => rfl) h (chainChecks_passed hsrc hdst hapart)

/-- Settles O22: the feedback before block `k` is the ciphertext block before it. -/
theorem chainDecRunsTheChain : Obligations.ChainDecRunsTheChain := fun _ swi swo cont h hsrc hdst hapart =>
  chain_runs (fb := chainFeedback _ _) (exec_chainDec swi swo cont) (chainDecBlock_stores swi swo) rfl
    (fun _ => rfl) (fun _ => rfl) h (chainChecks_passed hsrc hdst hapart)

end Sys2Proof.Machine
end

section
/-! The host's accesses to BUF and to the register space (spec/20_memory.md R89 to R95), and that every step of an
engine of the invariant answers (R84, spec/44_frame.md R215). -/

namespace Sys2Proof.Machine

/-! ### The sequencer's turn -/

theorem sequencerStep_running {s : State} {i : Instr} (hr : s.seq = .run) (hi : currentCommand s = .ok i) :
    sequencerStep s = exec i s := by
  simp [sequencerStep, hr, hi]

theorem sequencerStep_idle {s : State} (h : s.seq = .idle) : sequencerStep s = .next s := by
  simp [sequencerStep, h]

theorem step_sequencer {s : State} {rest : List Event} (h : s.pending = .sequencer :: rest) :
    step s = sequencerStep { s with pending := rest } := by
  simp [step, nextEvent, h]

theorem step_nothingPending {s : State} (h : s.pending = []) : step s = sequencerStep s := by
  simp [step, nextEvent, h]

/-- While a command runs the host's WAIT gives the sequencer its turn (R127, R303). -/
theorem step_wait_running {s : State} {rest : List Event} (h : s.pending = .wait :: rest) (hr : s.seq = .run) :
    step s = sequencerStep s := by
  simp [step, nextEvent, waitStep, h, hr]

theorem step_wait_idle {s : State} {rest : List Event} (h : s.pending = .wait :: rest) (hidle : s.seq = .idle) :
    step s = .next (State.answer { s with pending := rest } (statusWord s)) := by
  simp [step, nextEvent, waitStep, h, hidle]

/-- Settles O5: each of the three events gives the sequencer its turn. -/
theorem stepRunsTheCommandInCmd : Obligations.StepRunsTheCommandInCmd := fun s _ hr hi =>
  ⟨fun rest h => (step_sequencer h).trans (sequencerStep_running (s := { s with pending := rest }) hr hi),
    fun h => (step_nothingPending h).trans (sequencerStep_running hr hi),
    fun _ h => (step_wait_running h hr).trans (sequencerStep_running hr hi)⟩

/-! ### Refused accesses -/

/-- A BUF access is refused while a command runs, past the end of BUF, and off its alignment (R91, R92). -/
theorem bufAccess_eq_none {s : State} {a : Nat} {w : Width}
    (h : s.seq = .run ∨ (∃ n, w.bytes = some n ∧ s.params.bufSize < a + n) ∨ ∃ n, w.bytes = some n ∧ a % n ≠ 0) :
    bufAccess s a w = none := by
  refine Option.eq_none_iff_forall_ne_some.2 fun m hm => ?_
  obtain ⟨hidle, hbytes, halign, hin⟩ := bufAccess_eq_some.1 hm
  rcases h with hrun | ⟨n, hn, hpast⟩ | ⟨n, hn, hodd⟩
  · rw [hidle] at hrun; nomatch hrun
  · obtain rfl : n = m := Option.some.inj (hn.symm.trans hbytes)
    omega
  · obtain rfl : n = m := Option.some.inj (hn.symm.trans hbytes)
    exact hodd halign

theorem readBuf_refused {s : State} {a : Nat} {w : Width} (h : bufAccess s a w = none) :
    readBuf a w s = s.accessError.answer 0 := by
  simp [readBuf, h]

theorem writeBuf_refused {s : State} {a : Nat} {w : Width} {v : Word} (h : bufAccess s a w = none) :
    writeBuf a w v s = s.accessError := by
  simp [writeBuf, h]

/-- Settles O42: the access is refused in each of the three cases. -/
theorem bufAccessRefused : Obligations.BufAccessRefused := by
  intro s a w v rest ha h
  have hnone : bufAccess { s with pending := rest } a w = none := bufAccess_eq_none h
  exact ⟨fun hw => (step_bufWrite hw ha).trans (congrArg _ (writeBuf_refused hnone)),
    fun hr => (step_bufRead hr ha).trans (congrArg _ (readBuf_refused hnone))⟩

/-- Settles O44: an access to the register space has to be a word at a multiple of 4. -/
theorem badRegisterAccessRefused : Obligations.BadRegisterAccessRefused := by
  intro s off w v rest hoff hbad
  have hreg := regionOf_register s.params.hostBase off hoff
  have hrefused : (w == .word && off % 4 == 0) = false := by
    rw [Bool.and_eq_false_iff, beq_eq_false_iff_ne, beq_eq_false_iff_ne]
    exact hbad
  refine ⟨fun h => ?_, fun h => ?_⟩ <;> rw [step_host h]
  · simp [hostAccess, hreg, hrefused, State.accessError]
  · simp [hostAccess, hreg, hrefused, State.accessError, State.answer]

/-! ### Accepted BUF accesses -/

theorem readBuf_accepted {s : State} {a n : Nat} {w : Width} (h : bufAccess s a w = some n) :
    readBuf a w s = s.answer (bufValue s a n) := by
  simp [readBuf, h]

theorem writeBuf_accepted {s : State} {a n : Nat} {w : Width} {v : Word} (h : bufAccess s a w = some n) :
    writeBuf a w v s = (s.clearFrame a n).storeBytes a (bytesOfWord v n) := by
  simp [writeBuf, h]

/-- The widths the BUF space takes (R91). -/
theorem bytes_cases {w : Width} {n : Nat} (h : w.bytes = some n) : n = 1 ∨ n = 2 ∨ n = 4 := by
  cases w with
  | other bytes => nomatch h
  | byte | half | word => cases h; decide

/-- An address inside BUF lies in BUF's part of the window (R7, R82). -/
theorem address_lt_of_wf {s : State} {a n : Nat} {w : Width} (hw : w.bytes = some n)
    (hin : a + n ≤ s.params.bufSize) (hwf : s.params.wf = true) : a < 0x1000000 := by
  simp only [Params.wf, Bool.and_eq_true, decide_eq_true_eq] at hwf
  have := bytes_cases hw
  omega

/-- A byte of the `n` stored of a word is that byte of the word (R89). -/
theorem byteAt_storeBytes_bytesOfWord (s : State) (a : Nat) (v : Word) {n j : Nat} (hj : j < n) :
    byteAt (s.storeBytes a (bytesOfWord v n)) (a + j) = byteOf v j := by
  rw [byteAt_storeBytes_inside _ _ _ _ (by rwa [bytesOfWord_length]), bytesOfWord_getElem]

/-- FRAME_VALID stays exactly when it stood and no byte of the range is the frame's (R93). -/
theorem clearFrame_frameValid_eq_true {s : State} {a n : Nat} : (s.clearFrame a n).frameValid = true ↔
    s.frameValid = true ∧ ¬ ∃ x, a ≤ x ∧ x < a + n ∧ s.frameBase.toNat ≤ x ∧
      x < s.frameBase.toNat + s.frameLen.toNat := by
  rw [State.clearFrame_frameValid, Bool.and_eq_true, Bool.not_eq_true', ← Bool.not_eq_true, meetsFrame,
    meets_iff_shared]

/-- Settles O46: the write is accepted, and stores the low bytes of its word. -/
theorem hostBufWriteStoresLittleEndian : Obligations.HostBufWriteStoresLittleEndian := by
  intro s a n w v rest hidle hw halign hin hwf h
  have haccess : bufAccess { s with pending := rest } a w = some n :=
    bufAccess_eq_some.2 ⟨hidle, hw, halign, hin⟩
  refine ⟨_, (step_bufWrite h (address_lt_of_wf hw hin hwf)).trans (congrArg _ (writeBuf_accepted haccess)), rfl,
    fun j hj => byteAt_storeBytes_bytesOfWord _ a v hj, fun c hc => ?_, clearFrame_frameValid_eq_true⟩
  exact byteAt_storeBytes_outside _ (bytesOfWord v n) (by rwa [bytesOfWord_length])

/-- The value of an access as the sum of its bytes, the lowest address first (R89). -/
theorem toNat_bufValue (s : State) (a : Nat) {n : Nat} (hn : n = 1 ∨ n = 2 ∨ n = 4) : (bufValue s a n).toNat =
    ((List.range n).map fun j => 2 ^ (8 * j) * (byteAt s (a + j)).toNat).sum := by
  rcases hn with rfl | rfl | rfl
  · show ((byteAt s a).setWidth 32).toNat = 1 * (byteAt s a).toNat + 0
    have := (byteAt s a).isLt
    rw [BitVec.toNat_setWidth]
    omega
  · show ((halfAt s a).setWidth 32).toNat = 1 * (byteAt s a).toNat + (0x100 * (byteAt s (a + 1)).toNat + 0)
    have := (byteAt s a).isLt
    have := (byteAt s (a + 1)).isLt
    rw [BitVec.toNat_setWidth, halfAt, toNat_halfOfBytes]
    omega
  · show (wordAt s a).toNat = 1 * (byteAt s a).toNat + (0x100 * (byteAt s (a + 1)).toNat +
      (0x10000 * (byteAt s (a + 2)).toNat + (0x1000000 * (byteAt s (a + 3)).toNat + 0)))
    rw [wordAt, toNat_wordOfBytes]
    omega

/-- Settles O47: the read is accepted, and its value is put together from the bytes. -/
theorem hostBufReadReturnsLittleEndian : Obligations.HostBufReadReturnsLittleEndian := by
  intro s a n w rest hidle hw halign hin hwf h
  have haccess : bufAccess { s with pending := rest } a w = some n :=
    bufAccess_eq_some.2 ⟨hidle, hw, halign, hin⟩
  exact ⟨_, (step_bufRead h (address_lt_of_wf hw hin hwf)).trans (congrArg _ (readBuf_accepted haccess)), rfl,
    toNat_bufValue { s with pending := rest } a (bytes_cases hw)⟩

/-! ### Reads have no side effect -/

/-- What a host read may change: the value returned, the model's records of draws and of the last CUR read, and
ACC_IS (R95, R265). -/
def ReadFrame (s t : State) : Prop :=
  t = { s with intStatus := t.intStatus, readData := t.readData, draws := t.draws, curSeen := t.curSeen } ∧
  (t.intStatus = s.intStatus ∨ t.intStatus = s.intStatus ||| 0b100)

theorem readFrame_answer (s : State) (v : Word) : ReadFrame s (s.answer v) := ⟨rfl, .inl rfl⟩

theorem readFrame_refused (s : State) : ReadFrame s (s.accessError.answer 0) := ⟨rfl, .inr rfl⟩

theorem readReg_frame {r : Reg} {s t : State} (h : readReg r s = .next t) : ReadFrame s t := by
  unfold readReg at h
  split at h
  · split at h
    · obtain ⟨v, -, ⟨⟩⟩ := andThen_eq_next.1 h
      exact readFrame_answer s v
    · cases h
      exact ⟨rfl, .inl rfl⟩
    · cases h
      exact ⟨rfl, .inl rfl⟩
  · obtain ⟨v, -, ⟨⟩⟩ := andThen_eq_next.1 h
    exact readFrame_answer s v

theorem readBuf_frame (a : Nat) (w : Width) (s : State) : ReadFrame s (readBuf a w s) := by
  cases h : bufAccess s a w with
  | some n => exact readBuf_accepted h ▸ readFrame_answer s _
  | none => exact readBuf_refused h ▸ readFrame_refused s

/-- Every read, by the region of its address (R82). -/
theorem hostAccess_read_frame {address : Nat} {w : Width} {s t : State}
    (h : hostAccess (.read address w) s = .next t) : ReadFrame s t := by
  simp only [hostAccess] at h
  split at h
  · cases h; exact ⟨rfl, .inl rfl⟩
  · cases h; exact readFrame_answer s 0
  · cases h; exact readBuf_frame _ w s
  · split at h
    · split at h
      · exact readReg_frame h
      · cases h; exact readFrame_answer s 0
    · cases h; exact readFrame_refused s

/-- Settles O49, by the frame of every read. -/
theorem hostReadHasNoSideEffect : Obligations.HostReadHasNoSideEffect := by
  intro s t address w rest h hstep
  exact hostAccess_read_frame ((step_host h).symm.trans hstep)

/-! ### Every step answers -/

/-- A register read answers: the chunk view reads inside BUF (R215). -/
theorem StoreInv.readReg_answers {s : State} (h : StoreInv s) (r : Reg) : ∃ t, readReg r s = .next t := by
  obtain ⟨v, hv⟩ := h.regValue_answer r
  unfold readReg
  rw [hv, andThen_next]
  split
  · split <;> exact ⟨_, rfl⟩
  · exact ⟨_, rfl⟩

/-- A host transaction answers, by its region (R82). -/
theorem StoreInv.hostAccess_answers {s : State} (h : StoreInv s) (x : Access) : ∃ t, hostAccess x s = .next t := by
  cases x with
  | read address w =>
    simp only [hostAccess]
    split
    · exact ⟨_, rfl⟩
    · exact ⟨_, rfl⟩
    · exact ⟨_, rfl⟩
    · split
      · split
        · exact h.readReg_answers _
        · exact ⟨_, rfl⟩
      · exact ⟨_, rfl⟩
  | write address w v =>
    simp only [hostAccess]
    split
    · exact ⟨_, rfl⟩
    · exact ⟨_, rfl⟩
    · exact ⟨_, rfl⟩
    · split
      · split <;> exact ⟨_, rfl⟩
      · exact ⟨_, rfl⟩

/-- The sequencer's step answers: the command's step never leaves BUF (R84). -/
theorem EngineInv.sequencerStep_answers {s : State} (h : EngineInv s) : ∃ t, Machine.sequencerStep s = .next t := by
  cases hseq : s.seq with
  | idle => exact ⟨s, sequencerStep_idle hseq⟩
  | run =>
    obtain ⟨i, hi, -⟩ := h.running hseq
    obtain ⟨t, ht, -⟩ := exec_outcome (h.atCheck_or_inLoop hseq hi)
    exact ⟨t, (sequencerStep_running hseq hi).trans ht⟩

/-- Settles O59, by the event of the step. -/
theorem noStepLeavesBuf : Obligations.NoStepLeavesBuf := by
  intro s h
  cases hp : s.pending with
  | nil => exact step_nothingPending hp ▸ h.sequencerStep_answers
  | cons event rest =>
    cases event with
    | host x => exact step_host hp ▸ (h.withPending rest).store.hostAccess_answers x
    | sequencer => exact step_sequencer hp ▸ (h.withPending rest).sequencerStep_answers
    | powerOn => exact ⟨_, step_powerOn hp⟩
    | wait =>
      cases hseq : s.seq with
      | run => exact step_wait_running hp hseq ▸ h.sequencerStep_answers
      | idle => exact ⟨_, step_wait_idle hp hseq⟩

end Sys2Proof.Machine
end

section
/-! The encoding of commands (spec/30_encoding.md R120 to R126): a word as its fields, which words decode and to what,
and the completion of a word that is no command. -/

namespace Sys2Proof

/-! ### A word and its fields (R120) -/

theorem opField_eq (w : Word) : opField w = w.toNat % 256 := by
  simp [opField, BitVec.extractLsb'_toNat]

theorem modField_eq (w : Word) : modField w = w.toNat / 256 % 8 := by
  simp [modField, BitVec.extractLsb'_toNat, Nat.shiftRight_eq_div_pow]

theorem rsvField_eq (w : Word) : rsvField w = w.toNat / 2048 := by
  have := w.isLt
  simp only [rsvField, BitVec.extractLsb'_toNat, Nat.shiftRight_eq_div_pow]
  omega

theorem toNat_commandWord {op : Nat} (hop : op < 256) (swi swo cont : Bool) :
    (commandWord op swi swo cont).toNat = op + 256 * swi.toNat + 512 * swo.toNat + 1024 * cont.toNat := by
  have := swi.toNat_le; have := swo.toNat_le; have := cont.toNat_le
  simp only [commandWord, BitVec.toNat_ofNat]
  omega

/-- A word without reserved bits is put together from its opcode and its three modifier bits. -/
theorem commandWord_of_fields {w : Word} (hrsv : rsvField w = 0) :
    commandWord (opField w) (w.getLsbD 8) (w.getLsbD 9) (w.getLsbD 10) = w := by
  have hbit (n : Nat) : (w.getLsbD n).toNat = w.toNat / 2 ^ n % 2 := Nat.toNat_testBit w.toNat n
  rw [rsvField_eq] at hrsv
  apply BitVec.eq_of_toNat_eq
  rw [opField_eq, toNat_commandWord (Nat.mod_lt _ (by decide)), hbit, hbit, hbit]
  omega

/-- A word without reserved bits and modifiers is put together from its opcode. -/
theorem commandWord_of_opField {w : Word} (hrsv : rsvField w = 0) (hmod : modField w = 0) :
    commandWord (opField w) false false false = w := by
  rw [rsvField_eq] at hrsv
  rw [modField_eq] at hmod
  apply BitVec.eq_of_toNat_eq
  rw [opField_eq, toNat_commandWord (Nat.mod_lt _ (by decide))]
  simp only [Bool.toNat_false]
  omega

/-! ### The opcode map (R122) -/

/-- The commands without modifiers have every opcode below 0x0A but the two of the chained commands. -/
theorem plainOp_isSome {op : Nat} : (∃ i, plainOp op = some i) ↔ op < 0x0A ∧ op ≠ 4 ∧ op ≠ 5 := by
  constructor
  · rintro ⟨i, hi⟩
    unfold plainOp at hi
    split at hi <;> simp at hi ⊢
  · rintro ⟨hlt, h4, h5⟩
    interval_cases op <;> simp [plainOp] at h4 h5 ⊢

theorem encode_of_plainOp {op : Nat} {i : Instr} (h : plainOp op = some i) :
    encode i = commandWord op false false false := by
  unfold plainOp at h
  split at h <;> cases h <;> rfl

theorem plainOp_eq_crc32 {op : Nat} : plainOp op = some .crc32 ↔ op = 7 := by
  constructor
  · intro h
    unfold plainOp at h
    split at h <;> cases h
    rfl
  · rintro rfl
    rfl

/-- Only CRC32 depends on the engine (R126). -/
theorem wellFormed_eq_true {hasCrc32 : Bool} {i : Instr} :
    wellFormed hasCrc32 i = true ↔ (i = .crc32 → hasCrc32 = true) := by
  cases i <;> simp [wellFormed]

/-! ### The decoder (R126) -/

/-- What a word decodes to: a chained command with the word's modifier bits, or, without modifiers, a command of the
opcode map that the engine has. -/
theorem decode_eq_ok_iff {hasCrc32 : Bool} {w : Word} {i : Instr} : decode hasCrc32 w = .ok i ↔
    rsvField w = 0 ∧
      ((opField w = 4 ∧ .chainEnc (w.getLsbD 8) (w.getLsbD 9) (w.getLsbD 10) = i) ∨
       (opField w = 5 ∧ .chainDec (w.getLsbD 8) (w.getLsbD 9) (w.getLsbD 10) = i) ∨
       (plainOp (opField w) = some i ∧ modField w = 0 ∧ wellFormed hasCrc32 i = true)) := by
  by_cases hrsv : rsvField w = 0
  case neg => simp [decode, hrsv]
  by_cases h4 : opField w = 4
  · simp [decode, hrsv, h4, plainOp]
  by_cases h5 : opField w = 5
  · simp [decode, hrsv, h5, plainOp]
  cases hplain : plainOp (opField w) with
  | none => simp [decode, hrsv, h4, h5, hplain]
  | some j =>
    by_cases hmod : modField w = 0
    case neg => simp [decode, hrsv, h4, h5, hplain, hmod]
    cases hwf : wellFormed hasCrc32 j <;> simp [decode, hrsv, h4, h5, hplain, hmod, hwf] <;>
      exact fun hji => hji ▸ hwf

/-- A word that decodes is the encoding of the command it decodes to, and the engine has that command. -/
theorem encode_of_decode {hasCrc32 : Bool} {w : Word} {i : Instr} (h : decode hasCrc32 w = .ok i) :
    wellFormed hasCrc32 i = true ∧ encode i = w := by
  obtain ⟨hrsv, ⟨hop, rfl⟩ | ⟨hop, rfl⟩ | ⟨hplain, hmod, hwf⟩⟩ := decode_eq_ok_iff.1 h
  · exact ⟨rfl, by rw [encode, ← hop, commandWord_of_fields hrsv]⟩
  · exact ⟨rfl, by rw [encode, ← hop, commandWord_of_fields hrsv]⟩
  · exact ⟨hwf, by rw [encode_of_plainOp hplain, commandWord_of_opField hrsv hmod]⟩

/-- The encoding of a command of the engine decodes to it: one word for each command and choice of modifiers. -/
theorem decode_encode {hasCrc32 : Bool} {i : Instr} (h : wellFormed hasCrc32 i = true) :
    decode hasCrc32 (encode i) = .ok i := by
  cases i with
  | crc32 => cases h; rfl
  | chainEnc swi swo cont => cases swi <;> cases swo <;> cases cont <;> rfl
  | chainDec swi swo cont => cases swi <;> cases swo <;> cases cont <;> rfl
  | nop | encBlock | decBlock | swap | sum16 | parse | chunkDec => rfl

/-- Settles O2: the two directions are `encode_of_decode` and `decode_encode`. -/
theorem decodeExactlyInvertsEncode : Obligations.DecodeExactlyInvertsEncode :=
  fun _ _ _ => ⟨encode_of_decode, fun ⟨hwf, hw⟩ => hw ▸ decode_encode hwf⟩

/-- Settles O1: each of the ten words is the encoding of its command. -/
theorem specWordsDecode : Obligations.SpecWordsDecode :=
  ⟨decode_encode (i := .nop) rfl, decode_encode (i := .encBlock) rfl, decode_encode (i := .decBlock) rfl,
    decode_encode (i := .swap) rfl, decode_encode (i := .chainEnc true true false) rfl,
    decode_encode (i := .chainDec false false true) rfl, decode_encode (i := .sum16) rfl,
    decode_encode (i := .crc32) rfl, decode_encode (i := .parse) rfl, decode_encode (i := .chunkDec) rfl⟩

end Sys2Proof

namespace Sys2Proof.Machine

/-! ### Illegal words (R125) -/

theorem not_illegalWord {hasCrc32 : Bool} {w : Word} : ¬ illegalWord hasCrc32 w ↔
    opField w < 0x0A ∧ rsvField w = 0 ∧ (opField w ≠ 4 → opField w ≠ 5 → modField w = 0) ∧
      (opField w = 7 → hasCrc32 = true) := by
  simp only [illegalWord, not_or, not_and, not_le, not_not, ne_eq, Bool.not_eq_false]
  tauto

/-- The four cases of R125 are exactly the words that do not decode. -/
theorem decodes_iff_not_illegalWord {hasCrc32 : Bool} {w : Word} :
    (∃ i, decode hasCrc32 w = .ok i) ↔ ¬ illegalWord hasCrc32 w := by
  rw [not_illegalWord]
  constructor
  · rintro ⟨i, hi⟩
    obtain ⟨hrsv, ⟨hop, -⟩ | ⟨hop, -⟩ | ⟨hplain, hmod, hwf⟩⟩ := decode_eq_ok_iff.1 hi
    · simp [hop, hrsv]
    · simp [hop, hrsv]
    · refine ⟨(plainOp_isSome.1 ⟨i, hplain⟩).1, hrsv, fun _ _ => hmod, fun h7 => wellFormed_eq_true.1 hwf ?_⟩
      exact Option.some.inj (hplain.symm.trans (plainOp_eq_crc32.2 h7))
  · rintro ⟨hlt, hrsv, hmod, hcrc⟩
    by_cases h4 : opField w = 4
    · exact ⟨_, decode_eq_ok_iff.2 ⟨hrsv, .inl ⟨h4, rfl⟩⟩⟩
    by_cases h5 : opField w = 5
    · exact ⟨_, decode_eq_ok_iff.2 ⟨hrsv, .inr (.inl ⟨h5, rfl⟩)⟩⟩
    obtain ⟨i, hi⟩ := plainOp_isSome.2 ⟨hlt, h4, h5⟩
    have hwf : wellFormed hasCrc32 i = true :=
      wellFormed_eq_true.2 fun hc => hcrc (plainOp_eq_crc32.1 (hc ▸ hi))
    exact ⟨i, decode_eq_ok_iff.2 ⟨hrsv, .inr (.inr ⟨hi, hmod h4 h5, hwf⟩)⟩⟩

/-- The acceptance of an illegal word is its error completion (R125, R260). -/
theorem accept_illegal {s : State} {w : Word} (h : illegalWord s.params.hasCrc32 w) :
    s.accept w = (s.latchCommand w).raiseError .badCmd w :=
  (accept_cases s w).resolve_left fun ⟨i, hi, _⟩ => decodes_iff_not_illegalWord.1 ⟨i, hi⟩ h

/-- Settles O3: the write is the acceptance of the word, and a word that is not illegal decodes. -/
theorem illegalWordCompletesWithBadCmd : Obligations.IllegalWordCompletesWithBadCmd := by
  intro s w rest hidle h
  refine ⟨fun hbad => ?_, fun hlegal => ?_⟩
  · exact ⟨_, (step_writeCmd hidle h).trans (congrArg _ (accept_illegal (s := { s with pending := rest }) hbad)), rfl⟩
  · obtain ⟨i, hi⟩ := decodes_iff_not_illegalWord.2 hlegal
    exact ⟨_, acceptanceLatchesCommand s w i rest hidle h hi, rfl, rfl, rfl⟩

end Sys2Proof.Machine
end

section
/-! SWAP's error completions and SWAP in place applied twice (spec/40_byteorder.md R141, R142): the check list in its
order, what a whole SWAP in place does, and that two of them reverse every word back. -/

namespace Sys2Proof.Machine

/-! ### The checks in their order (R264) -/

theorem pastBuf_eq_true {s : State} {a n : Nat} : pastBuf s a n = true ↔ s.params.bufSize < a + n :=
  decide_eq_true_iff

/-- A range in BUF passes its check. -/
theorem not_pastBuf {s : State} {a n : Nat} : ¬ pastBuf s a n = true ↔ a + n ≤ s.params.bufSize := by
  rw [pastBuf_eq_true, Nat.not_lt]

/-- The source range is checked first. -/
theorem swapChecks_source {s : State} (h : s.params.bufSize < s.src.toNat + s.len.toNat) :
    swapChecks s = some (.range, 1) :=
  if_pos (pastBuf_eq_true.2 h)

section
variable {s : State} (hsrc : s.src.toNat + s.len.toNat ≤ s.params.bufSize)
include hsrc

/-- The destination range is checked second. -/
theorem swapChecks_dest (h : s.params.bufSize < s.dst.toNat + s.len.toNat) : swapChecks s = some (.range, 2) := by
  rw [swapChecks, if_neg (not_pastBuf.2 hsrc), if_pos (pastBuf_eq_true.2 h)]

variable (hdst : s.dst.toNat + s.len.toNat ≤ s.params.bufSize)
include hdst

/-- LEN is checked once both ranges lie in BUF. -/
theorem swapChecks_align (h : s.len.toNat % 4 ≠ 0) : swapChecks s = some (.align, s.len) := by
  rw [swapChecks, if_neg (not_pastBuf.2 hsrc), if_neg (not_pastBuf.2 hdst), if_pos h]

/-- The partial overlap is checked last. -/
theorem swapChecks_overlap (halign : s.len.toNat % 4 = 0) (hne : s.dst ≠ s.src)
    (h : meets s.src.toNat s.len.toNat s.dst.toNat s.len.toNat = true) : swapChecks s = some (.overlap, 0) := by
  rw [swapChecks, if_neg (not_pastBuf.2 hsrc), if_neg (not_pastBuf.2 hdst), if_neg (not_not.2 halign),
    if_pos ⟨hne, h⟩]

end

/-- A SWAP whose checks answer an error completes with it at its first step (R260, R262). -/
theorem exec_swap_failed {s : State} {e : CmdError} {info : Word} (hphase : s.phase = .check)
    (hc : swapChecks s = some (e, info)) : exec .swap s = .next (errorOf s e.code info) :=
  (exec_swap s).trans (commandStep_failed hphase (congrArg _ hc))

/-- Settles O13: each clause's premises make its check the first one to fail. -/
theorem swapReportsFirstError : Obligations.SwapReportsFirstError := by
  intro s hphase
  refine ⟨fun h => exec_swap_failed hphase (swapChecks_source h),
    fun hsrc h => exec_swap_failed hphase (swapChecks_dest hsrc h),
    fun hsrc hdst h => exec_swap_failed hphase (swapChecks_align hsrc hdst h),
    fun hsrc hdst halign hpos hne hbelow habove => ?_⟩
  have hmeets : meets s.src.toNat s.len.toNat s.dst.toNat s.len.toNat = true :=
    meets_eq_true.2 ⟨hpos, hpos, hbelow, habove⟩
  exact exec_swap_failed hphase (swapChecks_overlap hsrc hdst halign hne hmeets)

/-! ### Bytes and words of a range -/

/-- States with the same `n` words from address `b` up and the same bytes elsewhere read alike at every address. -/
theorem byteAt_eq_of_wordAt_eq {s t : State} {b n : Nat}
    (hwords : ∀ j, j < n → wordAt t (b + 4 * j) = wordAt s (b + 4 * j))
    (hframe : ∀ a, a < b ∨ b + 4 * n ≤ a → byteAt t a = byteAt s a) (a : Nat) : byteAt t a = byteAt s a := by
  by_cases ha : a < b ∨ b + 4 * n ≤ a
  · exact hframe a ha
  · obtain ⟨j, i, hj, hi, rfl⟩ : ∃ j i, j < n ∧ i < 4 ∧ a = b + 4 * j + i :=
      ⟨(a - b) / 4, (a - b) % 4, by omega, by omega, by omega⟩
    rw [byteAt_of_wordAt (hwords j hj) i hi, byteAt_of_wordAt rfl i hi]

/-! ### SWAP in place -/

/-- SWAP over its whole range in place has led from `s` to `t`: it completed with no new error, the range is still
selected, and BUF changed only in that the bytes of each word of the range are reversed. -/
structure SwappedInPlace (s t : State) : Prop where
  idle : t.seq = .idle
  errCode : t.errCode = s.errCode
  params : t.params = s.params
  src : t.src = s.src
  dst : t.dst = s.dst
  len : t.len = s.len
  words : ∀ j, j < s.len.toNat / 4 → wordAt t (s.src.toNat + 4 * j) = bswap32 (wordAt s (s.src.toNat + 4 * j))
  frame : ∀ a, a < s.src.toNat ∨ s.src.toNat + s.len.toNat ≤ a → byteAt t a = byteAt s a

/-- A SWAP in place whose range lies in BUF runs to its end (R141). -/
theorem runCommand_swap_inPlace {s : State} (h : AtStart s) (hsrc : s.src.toNat + s.len.toNat ≤ s.params.bufSize)
    (halign : s.len.toNat % 4 = 0) (heq : s.dst = s.src) :
    ∃ t, runCommand .swap (s.len.toNat / 4 + 1) s = .next t ∧ SwappedInPlace s t := by
  obtain ⟨t, hrun, hregs, hwords, hframe⟩ :=
    swapReversesEveryWord s h hsrc (heq.symm ▸ hsrc) halign (.inl heq)
  rw [heq] at hwords hframe
  exact ⟨t, hrun, congrArg State.seq hregs, (congrArg State.errCode hregs :), (congrArg State.params hregs :),
    (congrArg State.src hregs :), (congrArg State.dst hregs :), (congrArg State.len hregs :), hwords, hframe⟩

/-- A second SWAP over the same range reverses every word back (R140, R142). -/
theorem SwappedInPlace.twice {s t u : State} {w : Word} (halign : s.len.toNat % 4 = 0) (h : SwappedInPlace s t)
    (h' : SwappedInPlace (t.latchCommand w) u) (a : Nat) : byteAt u a = byteAt s a := by
  have hlen : 4 * (s.len.toNat / 4) = s.len.toNat := by omega
  have hwords := h'.words
  have hframe := h'.frame
  rw [State.latchCommand_src, State.latchCommand_len, h.src, h.len] at hwords hframe
  refine byteAt_eq_of_wordAt_eq (b := s.src.toNat) (n := s.len.toNat / 4) (fun j hj => ?_) (fun c hc => ?_) a
  · calc wordAt u (s.src.toNat + 4 * j)
        = bswap32 (wordAt t (s.src.toNat + 4 * j)) := hwords j hj
      _ = bswap32 (bswap32 (wordAt s (s.src.toNat + 4 * j))) := by rw [h.words j hj]
      _ = wordAt s (s.src.toNat + 4 * j) := bswap32_bswap32 _
  · rw [hlen] at hc
    exact (hframe c hc).trans (h.frame c hc)

/-- Settles O16: after the first SWAP the same range is in place for the second, which reverses the words back. -/
theorem swapTwiceInPlaceRestoresBuf : Obligations.SwapTwiceInPlaceRestoresBuf := by
  intro s w h hsrc halign heq
  obtain ⟨t, hrun, ht⟩ := runCommand_swap_inPlace h hsrc halign heq
  have hstart : AtStart (t.latchCommand w) := ⟨rfl, rfl, rfl⟩
  obtain ⟨u, hrun', hu⟩ := runCommand_swap_inPlace hstart (by simpa [ht.src, ht.len, ht.params] using hsrc)
    (by simpa [ht.len] using halign) (by simp [ht.src, ht.dst, heq])
  rw [State.latchCommand_len, ht.len] at hrun'
  exact ⟨t, u, hrun, ht.idle, hrun', hu.idle, hu.errCode, ht.twice halign hu⟩

end Sys2Proof.Machine
end

section
/-! The XTEA unit (spec/41_xtea.md R150 to R156): the sum after any number of rounds, that a deciphering round undoes
an enciphering round, and what the two block commands leave. -/

namespace Sys2Proof.Machine

/-! ### Rounds -/

@[simp] theorem encRound_sum (k : Key) (x : Rounds) : (encRound k x).sum = x.sum + delta := rfl

/-- Deciphering takes the enciphering round's half-round values off again, the last one first (R152, R153). -/
theorem decRound_encRound (k : Key) : Function.LeftInverse (decRound k) (encRound k) := fun x => by
  simp only [decRound, encRound, BitVec.add_sub_cancel]

/-- Enciphering adds the deciphering round's half-round values again, the last one first (R152, R153). -/
theorem encRound_decRound (k : Key) : Function.LeftInverse (encRound k) (decRound k) := fun x => by
  simp only [decRound, encRound, BitVec.sub_add_cancel]

theorem encRounds_eq_iterate (k : Key) (n : Nat) (x : Rounds) : encRounds k n x = (encRound k)^[n] x := by
  induction n generalizing x with
  | zero => rfl
  | succ n ih => exact ih (encRound k x)

theorem decRounds_eq_iterate (k : Key) (n : Nat) (x : Rounds) : decRounds k n x = (decRound k)^[n] x := by
  induction n generalizing x with
  | zero => rfl
  | succ n ih => exact ih (decRound k x)

theorem decRounds_encRounds (k : Key) (n : Nat) (x : Rounds) : decRounds k n (encRounds k n x) = x := by
  rw [encRounds_eq_iterate, decRounds_eq_iterate]
  exact (decRound_encRound k).iterate n x

theorem encRounds_decRounds (k : Key) (n : Nat) (x : Rounds) : encRounds k n (decRounds k n x) = x := by
  rw [encRounds_eq_iterate, decRounds_eq_iterate]
  exact (encRound_decRound k).iterate n x

/-! ### The running sum -/

theorem encRounds_sum (k : Key) (n : Nat) (x : Rounds) :
    (encRounds k n x).sum = x.sum + BitVec.ofNat 32 n * delta := by
  induction n generalizing x with
  | zero => simp [encRounds]
  | succ n ih =>
    rw [encRounds, ih, encRound_sum, BitVec.ofNat_add, BitVec.add_mul, BitVec.one_mul, BitVec.add_assoc,
      BitVec.add_comm delta]

/-- Deciphering counts the sum down by what enciphering, its inverse, counts it up. -/
theorem decRounds_sum (k : Key) (n : Nat) (x : Rounds) :
    (decRounds k n x).sum = x.sum - BitVec.ofNat 32 n * delta := by
  have h := encRounds_sum k n (decRounds k n x)
  rw [encRounds_decRounds] at h
  rw [h, BitVec.add_sub_cancel]

/-- The start value of deciphering is `NROUNDS` times `DELTA` (R153). -/
theorem sumEnd_eq_mul_delta : sumEnd = BitVec.ofNat 32 numRounds * delta := by decide

theorem xteaEncRun_sum (b : Block) (k : Key) : (xteaEncRun b k).sum = sumEnd := by
  rw [xteaEncRun, encRounds_sum, sumEnd_eq_mul_delta]
  exact BitVec.zero_add _

theorem xteaDecRun_sum (b : Block) (k : Key) : (xteaDecRun b k).sum = 0 := by
  rw [xteaDecRun, decRounds_sum, sumEnd_eq_mul_delta, BitVec.sub_self]
  rfl

/-- Settles O10: 32 rounds move the sum by 32 times DELTA. -/
theorem xteaRoundSums : Obligations.XteaRoundSums :=
  fun k b => ⟨xteaEncRun_sum b k, xteaDecRun_sum b k, sumEnd_eq_mul_delta⟩

/-! ### The inverse law (R154) -/

/-- Enciphering ends where deciphering starts, its block with the sum `sumEnd`. -/
theorem xteaEncRun_eq (b : Block) (k : Key) : xteaEncRun b k = ⟨xteaEnc b k, sumEnd⟩ := by
  rw [← xteaEncRun_sum b k, xteaEnc]

/-- Deciphering ends where enciphering starts, its block with the sum 0. -/
theorem xteaDecRun_eq (b : Block) (k : Key) : xteaDecRun b k = ⟨xteaDec b k, 0⟩ := by
  rw [← xteaDecRun_sum b k, xteaDec]

@[simp] theorem xteaDec_xteaEnc (b : Block) (k : Key) : xteaDec (xteaEnc b k) k = b := by
  rw [xteaDec, xteaDecRun, ← xteaEncRun_eq, xteaEncRun, decRounds_encRounds]

@[simp] theorem xteaEnc_xteaDec (b : Block) (k : Key) : xteaEnc (xteaDec b k) k = b := by
  rw [xteaEnc, xteaEncRun, ← xteaDecRun_eq, xteaDecRun, encRounds_decRounds]

/-- Settles O8: each unit starts from the sum the other ends at, so its rounds undo the other's. -/
theorem xteaDecipherInvertsEncipher : Obligations.XteaDecipherInvertsEncipher :=
  fun k b => ⟨xteaDec_xteaEnc b k, xteaEnc_xteaDec b k⟩

/-! ### ENC_BLOCK and DEC_BLOCK -/

/-- `s` after a block command whose run of the XTEA unit ended in `x` (R155, R156). -/
def State.replacedBlock (s : State) (x : Rounds) : State :=
  State.complete (State.advance { s.ranXtea x with blk := x.blk, index := 0 } 8)

theorem exec_encBlock (s : State) : exec .encBlock s = .next (s.replacedBlock (xteaEncRun s.blk s.key)) := rfl

theorem exec_decBlock (s : State) : exec .decBlock s = .next (s.replacedBlock (xteaDecRun s.blk s.key)) := rfl

@[simp] theorem State.replacedBlock_blk (s : State) (x : Rounds) : (s.replacedBlock x).blk = x.blk := rfl
@[simp] theorem State.replacedBlock_key (s : State) (x : Rounds) : (s.replacedBlock x).key = s.key := rfl

/-- Besides BLK and CUR a block command writes what a completion writes, and the hidden working state. -/
theorem State.replacedBlock_eq (s : State) (x : Rounds) : s.replacedBlock x =
    { successOf (s.withScratch (s.replacedBlock x)) with blk := x.blk, cur := 8 } := rfl

/-- Settles O7: the commands differ only in the run of the XTEA unit. -/
theorem blockCommandsRunXtea : Obligations.BlockCommandsRunXtea := fun s =>
  ⟨⟨_, exec_encBlock s, s.replacedBlock_eq _⟩, ⟨_, exec_decBlock s, s.replacedBlock_eq _⟩⟩

/-- Settles O9: accepting DEC_BLOCK keeps BLK and the key, so its run deciphers what ENC_BLOCK enciphered. -/
theorem decBlockUndoesEncBlock : Obligations.DecBlockUndoesEncBlock := by
  intro s w
  refine ⟨_, _, exec_encBlock s, exec_decBlock _, ?_, rfl⟩
  simp only [State.replacedBlock_blk, State.replacedBlock_key, State.latchCommand_blk, State.latchCommand_key]
  exact xteaDec_xteaEnc s.blk s.key

end Sys2Proof.Machine
end

section
/-! The chain as a recursion over blocks (spec/42_chain.md R172 to R174): what a chained command computes depends on the
blocks before a point only, can be resumed from its feedback there, and deciphering undoes enciphering. -/

namespace Sys2Proof.Machine

/-! ### The two directions as one recursion -/

/-- What a chained command does with one block: its new feedback and its result, from the key, the block read and the
feedback before it. -/
structure ChainRule where
  next : Key → Block → Block → Block
  result : Key → Block → Block → Block

/-- CHAIN_ENC: the enciphered block is both the result and the new feedback (R172). -/
def encRule : ChainRule where
  next k p f := xteaEnc (p.xor f) k
  result k p f := xteaEnc (p.xor f) k

/-- CHAIN_DEC and CHUNK_DEC: the ciphertext read is the new feedback (R173, R220). -/
def decRule : ChainRule where
  next _ c _ := c
  result k c f := (xteaDec c k).xor f

/-- The feedback before block `j` of the chain over `p` that starts from `f`. -/
def ChainRule.feedback (r : ChainRule) (k : Key) (f : Block) (p : Nat → Block) : Nat → Block
  | 0 => f
  | j + 1 => r.next k (p j) (r.feedback k f p j)

/-- Result block `j` of the chain over `p` that starts from `f`. -/
def ChainRule.output (r : ChainRule) (k : Key) (f : Block) (p : Nat → Block) (j : Nat) : Block :=
  r.result k (p j) (r.feedback k f p j)

variable {r : ChainRule} {k : Key} {f : Block} {p q : Nat → Block}

/-- The feedback of CHAIN_DEC is the ciphertext block before (R173). -/
theorem decRule_feedback (n : Nat) : decRule.feedback k f p n = chainFeedback f p n := by
  cases n <;> rfl

theorem decRule_output (j : Nat) : decRule.output k f p j = chainPlain k f p j := by
  rw [ChainRule.output, decRule_feedback]
  rfl

/-! ### Blocks before a point, and after it -/

/-- The feedback depends on the blocks before it only. -/
theorem ChainRule.feedback_congr {n : Nat} (h : ∀ j, j < n → p j = q j) :
    r.feedback k f p n = r.feedback k f q n := by
  induction n with
  | zero => rfl
  | succ n ih => rw [feedback, feedback, h n n.lt_succ_self, ih fun j hj => h j (hj.trans n.lt_succ_self)]

/-- A result depends on the blocks up to its own only. -/
theorem ChainRule.output_congr {n j : Nat} (h : ∀ j, j < n → p j = q j) (hj : j < n) :
    r.output k f p j = r.output k f q j := by
  rw [output, output, h j hj, feedback_congr fun i hi => h i (hi.trans hj)]

/-- A chain goes on from its feedback as it would have from the start (R175). -/
theorem ChainRule.feedback_add (m n : Nat) :
    r.feedback k f p (m + n) = r.feedback k (r.feedback k f p m) (fun j => p (m + j)) n := by
  induction n with
  | zero => rfl
  | succ n ih => rw [← Nat.add_assoc, feedback, ih, feedback]

theorem ChainRule.output_add (m j : Nat) :
    r.output k f p (m + j) = r.output k (r.feedback k f p m) (fun j => p (m + j)) j := by
  rw [output, feedback_add, output]

/-! ### Deciphering undoes enciphering -/

/-- A feedback XORed in twice is gone (R177). -/
theorem Block.xor_xor_cancel (a b : Block) : (a.xor b).xor b = a := by
  simp [Block.xor]

/-- The chain deciphered from the feedback it was enciphered from is the plaintext (R174). -/
theorem decRule_output_encRule (j : Nat) : decRule.output k f (encRule.output k f p) j = p j := by
  have hfeed : decRule.feedback k f (encRule.output k f p) j = encRule.feedback k f p j := by cases j <;> rfl
  calc decRule.output k f (encRule.output k f p) j
      = (xteaDec (encRule.output k f p j) k).xor (encRule.feedback k f p j) := by rw [← hfeed]; rfl
    _ = ((p j).xor (encRule.feedback k f p j)).xor (encRule.feedback k f p j) :=
        congrArg (fun b => b.xor (encRule.feedback k f p j)) (xteaDec_xteaEnc _ k)
    _ = p j := Block.xor_xor_cancel _ _

end Sys2Proof.Machine
end

section
/-! Chained commands as a whole (spec/42_chain.md R170 to R175): their error completions, what a whole run leaves in BUF
and in the registers for either direction, and from that the source's tail, the round trip and the split chain. -/

namespace Sys2Proof.Machine

/-! ### The checks in their order (R264) -/

/-- The source range is checked first. -/
theorem chainChecks_source {s : State} (h : s.params.bufSize < s.src.toNat + s.len.toNat) :
    chainChecks s = some (.range, 1) :=
  if_pos (pastBuf_eq_true.2 h)

section
variable {s : State} (hsrc : s.src.toNat + s.len.toNat ≤ s.params.bufSize)
include hsrc

/-- The destination's whole blocks are checked second. -/
theorem chainChecks_dest (h : s.params.bufSize < s.dst.toNat + 8 * (s.len.toNat / 8)) :
    chainChecks s = some (.range, 2) := by
  rw [chainChecks, blockCount, if_neg (not_pastBuf.2 hsrc), if_pos (pastBuf_eq_true.2 h)]

/-- The partial overlap is checked last. -/
theorem chainChecks_overlap (hdst : s.dst.toNat + 8 * (s.len.toNat / 8) ≤ s.params.bufSize) (hne : s.dst ≠ s.src)
    (h : meets s.src.toNat (8 * (s.len.toNat / 8)) s.dst.toNat (8 * (s.len.toNat / 8)) = true) :
    chainChecks s = some (.overlap, 0) := by
  rw [chainChecks, blockCount, if_neg (not_pastBuf.2 hsrc), if_neg (not_pastBuf.2 hdst), if_pos ⟨hne, h⟩]

end

/-- A chained command whose checks answer an error completes with it at its first step (R260, R262). -/
theorem exec_chain_failed {s : State} {i : Instr} {swi swo cont : Bool} {e : CmdError} {info : Word}
    (hi : i = .chainEnc swi swo cont ∨ i = .chainDec swi swo cont) (hphase : s.phase = .check)
    (hc : chainChecks s = some (e, info)) : exec i s = .next (errorOf s e.code info) := by
  rcases hi with rfl | rfl
  · exact (exec_chainEnc swi swo cont s).trans (commandStep_failed hphase (congrArg _ hc))
  · exact (exec_chainDec swi swo cont s).trans (commandStep_failed hphase (congrArg _ hc))

/-- Settles O17: each clause's premises make its check the first one to fail. -/
theorem chainReportsFirstError : Obligations.ChainReportsFirstError := by
  intro s i swi swo cont hphase hi
  refine ⟨fun h => exec_chain_failed hi hphase (chainChecks_source h),
    fun hsrc h => exec_chain_failed hi hphase (chainChecks_dest hsrc h),
    fun hsrc hdst hlen hne hbelow habove => ?_⟩
  have hmeets : meets s.src.toNat (8 * (s.len.toNat / 8)) s.dst.toNat (8 * (s.len.toNat / 8)) = true :=
    meets_eq_true.2 ⟨by omega, by omega, hbelow, habove⟩
  exact exec_chain_failed hi hphase (chainChecks_overlap hsrc hdst hne hmeets)

/-! ### Ranges of blocks -/

/-- Block `j` of the range at `a`, in the byte order `swap` selects. -/
def rangeBlock (s : State) (a : Nat) (swap : Bool) (j : Nat) : Block := blockAt s (a + 8 * j) swap

/-- The blocks of a range from its block `n` on are those of the range that begins there. -/
theorem rangeBlock_add (s : State) (a : Nat) (swap : Bool) (n j : Nat) :
    rangeBlock s (a + 8 * n) swap j = rangeBlock s a swap (n + j) :=
  congrArg (blockAt s · swap) (by omega)

/-- Ranges with the same bytes have the same blocks. -/
theorem rangeBlock_congr {s t : State} {a b n j : Nat} {swap : Bool}
    (h : ∀ i, i < 8 * n → byteAt t (b + i) = byteAt s (a + i)) (hj : j < n) :
    rangeBlock t b swap j = rangeBlock s a swap j :=
  blockAt_congr fun i hi => by rw [Nat.add_assoc, Nat.add_assoc]; exact h (8 * j + i) (by omega)

/-- Ranges with the same blocks have the same bytes. -/
theorem byteAt_eq_of_rangeBlock_eq {s t : State} {a b n : Nat} {swap : Bool}
    (h : ∀ j, j < n → rangeBlock t b swap j = rangeBlock s a swap j) {i : Nat} (hi : i < 8 * n) :
    byteAt t (b + i) = byteAt s (a + i) := by
  have hblock := byteAt_of_blockAt (h (i / 8) (by omega)) (i % 8) (by omega)
  rwa [Nat.add_assoc, Nat.add_assoc, Nat.div_add_mod] at hblock

/-- BUF of `t` is that of `s` with the `n` blocks of the range at `b` replaced by `out`. -/
structure BlocksStored (swap : Bool) (b n : Nat) (out : Nat → Block) (s t : State) : Prop where
  blocks : ∀ j, j < n → rangeBlock t b swap j = out j
  frame : ∀ a, a < b ∨ b + 8 * n ≤ a → byteAt t a = byteAt s a

section
variable {swap : Bool} {b n : Nat} {out out' : Nat → Block} {s s' t t' : State}

/-- Equal blocks stored are equal bytes. -/
theorem BlocksStored.bytes_eq (h : BlocksStored swap b n out s t) (h' : BlocksStored swap b n out' s' t')
    (hout : ∀ j, j < n → out j = out' j) {a : Nat} (hlo : b ≤ a) (hhi : a < b + 8 * n) : byteAt t a = byteAt t' a := by
  obtain ⟨i, rfl⟩ := Nat.exists_eq_add_of_le hlo
  exact byteAt_eq_of_rangeBlock_eq (fun j hj => (h.blocks j hj).trans ((hout j hj).trans (h'.blocks j hj).symm))
    (by omega)

/-- Equal blocks stored to BUFs that read alike leave BUFs that read alike. -/
theorem BlocksStored.unique (h : BlocksStored swap b n out s t) (h' : BlocksStored swap b n out' s t')
    (hout : ∀ j, j < n → out j = out' j) (a : Nat) : byteAt t a = byteAt t' a := by
  by_cases ha : a < b ∨ b + 8 * n ≤ a
  · exact (h.frame a ha).trans (h'.frame a ha).symm
  · exact h.bytes_eq h' hout (by omega) (by omega)

/-- Blocks stored past those stored before are all stored. -/
theorem BlocksStored.append {m : Nat} {u : State} (h : BlocksStored swap b n out s t)
    (h' : BlocksStored swap (b + 8 * n) m out' t' u) (hbuf : ∀ a, byteAt t' a = byteAt t a)
    (hout : ∀ j, j < m → out' j = out (n + j)) : BlocksStored swap b (n + m) out s u where
  blocks j hj := by
    by_cases hjn : j < n
    · rw [← h.blocks j hjn]
      exact rangeBlock_congr (fun i hi => (h'.frame _ (.inl (by omega))).trans (hbuf _)) hjn
    · obtain ⟨i, rfl⟩ := Nat.exists_eq_add_of_le (Nat.le_of_not_lt hjn)
      have hi : i < m := by omega
      rw [← hout i hi, ← h'.blocks i hi]
      exact (rangeBlock_add u b swap n i).symm
  frame a ha := by rw [h'.frame a (by omega), hbuf, h.frame a (by omega)]

end

/-! ### Whole runs -/

/-- A chained command with the rule `r` has led from `s` to its successful completion in `t` (R170 to R173). -/
structure ChainRan (r : ChainRule) (swi swo cont : Bool) (s t : State) : Prop where
  registers : t = { successOf (s.withScratch t) with
    buf := t.buf,
    cur := if s.len.toNat < 8 then s.cur else BitVec.ofNat 32 (8 * (s.len.toNat / 8)),
    fb := r.feedback s.key (if cont then s.fb else ⟨0, 0⟩) (rangeBlock s s.src.toNat swi) (s.len.toNat / 8),
    frameValid := s.frameValid && !meetsFrame s s.dst.toNat (8 * (s.len.toNat / 8)) }
  stored : BlocksStored swo s.dst.toNat (s.len.toNat / 8)
    (r.output s.key (if cont then s.fb else ⟨0, 0⟩) (rangeBlock s s.src.toNat swi)) s t

/-- Command `i` runs the chain of rule `r` to its completion whenever its checks pass. -/
def RunsChain (r : ChainRule) (swi swo cont : Bool) (i : Instr) : Prop :=
  ∀ s : State, AtStart s → chainChecks s = none →
    ∃ t, runCommand i (s.len.toNat / 8 + 1) s = .next t ∧ ChainRan r swi swo cont s t

/-- `n` blocks at `a` and `n` blocks at `b` lie in a BUF of `size` bytes and are the same ones or apart (R172). -/
structure BlockRanges (size a b n : Nat) : Prop where
  source : a + 8 * n ≤ size
  dest : b + 8 * n ≤ size
  apart : b = a ∨ b + 8 * n ≤ a ∨ a + 8 * n ≤ b

theorem BlockRanges.take {size a b m n : Nat} (h : BlockRanges size a b (m + n)) : BlockRanges size a b m := by
  obtain ⟨hsource, hdest, hapart⟩ := h
  exact ⟨by omega, by omega, by omega⟩

theorem BlockRanges.drop {size a b m n : Nat} (h : BlockRanges size a b (m + n)) :
    BlockRanges size (a + 8 * m) (b + 8 * m) n := by
  obtain ⟨hsource, hdest, hapart⟩ := h
  exact ⟨by omega, by omega, by omega⟩

/-- The ranges a command of whole blocks selects, from what the checks of R172 ask of them. -/
theorem blockRanges_of_len {src dst len : Word} {size n : Nat} (hlen : len.toNat = 8 * n)
    (hsrc : src.toNat + len.toNat ≤ size) (hdst : dst.toNat + len.toNat ≤ size)
    (hapart : dst = src ∨ dst.toNat + len.toNat ≤ src.toNat ∨ src.toNat + len.toNat ≤ dst.toNat) :
    BlockRanges size src.toNat dst.toNat n := by
  rw [hlen] at hsrc hdst hapart
  exact ⟨hsrc, hdst, hapart.imp_left (congrArg _)⟩

/-- The checks of a chained command pass when it selects such ranges. -/
theorem BlockRanges.chainChecks_eq_none {size a b n : Nat} (h : BlockRanges size a b n) {s : State}
    (hsize : s.params.bufSize = size) (hsrc : s.src.toNat = a) (hdst : s.dst.toNat = b)
    (hlen : s.len.toNat = 8 * n) : chainChecks s = none := by
  obtain ⟨hsource, hdest, hapart⟩ := h
  exact chainChecks_passed (by omega) (by omega) (hapart.imp (fun h => BitVec.eq_of_toNat_eq (by omega))
    fun h => by omega)

/-- A command whose loop stores what `r` says, block by block, runs the chain of `r`. -/
theorem runsChain_of_stores {r : ChainRule} {swi swo cont : Bool} {i : Instr} {body : State → Result State}
    (hexec : ∀ u, exec i u = commandStep (fun u => .next (chainChecks u)) (chainStart cont) body finishPlain u)
    (hbody : StoresElements 8 (blockAt · · swi) (blockAt · · swo) r.next r.result body) :
    RunsChain r swi swo cont i := by
  intro s h hchecks
  obtain ⟨t, hrun, hregs, hblocks, hframe⟩ :=
    chain_runs (fb := r.feedback s.key _ _) (out := r.output s.key _ _) hexec hbody rfl (fun _ => rfl) (fun _ => rfl)
      h hchecks
  exact ⟨t, hrun, hregs, hblocks, hframe⟩

theorem chainEnc_runsChain (swi swo cont : Bool) : RunsChain encRule swi swo cont (.chainEnc swi swo cont) :=
  runsChain_of_stores (exec_chainEnc swi swo cont) (chainEncBlock_stores swi swo)

theorem chainDec_runsChain (swi swo cont : Bool) : RunsChain decRule swi swo cont (.chainDec swi swo cont) :=
  runsChain_of_stores (exec_chainDec swi swo cont) (chainDecBlock_stores swi swo)

/-- Either chained command runs the chain of its direction. -/
theorem exists_runsChain {i : Instr} {swi swo cont : Bool}
    (hi : i = .chainEnc swi swo cont ∨ i = .chainDec swi swo cont) : ∃ r, RunsChain r swi swo cont i := by
  rcases hi with rfl | rfl
  · exact ⟨_, chainEnc_runsChain swi swo cont⟩
  · exact ⟨_, chainDec_runsChain swi swo cont⟩

namespace ChainRan

variable {r : ChainRule} {swi swo cont : Bool} {s t : State} (h : ChainRan r swi swo cont s t)
include h

theorem seq : t.seq = .idle := congrArg State.seq h.registers
theorem errCode : t.errCode = s.errCode := (congrArg State.errCode h.registers :)
theorem params : t.params = s.params := (congrArg State.params h.registers :)
theorem key : t.key = s.key := (congrArg State.key h.registers :)
theorem len : t.len = s.len := (congrArg State.len h.registers :)
theorem fb : t.fb = r.feedback s.key (if cont then s.fb else ⟨0, 0⟩) (rangeBlock s s.src.toNat swi)
    (s.len.toNat / 8) := congrArg State.fb h.registers

end ChainRan

/-! ### The source's tail (R170) -/

/-- Two runs from states that differ in BUF only, whose source blocks are equal, end with equal registers and store
equal blocks. -/
theorem ChainRan.agree {r : ChainRule} {swi swo cont : Bool} {s t t' : State} {m : List Host.Cell}
    (h : ChainRan r swi swo cont s t) (h' : ChainRan r swi swo cont { s with buf := m } t')
    (hblocks : ∀ j, j < s.len.toNat / 8 →
      rangeBlock { s with buf := m } s.src.toNat swi j = rangeBlock s s.src.toNat swi j) :
    t' = { t.withScratch t' with buf := t'.buf } ∧
    ∀ a, s.dst.toNat ≤ a → a < s.dst.toNat + 8 * (s.len.toNat / 8) → byteAt t' a = byteAt t a := by
  refine ⟨h'.registers.trans ?_, fun a => h'.stored.bytes_eq h.stored fun _ => ChainRule.output_congr hblocks⟩
  have hfb := ChainRule.feedback_congr (r := r) (k := s.key) (f := if cont then s.fb else ⟨0, 0⟩) hblocks
  simp only [hfb]
  rw [h.registers]
  rfl

/-- Settles O23: the blocks before the tail are equal, and a chained command reads nothing else of BUF. -/
theorem chainIgnoresTheTail : Obligations.ChainIgnoresTheTail := by
  intro s s' i swi swo cont hi hstart hsrc hdst hapart hs' hbytes
  obtain ⟨m, rfl⟩ : ∃ m, s' = { s with buf := m } := ⟨_, hs'⟩
  obtain ⟨r, hruns⟩ := exists_runsChain hi
  obtain ⟨t, ht, hran⟩ := hruns s hstart (chainChecks_passed hsrc hdst hapart)
  obtain ⟨t', ht', hran'⟩ := hruns { s with buf := m } hstart (chainChecks_passed hsrc hdst hapart)
  have hblocks (j : Nat) (hj : j < s.len.toNat / 8) :
      rangeBlock { s with buf := m } s.src.toNat swi j = rangeBlock s s.src.toNat swi j :=
    rangeBlock_congr (fun _ _ => hbytes _ (by omega)) hj
  obtain ⟨hregs, hdest⟩ := hran.agree hran' hblocks
  exact ⟨t, t', ht, ht', hregs, hdest,
    fun a ha => ⟨hran.stored.frame a (.inr ha), hran'.stored.frame a (.inr ha)⟩⟩

/-! ### The round trip (R174) -/

/-- CHAIN_ENC from A to B and CHAIN_DEC from B to C with the byte orders exchanged, both from a zero feedback: C holds
the bytes of A. -/
theorem ChainRan.roundTrip {s t u v : State} {swi swo : Bool} (h : ChainRan encRule swi swo false s t)
    (h' : ChainRan decRule swo swi false u v) (hkey : u.key = s.key) (hlen : u.len = s.len)
    (hsrc : u.src = s.dst) (hbuf : ∀ a, byteAt u a = byteAt t a) {j : Nat} (hj : j < 8 * (s.len.toNat / 8)) :
    byteAt v (u.dst.toNat + j) = byteAt s (s.src.toNat + j) := by
  have hstored := h'.stored
  rw [hkey, hlen, hsrc] at hstored
  have hcipher (i : Nat) (hi : i < s.len.toNat / 8) : rangeBlock u s.dst.toNat swo i =
      encRule.output s.key ⟨0, 0⟩ (rangeBlock s s.src.toNat swi) i :=
    (rangeBlock_congr (fun _ _ => hbuf _) hi).trans (h.stored.blocks i hi)
  refine byteAt_eq_of_rangeBlock_eq (swap := swi) (fun i hi => ?_) hj
  calc rangeBlock v u.dst.toNat swi i
      = decRule.output s.key ⟨0, 0⟩ (rangeBlock u s.dst.toNat swo) i := hstored.blocks i hi
    _ = decRule.output s.key ⟨0, 0⟩ (encRule.output s.key ⟨0, 0⟩ (rangeBlock s s.src.toNat swi)) i :=
        ChainRule.output_congr hcipher hi
    _ = rangeBlock s s.src.toNat swi i := decRule_output_encRule i

/-- Settles O24: the second command deciphers the blocks the first one stored. -/
theorem chainRoundTripRestoresBytes : Obligations.ChainRoundTripRestoresBytes := by
  intro s c w swi swo hstart hmod hsrc hdst hc hapart hapart'
  have hlen : s.len.toNat = 8 * (s.len.toNat / 8) := by omega
  have hranges := blockRanges_of_len hlen hsrc hdst hapart
  have hranges' := blockRanges_of_len hlen hdst hc hapart'
  obtain ⟨t, ht, hran⟩ := chainEnc_runsChain swi swo false s hstart (hranges.chainChecks_eq_none rfl rfl rfl hlen)
  have hsteps : t.len.toNat / 8 + 1 = s.len.toNat / 8 + 1 := by rw [hran.len]
  obtain ⟨v, hv, hran'⟩ := chainDec_runsChain swo swi false
    (State.latchCommand { t with src := s.dst, dst := c } w) ⟨rfl, rfl, rfl⟩
    (hranges'.chainChecks_eq_none (congrArg Params.bufSize hran.params) rfl rfl ((congrArg _ hran.len).trans hlen))
  rw [State.latchCommand_len, hsteps] at hv
  exact ⟨t, v, ht, hran.seq, hv, hran'.seq, hran'.errCode, fun j hj =>
    hran.roundTrip hran' hran.key hran.len rfl (fun _ => rfl) (hlen ▸ hj)⟩

/-! ### The split chain (R175) -/

/-- `u` goes on where the first `n1` blocks of the ranges of `s` have led to `t1`: it selects the `n2` blocks after them
and has the key of `s` and the feedback and BUF of `t1`. -/
structure GoesOn (s t1 u : State) (n1 n2 : Nat) : Prop where
  key : u.key = s.key
  src : u.src.toNat = s.src.toNat + 8 * n1
  dst : u.dst.toNat = s.dst.toNat + 8 * n1
  len : u.len.toNat = 8 * n2
  fb : u.fb = t1.fb
  bytes : ∀ a, byteAt u a = byteAt t1 a

/-- A chain over `n1 + n2` blocks ends as one over the first `n1` and then one over the remaining `n2`, whose source
blocks the first one has left as they were. -/
theorem ChainRan.split {r : ChainRule} {swi swo : Bool} {n1 n2 : Nat} {s u t t1 t2 : State} {len1 : Word}
    (h : ChainRan r swi swo false s t) (h1 : ChainRan r swi swo false { s with len := len1 } t1)
    (h2 : ChainRan r swi swo true u t2) (hu : GoesOn s t1 u n1 n2) (hlen : s.len.toNat = 8 * (n1 + n2))
    (hlen1 : len1.toNat = 8 * n1) (hranges : BlockRanges s.params.bufSize s.src.toNat s.dst.toNat (n1 + n2)) :
    t2.fb = t.fb ∧ ∀ a, byteAt t2 a = byteAt t a := by
  have hdiv : s.len.toNat / 8 = n1 + n2 := by omega
  have hdiv1 : len1.toNat / 8 = n1 := by omega
  have hdiv2 : u.len.toNat / 8 = n2 := by rw [hu.len]; omega
  have hapart := hranges.apart
  have hfb := h.fb
  have hstored := h.stored
  have hfb1 : t1.fb = r.feedback s.key ⟨0, 0⟩ (rangeBlock s s.src.toNat swi) (len1.toNat / 8) := h1.fb
  have hstored1 : BlocksStored swo s.dst.toNat (len1.toNat / 8)
      (r.output s.key ⟨0, 0⟩ (rangeBlock s s.src.toNat swi)) s t1 := ⟨h1.stored.blocks, h1.stored.frame⟩
  have hfb2 := h2.fb
  have hstored2 := h2.stored
  rw [hdiv] at hfb hstored
  rw [hdiv1] at hfb1 hstored1
  rw [hdiv2, hu.key, hu.fb, hfb1, if_pos rfl] at hfb2 hstored2
  rw [hu.dst] at hstored2
  have hblocks (j : Nat) (hj : j < n2) : rangeBlock u u.src.toNat swi j = rangeBlock s s.src.toNat swi (n1 + j) := by
    rw [← rangeBlock_add, hu.src]
    refine rangeBlock_congr (fun i hi => (hu.bytes _).trans (hstored1.frame _ ?_)) hj
    omega
  refine ⟨?_, (hstored1.append hstored2 hu.bytes fun j hj => ?_).unique hstored fun _ _ => rfl⟩
  · rw [hfb2, hfb, ChainRule.feedback_congr hblocks]
    exact (ChainRule.feedback_add n1 n2).symm
  · rw [ChainRule.output_congr hblocks hj]
    exact (ChainRule.output_add n1 j).symm

/-- A number up to BUF_SIZE is the value of a word (R7). -/
theorem toNat_ofNat_of_le_bufSize {p : Params} {n : Nat} (hwf : p.wf = true) (hn : n ≤ p.bufSize) :
    (BitVec.ofNat 32 n).toNat = n := by
  simp only [Params.wf, Bool.and_eq_true, decide_eq_true_eq] at hwf
  obtain ⟨-, hmax⟩ := hwf
  rw [BitVec.toNat_ofNat]
  exact Nat.mod_eq_of_lt (by omega)

/-- Both ways of running a chain over `n1 + n2` blocks, whole and split, complete alike. -/
theorem RunsChain.split {r : ChainRule} {swi swo : Bool} {first second : Instr} {n1 n2 : Nat} {s : State}
    (hfirst : RunsChain r swi swo false first) (hsecond : RunsChain r swi swo true second) (w : Word)
    (hwf : s.params.wf = true) (h : AtStart s) (hlen : s.len.toNat = 8 * (n1 + n2))
    (hranges : BlockRanges s.params.bufSize s.src.toNat s.dst.toNat (n1 + n2)) :
    ∃ t t1 t2, runCommand first (n1 + n2 + 1) s = .next t ∧
      runCommand first (n1 + 1) { s with len := BitVec.ofNat 32 (8 * n1) } = .next t1 ∧
      runCommand second (n2 + 1)
        (State.latchCommand { t1 with
            src := BitVec.ofNat 32 (s.src.toNat + 8 * n1), dst := BitVec.ofNat 32 (s.dst.toNat + 8 * n1),
            len := BitVec.ofNat 32 (8 * n2) } w) = .next t2 ∧
      t.errCode = s.errCode ∧ t2.errCode = 0 ∧ t2.fb = t.fb ∧ ∀ a, byteAt t2 a = byteAt t a := by
  have hword (n : Nat) (hn : n ≤ s.params.bufSize) : (BitVec.ofNat 32 n).toNat = n :=
    toNat_ofNat_of_le_bufSize hwf hn
  have hsource := hranges.source
  have hdest := hranges.dest
  have hlen1 := hword (8 * n1) (by omega)
  have hlen2 := hword (8 * n2) (by omega)
  have hsrc2 := hword (s.src.toNat + 8 * n1) (by omega)
  have hdst2 := hword (s.dst.toNat + 8 * n1) (by omega)
  obtain ⟨t, ht, hran⟩ := hfirst s h (hranges.chainChecks_eq_none rfl rfl rfl hlen)
  obtain ⟨t1, ht1, hran1⟩ := hfirst { s with len := BitVec.ofNat 32 (8 * n1) } h
    (hranges.take.chainChecks_eq_none rfl rfl rfl hlen1)
  obtain ⟨t2, ht2, hran2⟩ := hsecond
    (State.latchCommand { t1 with
        src := BitVec.ofNat 32 (s.src.toNat + 8 * n1), dst := BitVec.ofNat 32 (s.dst.toNat + 8 * n1),
        len := BitVec.ofNat 32 (8 * n2) } w) ⟨rfl, rfl, rfl⟩
    (hranges.drop.chainChecks_eq_none (congrArg Params.bufSize hran1.params) hsrc2 hdst2 hlen2)
  rw [hlen, Nat.mul_div_cancel_left _ (by decide)] at ht
  rw [hlen1, Nat.mul_div_cancel_left _ (by decide)] at ht1
  rw [State.latchCommand_len, hlen2, Nat.mul_div_cancel_left _ (by decide)] at ht2
  exact ⟨t, t1, t2, ht, ht1, ht2, hran.errCode, hran2.errCode,
    hran.split hran1 hran2 ⟨hran1.key, hsrc2, hdst2, hlen2, rfl, fun _ => rfl⟩ hlen hlen1 hranges⟩

/-- Settles O25: in either direction the two commands with CONT = 0 and CONT = 1 run the chain of one rule. -/
theorem splitChainEqualsWholeChain : Obligations.SplitChainEqualsWholeChain := by
  intro s w enc swi swo n1 n2 hwf hstart hlen hsrc hdst hapart
  have hranges := blockRanges_of_len hlen hsrc hdst hapart
  cases enc with
  | false =>
    exact (chainDec_runsChain swi swo false).split (chainDec_runsChain swi swo true) w hwf hstart hlen hranges
  | true =>
    exact (chainEnc_runsChain swi swo false).split (chainEnc_runsChain swi swo true) w hwf hstart hlen hranges

end Sys2Proof.Machine
end

section
/-! CHUNK_DEC as a whole run (spec/44_frame.md R220 to R222): the chunk's blocks deciphered from a zero feedback, and
that CHAIN_DEC does the same with the chunk's address and length. -/

namespace Sys2Proof.Machine

/-- What a command that is still to check something has left as its acceptance made it (R260). -/
theorem EngineInv.accepted {s : State} (h : EngineInv s) (hs : AtStart s) : s.errCode = 0 ∧ s.cur = 0 := by
  obtain ⟨hrun, hphase, -⟩ := hs
  obtain ⟨i, hi, -⟩ := h.running hrun
  rcases h.atCheck_or_inLoop hrun hi with hcheck | hloop
  · exact ⟨hcheck.noError, hcheck.cur⟩
  · rw [hloop.phase] at hphase
    nomatch hphase

/-- CHUNK_DEC's checks pass for a valid index, a chunk in the frame, and a destination in BUF away from it (R220). -/
theorem chunkChecks_passed {s : State} (h : StoreInv s) (hf : s.frameValid = true) {off len : Word}
    (hv : validIndex s s.chunkSel.toNat = true) (hoff : wordAt s (chunkOffAddr s s.chunkSel.toNat) = off)
    (hlen : wordAt s (chunkLenAddr s s.chunkSel.toNat) = len) (hin : off.toNat + len.toNat ≤ s.frameLen.toNat)
    (hdst : s.dst.toNat + 8 * (len.toNat / 8) ≤ s.params.bufSize)
    (hmeets : meetsFrame s s.dst.toNat (8 * (len.toNat / 8)) = false) : chunkChecks s = .next none := by
  subst hoff hlen
  obtain ⟨hoffin, hlenin⟩ := h.descriptor_inside hf hv
  exact chunkChecks_eq_none.2 ⟨hf, hv, hoffin, hlenin, chunkExtentChecks_eq_none.2 ⟨hin, hdst, hmeets⟩⟩

/-- CHUNK_DEC stands before its first block once its checks have passed: the chunk lies in the frame, which lies in BUF
and away from the destination (R215, R220). -/
theorem chunkStart_loopReady {s : State} (h : StoreInv s) (hs : AtStart s) (hc : chunkChecks s = .next none) :
    LoopReady 8 (chunkStart s) := by
  obtain ⟨hrun, -, habort⟩ := hs
  obtain ⟨-, hsource, hdest, -, hapart⟩ := chunkDec_started h hc
  obtain ⟨-, -, -, -, hx⟩ := chunkChecks_eq_none.1 hc
  obtain ⟨hin, -, -⟩ := chunkExtentChecks_eq_none.1 hx
  refine ⟨hrun, rfl, habort, rfl, hsource, hdest, .inr ?_⟩
  have hbase : (chunkStart s).srcBase =
      (chunkStart s).frameBase.toNat + (wordAt s (chunkOffAddr s s.chunkSel.toNat)).toNat := rfl
  have hcount : (chunkStart s).count = (wordAt s (chunkLenAddr s s.chunkSel.toNat)).toNat / 8 := rfl
  have hframeLen : (chunkStart s).frameLen = s.frameLen := rfl
  rw [← hframeLen] at hin
  have haway := meets_eq_false.1 hapart
  omega

/-- Where CUR was 0 before, it is at the end of `n` blocks, one or none (R33). -/
theorem cur_after_blocks {P : Prop} [Decidable P] {cur : Word} {n : Nat} (hnone : P → n = 0) (hcur : cur = 0) :
    (if P then cur else BitVec.ofNat 32 (8 * n)) = BitVec.ofNat 32 (8 * n) := by
  split_ifs with h
  · rw [hcur, hnone h]
    rfl
  · rfl

/-- CHUNK_DEC from its first step to its completion, once its checks have passed (R220). -/
theorem chunkDec_runs {s : State} (h : EngineInv s) (hs : AtStart s) {off len : Word}
    (hoff : wordAt s (chunkOffAddr s s.chunkSel.toNat) = off) (hlen : wordAt s (chunkLenAddr s s.chunkSel.toNat) = len)
    (hc : chunkChecks s = .next none) :
    ∃ t, runCommand .chunkDec (len.toNat / 8 + 1) s = .next t ∧
      t = { successOf (s.withScratch t) with
              buf := t.buf, cur := BitVec.ofNat 32 (8 * (len.toNat / 8)),
              fb := chainFeedback ⟨0, 0⟩ (rangeBlock s (s.frameBase.toNat + off.toNat) true) (len.toNat / 8) } ∧
      BlocksStored true s.dst.toNat (len.toNat / 8)
        (chainPlain s.key ⟨0, 0⟩ (rangeBlock s (s.frameBase.toNat + off.toNat) true)) s t := by
  subst hoff hlen
  have hloop (u : State) (hu : u.phase = .loop) : exec .chunkDec u = loopStep (chainDecBlock true true) finishPlain u :=
    (exec_chunkDec u).trans (commandStep_loop hu)
  have hready := chunkStart_loopReady h.store hs hc
  obtain ⟨v, hv, hdone⟩ := hready.runCommand (fb := chainFeedback _ _) (blockAt_viewsBytes true)
    (blockAt_viewsBytes true) (chainDecBlock_stores true true) hloop rfl (fun _ => rfl) (fun _ => rfl)
  obtain ⟨-, hcur⟩ := h.accepted hs
  obtain ⟨hrun, hphase, -⟩ := hs
  have hstart := runCommand_start (exec_chunkDec s) hloop hrun hphase hc hready.run rfl (chunkStart s).count
  exact ⟨v.complete, hstart.trans hdone, hv.completed (cur_after_blocks id hcur), hv.values, hv.frame⟩

/-- Settles O36: the premises are what CHUNK_DEC checks. -/
theorem chunkDecDeciphersTheChunk : Obligations.ChunkDecDeciphersTheChunk := by
  intro s hinv hs hf hsel hlast off len hin hdst hapart
  have hmeets : meetsFrame s s.dst.toNat (8 * (len / 8)) = false := meets_eq_false.2 (by omega)
  have hchecks := chunkChecks_passed hinv.store hf (validIndex_eq_true.2 ⟨hsel, hlast⟩) rfl rfl hin hdst hmeets
  obtain ⟨t, ht, hregs, hstored⟩ := chunkDec_runs hinv hs rfl rfl hchecks
  exact ⟨t, ht, hregs, hstored.blocks, hstored.frame⟩

/-- CHAIN_DEC's checks pass for a chunk in the frame and a destination in BUF away from the frame (R222). -/
theorem chainChecks_chunk {s : State} {base len : Word} {off : Nat} (hfits : FrameFits s)
    (hbase : base.toNat = s.frameBase.toNat + off) (hin : off + len.toNat ≤ s.frameLen.toNat)
    (hdst : s.dst.toNat + 8 * (len.toNat / 8) ≤ s.params.bufSize)
    (hmeets : meetsFrame s s.dst.toNat (8 * (len.toNat / 8)) = false) :
    chainChecks { s with src := base, len := len } = none := by
  obtain ⟨-, hframe, -⟩ := hfits
  have hsource : base.toNat + len.toNat ≤ s.params.bufSize := by omega
  have hapart : s.dst.toNat + 8 * (len.toNat / 8) ≤ base.toNat ∨ base.toNat + 8 * (len.toNat / 8) ≤ s.dst.toNat := by
    have haway := meets_eq_false.1 hmeets
    omega
  exact chainChecks_passed (s := { s with src := base, len := len }) hsource hdst (.inr hapart)

/-- Settles O37: both commands decipher the same blocks with one rule, and the destination spares the frame. -/
theorem chunkDecEqualsDecode : Obligations.ChunkDecEqualsDecode := by
  intro s hinv hs hf hsel hlast off len hin hdst hmeets
  have hfits := hinv.frame hf
  have hsize : s.frameBase.toNat + off.toNat ≤ s.params.bufSize := by
    obtain ⟨-, hframe, -⟩ := hfits
    omega
  have hchecks := chunkChecks_passed hinv.store hf (validIndex_eq_true.2 ⟨hsel, hlast⟩) rfl rfl hin hdst hmeets
  have hbase : (BitVec.ofNat 32 (s.frameBase.toNat + off.toNat)).toNat = s.frameBase.toNat + off.toNat :=
    toNat_ofNat_of_le_bufSize hinv.params hsize
  obtain ⟨herr, hcur⟩ := hinv.accepted hs
  obtain ⟨t, ht, hregs, hstored⟩ := chunkDec_runs hinv hs rfl rfl hchecks
  obtain ⟨u, hu, hran⟩ := chainDec_runsChain true true false
    { s with src := BitVec.ofNat 32 (s.frameBase.toNat + off.toNat), len := len } hs
    (chainChecks_chunk hfits hbase hin hdst hmeets)
  have hcurs : u.cur = BitVec.ofNat 32 (8 * (len.toNat / 8)) :=
    (congrArg State.cur hran.registers).trans (cur_after_blocks Nat.div_eq_of_lt hcur)
  have hfb : u.fb = decRule.feedback s.key ⟨0, 0⟩ (rangeBlock s _ true) (len.toNat / 8) := hran.fb
  have hstored' : BlocksStored true s.dst.toNat (len.toNat / 8)
      (decRule.output s.key ⟨0, 0⟩ (rangeBlock s _ true)) s u := ⟨hran.stored.blocks, hran.stored.frame⟩
  have hvalid : u.frameValid = (s.frameValid && !meetsFrame s s.dst.toNat (8 * (len.toNat / 8))) :=
    (congrArg State.frameValid hran.registers :)
  rw [hbase, decRule_feedback] at hfb
  rw [hbase] at hstored'
  rw [show meetsFrame s s.dst.toNat (8 * (len.toNat / 8)) = false from hmeets, Bool.not_false, Bool.and_true]
    at hvalid
  exact ⟨t, u, ht, hu, congrArg State.seq hregs, hran.seq, (congrArg State.errCode hregs).trans herr,
    hran.errCode.trans herr, (congrArg State.fb hregs).trans hfb.symm, (congrArg State.cur hregs).trans hcurs.symm,
    (congrArg State.frameValid hregs).trans hvalid.symm,
    hstored.unique hstored' fun j _ => (decRule_output j).symm⟩

end Sys2Proof.Machine
end

section
/-! The check generator's commands as whole runs (spec/43_checksum.md R190 to R194): their one check, the reflections,
what the byte loops of SUM16, CRC32 and PARSE have done after `k` bytes, and from these the runs to their ends. -/

namespace Sys2Proof.Machine

/-! ### The check -/

/-- The check of SUM16 and CRC32 fails for a range past the end of BUF (R191). -/
theorem sourceChecks_source {s : State} (h : s.params.bufSize < s.src.toNat + s.len.toNat) :
    sourceChecks s = some (.range, 1) :=
  if_pos (pastBuf_eq_true.2 h)

/-- SUM16 or CRC32 whose check answers an error completes with it at its first step (R260, R262). -/
theorem exec_check_failed {s : State} {i : Instr} {e : CmdError} {info : Word} (hi : i = .sum16 ∨ i = .crc32)
    (hphase : s.phase = .check) (hc : sourceChecks s = some (e, info)) : exec i s = .next (errorOf s e.code info) := by
  rcases hi with rfl | rfl
  · exact (exec_sum16 s).trans (commandStep_failed hphase (congrArg _ hc))
  · exact (exec_crc32 s).trans (commandStep_failed hphase (congrArg _ hc))

/-- Settles O26: the premise makes the one check of both commands fail. -/
theorem checkCommandsRefuseRangePastBuf : Obligations.CheckCommandsRefuseRangePastBuf :=
  fun _ _ hphase hi hpast => exec_check_failed hi hphase (sourceChecks_source hpast)

/-! ### Reflection -/

/-- A reversed bit vector has its bits in the opposite order, at any width. -/
theorem getLsbD_reverse_of_lt {w i : Nat} (x : BitVec w) (h : i < w) :
    x.reverse.getLsbD i = x.getLsbD (w - 1 - i) := by
  rw [BitVec.getLsbD_reverse, BitVec.getMsbD_eq_getLsbD, decide_eq_true h, Bool.true_and]

/-- Settles O30. -/
theorem reflectionReversesBits : Obligations.ReflectionReversesBits :=
  ⟨fun b _ h => getLsbD_reverse_of_lt b h, fun x _ h => getLsbD_reverse_of_lt x h⟩

/-! ### The sum of a range -/

/-- The sum of a range is a function of BUF's bytes (R190). -/
theorem byteSum_congr {s t : State} (h : ∀ a, byteAt t a = byteAt s a) (a n : Nat) :
    byteSum t a n = byteSum s a n := by
  induction n with
  | zero => rfl
  | succ n ih => rw [byteSum, byteSum, ih, h]

/-- The 16-bit sum in the naturals (R190). -/
theorem toNat_byteSum (s : State) (a n : Nat) :
    (byteSum s a n).toNat = ((List.range n).map fun j => (byteAt s (a + j)).toNat).sum % 2 ^ 16 := by
  induction n with
  | zero => rfl
  | succ n ih =>
    simp only [byteSum, BitVec.toNat_add, BitVec.toNat_setWidth, ih, List.range_succ, List.map_append,
      List.sum_append, List.map_singleton, List.sum_singleton, Nat.add_mod_mod, Nat.mod_add_mod]

/-- Zero-extended halfwords are equal exactly when the halfwords are. -/
theorem setWidth_half_inj {x y : Half} : x.setWidth 32 = y.setWidth 32 ↔ x = y := by
  refine ⟨fun h => ?_, congrArg _⟩
  have htrunc := congrArg (BitVec.setWidth 16) h
  rwa [BitVec.setWidth_setWidth_of_le x (by omega), BitVec.setWidth_setWidth_of_le y (by omega), BitVec.setWidth_eq,
    BitVec.setWidth_eq] at htrunc

/-! ### After `k` bytes -/

/-- The loop that began in state `s` after `k` bytes, which brought the 16-bit sum to `sum` and the shift register to
`crc` (R33, R49). -/
def State.tookBytes (s : State) (sum : Half) (crc : Word) (k : Nat) : State :=
  { s with sum16 := sum, crc := crc, index := k, cur := if k = 0 then s.cur else BitVec.ofNat 32 k }

/-- A command's byte loop is about to begin: no abort is pending, and its range lies in BUF. -/
structure ByteLoopReady (s : State) : Prop where
  run : s.seq = .run
  phase : s.phase = .loop
  abort : s.abortPend = false
  index : s.index = 0
  source : s.srcBase + s.count ≤ s.params.bufSize

section
variable {s : State} {sum : Half} {crc : Word} {k : Nat}

theorem State.tookBytes_zero (h : s.index = 0) : s.tookBytes s.sum16 s.crc 0 = s :=
  (congrArg (fun n => { s with index := n }) h.symm :)

/-- One more byte, whatever it brings the sum and the shift register to. -/
theorem State.tookBytes_advance (sum' : Half) (crc' : Word) :
    State.advance { s.tookBytes sum crc k with sum16 := sum', crc := crc' } 1 = s.tookBytes sum' crc' (k + 1) := by
  rw [State.tookBytes, State.tookBytes, if_neg (Nat.succ_ne_zero k), State.advance, Nat.one_mul]

/-- The next byte of SUM16 or PARSE (R191, R212). -/
theorem sumByte_tookBytes (h : s.srcBase + k + 1 ≤ s.params.bufSize) :
    sumByte (s.tookBytes sum crc k) =
      .next (s.tookBytes (sum + (byteAt s (s.srcBase + k)).setWidth 16) crc (k + 1)) :=
  sumByte_eq_next.2 ⟨h, (State.tookBytes_advance _ _).symm⟩

/-- The next byte of CRC32 (R194). -/
theorem crcStep_tookBytes (h : s.srcBase + k + 1 ≤ s.params.bufSize) :
    crcStep (s.tookBytes sum crc k) =
      .next (s.tookBytes sum (crcByte s.crcPoly (s.crcCfg.getLsbD 0) crc (byteAt s (s.srcBase + k))) (k + 1)) :=
  crcStep_eq_next.2 ⟨h, (State.tookBytes_advance _ _).symm⟩

end

/-! ### The byte loops to their ends -/

section
variable {i : Instr} {last : State → Result State} {s : State} {sum : Nat → Half} {crc : Nat → Word}

/-- A byte loop runs to what stands after it, for sums and shift registers that follow its body (R102, R304). -/
theorem ByteLoopReady.runs {body : State → Result State} (h : ByteLoopReady s)
    (hloop : ∀ u : State, u.phase = .loop → exec i u = loopStep body last u)
    (hsum : sum 0 = s.sum16) (hcrc : crc 0 = s.crc)
    (hbody : ∀ k, s.srcBase + k + 1 ≤ s.params.bufSize →
      body (s.tookBytes (sum k) (crc k) k) = .next (s.tookBytes (sum (k + 1)) (crc (k + 1)) (k + 1))) :
    runCommand i (s.count + 1) s = last (s.tookBytes (sum s.count) (crc s.count) s.count) := by
  have hstart : s = s.tookBytes (sum 0) (crc 0) 0 := by rw [hsum, hcrc, State.tookBytes_zero h.index]
  obtain ⟨v, rfl, hv⟩ := runCommand_loop (fun k u => u = s.tookBytes (sum k) (crc k) k) hloop
    (fun k u hu => by subst hu; exact ⟨h.run, h.phase, h.abort, rfl, rfl⟩)
    (fun k u hk hu => by
      have hsource := h.source
      subst hu
      exact ⟨_, hbody k (by omega), rfl⟩)
    s.count 0 s (Nat.zero_add _) hstart
  exact hv

/-- The summing loop of SUM16 and PARSE (R191, R212). -/
theorem ByteLoopReady.sums (h : ByteLoopReady s)
    (hloop : ∀ u : State, u.phase = .loop → exec i u = loopStep sumByte last u) (hzero : sum 0 = s.sum16)
    (hsum : ∀ k, sum (k + 1) = sum k + (byteAt s (s.srcBase + k)).setWidth 16) :
    runCommand i (s.count + 1) s = last (s.tookBytes (sum s.count) s.crc s.count) :=
  h.runs (crc := fun _ => s.crc) hloop hzero rfl fun k hk => by rw [sumByte_tookBytes hk, hsum]

/-- The loop of CRC32 (R194). -/
theorem ByteLoopReady.crcs (h : ByteLoopReady s)
    (hloop : ∀ u : State, u.phase = .loop → exec i u = loopStep crcStep last u) (hzero : crc 0 = s.crc)
    (hcrc : ∀ k, crc (k + 1) = crcByte s.crcPoly (s.crcCfg.getLsbD 0) (crc k) (byteAt s (s.srcBase + k))) :
    runCommand i (s.count + 1) s = last (s.tookBytes s.sum16 (crc s.count) s.count) :=
  h.runs (sum := fun _ => s.sum16) hloop rfl hzero fun k hk => by rw [crcStep_tookBytes hk, hcrc]

end

/-! ### SUM16 and CRC32 -/

/-- CUR at the end of a byte loop over LEN bytes (R33). -/
theorem cur_after_bytes (cur len : Word) :
    (if len.toNat = 0 then cur else BitVec.ofNat 32 len.toNat) = if len = 0 then cur else len := by
  rw [BitVec.ofNat_toNat, BitVec.setWidth_eq]
  exact if_congr (by rw [← BitVec.toNat_inj]; rfl) rfl rfl

section
variable {s : State} (h : AtStart s) (hsrc : s.src.toNat + s.len.toNat ≤ s.params.bufSize)
include h hsrc

/-- SUM16 from its first step to the end of its loop (R191). -/
theorem sum16_runs : runCommand .sum16 (s.len.toNat + 1) s = sumFinish
    ((s.beginSum s.len.toNat).tookBytes (byteSum s s.src.toNat s.len.toNat) s.crc s.len.toNat) := by
  have hloop (u : State) (hu : u.phase = .loop) : exec .sum16 u = loopStep sumByte sumFinish u :=
    (exec_sum16 u).trans (commandStep_loop hu)
  obtain ⟨hrun, hphase, habort⟩ := h
  have hready : ByteLoopReady (s.beginSum s.len.toNat) := ⟨hrun, rfl, habort, rfl, hsrc⟩
  have hstart := runCommand_start (exec_sum16 s) hloop hrun hphase (congrArg _ (sourceChecks_eq_none.2 hsrc)) hrun rfl
    s.len.toNat
  exact hstart.trans (hready.sums hloop (sum := byteSum s s.src.toNat) rfl fun _ => rfl)

/-- CRC32 from its first step to the end of its loop (R194). -/
theorem crc32_runs : runCommand .crc32 (s.len.toNat + 1) s = crcFinish
    ((crcStart s).tookBytes s.sum16 (crcOver s s.src.toNat s.len.toNat) s.len.toNat) := by
  have hloop (u : State) (hu : u.phase = .loop) : exec .crc32 u = loopStep crcStep crcFinish u :=
    (exec_crc32 u).trans (commandStep_loop hu)
  obtain ⟨hrun, hphase, habort⟩ := h
  have hready : ByteLoopReady (crcStart s) := ⟨hrun, rfl, habort, rfl, hsrc⟩
  have hstart := runCommand_start (exec_crc32 s) hloop hrun hphase (congrArg _ (sourceChecks_eq_none.2 hsrc)) hrun rfl
    s.len.toNat
  exact hstart.trans (hready.crcs hloop (crc := crcOver s s.src.toNat) rfl fun _ => rfl)

end

/-- Settles O28: after its loop SUM16 completes with the sum in CHK. -/
theorem sum16AddsTheBytes : Obligations.Sum16AddsTheBytes := by
  intro s h hsrc
  refine ⟨_, sum16_runs h hsrc, ?_, ?_⟩
  · rw [← cur_after_bytes]
    rfl
  · rw [← toNat_byteSum]
    exact BitVec.toNat_setWidth_of_le (by omega)

/-- Settles O29: after its loop CRC32 completes with the shift register, reflected and XORed, in CHK. -/
theorem crc32ComputesTheCrc : Obligations.Crc32ComputesTheCrc := by
  intro s h hsrc
  refine ⟨_, crc32_runs h hsrc, ?_⟩
  rw [← cur_after_bytes]
  rfl

/-! ### PARSE's checksum -/

/-- Before its checks PARSE clears FRAME_VALID (R212). -/
theorem parseChecksStart_check {s : State} (h : s.phase = .check) :
    parseChecksStart s = { s with frameValid := false } := by
  rw [parseChecksStart, h]

/-- PARSE from its first step to the end of its loop, which sums all but the trailer (R212). -/
theorem parse_runs {s : State} (h : AtStart s) (hlen : 4 ≤ s.len.toNat)
    (hsrc : s.src.toNat + s.len.toNat ≤ s.params.bufSize) :
    runCommand .parse (s.len.toNat - 1) s = parseFinish
      ((State.beginSum { s with frameValid := false } (s.len.toNat - 2)).tookBytes
        (byteSum s s.src.toNat (s.len.toNat - 2)) s.crc (s.len.toNat - 2)) := by
  have hloop (u : State) (hu : u.phase = .loop) : exec .parse u = loopStep sumByte parseFinish u := by
    rw [exec_parse, parseChecksStart_loop hu, commandStep_loop hu]
  obtain ⟨hrun, hphase, habort⟩ := h
  have hexec := exec_parse s
  rw [parseChecksStart_check hphase] at hexec
  have hchecks : parseChecks { s with frameValid := false } = none := parseChecks_eq_none.2 ⟨hsrc, hlen⟩
  have hready : ByteLoopReady (State.beginSum { s with frameValid := false } (s.len.toNat - 2)) :=
    ⟨hrun, rfl, habort, rfl, (Nat.add_le_add_left (Nat.sub_le _ _) _).trans hsrc⟩
  have hstart := runCommand_start hexec hloop hrun hphase (congrArg _ hchecks) hrun rfl (s.len.toNat - 2)
  rw [show s.len.toNat - 1 = s.len.toNat - 2 + 1 by omega]
  exact hstart.trans (hready.sums hloop (sum := byteSum s s.src.toNat) rfl fun _ => rfl)

/-- After its loop PARSE completes, with ERR_CHECKSUM exactly when the sum differs from the trailer (R212, R213). -/
theorem parseFinish_checksum {u : State} (hlen : 2 ≤ u.len.toNat)
    (hin : u.srcBase + u.len.toNat ≤ u.params.bufSize) (herr : u.errCode = 0) :
    ∃ t, parseFinish u = .next t ∧ t.seq = .idle ∧
      (t.errCode ≠ 0x05 ↔ u.sum16 = halfAt u (u.srcBase + u.len.toNat - 2)) := by
  rw [parseFinish, memRead16_inside (by omega), andThen_next]
  split_ifs with hsum
  · exact ⟨_, rfl, rfl, iff_of_false (fun hne => hne rfl) hsum⟩
  · have hequal := not_not.1 hsum
    rw [memRead16_inside (by omega), andThen_next]
    split_ifs
    · exact ⟨_, rfl, rfl, iff_of_true (by decide : CmdError.frame.code ≠ 0x05) hequal⟩
    · have hcode : u.errCode ≠ 0x05 := by rw [herr]; decide
      exact ⟨_, rfl, rfl, iff_of_true hcode hequal⟩

section
variable {s : State} (h : AtStart s) (hlen : 4 ≤ s.len.toNat) (hsrc : s.src.toNat + s.len.toNat ≤ s.params.bufSize)
include h hlen hsrc

/-- What PARSE's checksum decides by (R212, R213). -/
theorem parse_checksum (herr : s.errCode = 0) :
    ∃ t, runCommand .parse (s.len.toNat - 1) s = .next t ∧ t.seq = .idle ∧
      (t.errCode ≠ 0x05 ↔ byteSum s s.src.toNat (s.len.toNat - 2) = halfAt s (s.src.toNat + s.len.toNat - 2)) := by
  rw [parse_runs h hlen hsrc]
  exact parseFinish_checksum (show 2 ≤ s.len.toNat by omega) hsrc herr

/-- What SUM16 leaves in CHK over the frame without its trailer (R191, R192). -/
theorem sum16_untrailed :
    ∃ u, runCommand .sum16 (s.len.toNat - 1) { s with len := s.len - 2 } = .next u ∧ u.seq = .idle ∧
      u.chk = (byteSum s s.src.toNat (s.len.toNat - 2)).setWidth 32 := by
  have hless : (s.len - 2).toNat = s.len.toNat - 2 :=
    BitVec.toNat_sub_of_le (BitVec.le_def.2 (show 2 ≤ s.len.toNat by omega))
  have hsum : byteSum { s with len := s.len - 2 } s.src.toNat (s.len - 2).toNat =
      byteSum s s.src.toNat (s.len.toNat - 2) := by
    rw [hless]
    refine byteSum_congr (fun a => ?_) _ _
    rfl
  have hsrc' : s.src.toNat + (s.len - 2).toNat ≤ s.params.bufSize := by omega
  obtain ⟨u, hu, hregs, -⟩ := sum16AddsTheBytes { s with len := s.len - 2 } h hsrc'
  have hchk : u.chk = (byteSum { s with len := s.len - 2 } s.src.toNat (s.len - 2).toNat).setWidth 32 :=
    congrArg State.chk hregs
  have hsteps : (s.len - 2).toNat + 1 = s.len.toNat - 1 := by omega
  exact ⟨u, hsteps ▸ hu, congrArg State.seq hregs, hsum ▸ hchk⟩

end

/-- Settles O34: both commands sum the same bytes, and a zero-extended sum determines the sum. -/
theorem parseChecksumIsSum16 : Obligations.ParseChecksumIsSum16 := by
  intro s h herr hlen hsrc
  obtain ⟨t, ht, htidle, hcode⟩ := parse_checksum h hlen hsrc herr
  obtain ⟨u, hu, huidle, hchk⟩ := sum16_untrailed h hlen hsrc
  refine ⟨t, u, ht, hu, htidle, huidle, ?_⟩
  rw [hchk, setWidth_half_inj]
  exact hcode

end Sys2Proof.Machine
end

section
/-! The frame parser's checks and decision (spec/44_frame.md R211 to R220): the check lists of PARSE and CHUNK_DEC in
their order, and the three ends of PARSE. -/

namespace Sys2Proof.Machine

/-! ### PARSE's checks in their order (R264) -/

/-- The frame's range is checked first. -/
theorem parseChecks_source {s : State} (h : s.params.bufSize < s.src.toNat + s.len.toNat) :
    parseChecks s = some (.range, 1) :=
  if_pos (pastBuf_eq_true.2 h)

/-- The frame's length is checked once its range lies in BUF. -/
theorem parseChecks_length {s : State} (hsrc : s.src.toNat + s.len.toNat ≤ s.params.bufSize) (h : s.len.toNat < 4) :
    parseChecks s = some (.frame, 1) := by
  rw [parseChecks, if_neg (not_pastBuf.2 hsrc), if_pos h]

/-- A PARSE whose checks answer an error has cleared FRAME_VALID before it completes with the error (R212, R262). -/
theorem exec_parse_failed {s : State} {e : CmdError} {info : Word} (hphase : s.phase = .check)
    (hc : parseChecks { s with frameValid := false } = some (e, info)) :
    exec .parse s = .next (errorOf { s with frameValid := false } e.code info) := by
  rw [exec_parse, parseChecksStart_check hphase]
  exact commandStep_failed hphase (congrArg _ hc)

/-- Settles O31: each clause's premises make its check the first one to fail. -/
theorem parseReportsFirstError : Obligations.ParseReportsFirstError := fun _ hphase =>
  ⟨fun h => exec_parse_failed hphase (parseChecks_source h),
    fun hsrc h => exec_parse_failed hphase (parseChecks_length hsrc h)⟩

/-! ### CHUNK_DEC's checks in their order (R264) -/

/-- Without a recorded frame no index is looked at. -/
theorem chunkChecks_noFrame {s : State} (h : s.frameValid = false) : chunkChecks s = .next (some (.noFrame, 0)) :=
  if_pos h

/-- The index is checked before its descriptor is read. -/
theorem chunkChecks_index {s : State} (hf : s.frameValid = true) (hv : ¬ validIndex s s.chunkSel.toNat = true) :
    chunkChecks s = .next (some (.chunkIndex, s.chunkSel.setWidth 32)) := by
  rw [chunkChecks, if_neg (ne_false_of_eq_true hf), if_pos (Bool.eq_false_iff.2 hv)]

/-- Of a valid chunk the extent its descriptor gives is checked; the descriptor lies in BUF (R215, R220). -/
theorem StoreInv.chunkChecks_extent {s : State} (h : StoreInv s) (hf : s.frameValid = true)
    (hv : validIndex s s.chunkSel.toNat = true) :
    chunkChecks s = .next (chunkExtentChecks s (wordAt s (chunkOffAddr s s.chunkSel.toNat))
      (wordAt s (chunkLenAddr s s.chunkSel.toNat))) := by
  obtain ⟨hoff, hlen⟩ := h.descriptor_inside hf hv
  rw [chunkChecks, if_neg (ne_false_of_eq_true hf), if_neg (ne_false_of_eq_true hv), memRead32_inside hoff,
    andThen_next, memRead32_inside hlen, andThen_next]

section
variable {s : State} {off len : Word}

/-- The chunk's end is checked first. -/
theorem chunkExtentChecks_frame (h : s.frameLen.toNat < off.toNat + len.toNat) :
    chunkExtentChecks s off len = some (.range, 3) :=
  if_pos h

variable (hin : off.toNat + len.toNat ≤ s.frameLen.toNat)
include hin

/-- The destination's whole blocks are checked second. -/
theorem chunkExtentChecks_dest (h : s.params.bufSize < s.dst.toNat + 8 * (len.toNat / 8)) :
    chunkExtentChecks s off len = some (.range, 2) := by
  rw [chunkExtentChecks, blockCount, if_neg (Nat.not_lt.2 hin), if_pos (pastBuf_eq_true.2 h)]

/-- The overlap with the frame is checked last. -/
theorem chunkExtentChecks_overlap (hdst : s.dst.toNat + 8 * (len.toNat / 8) ≤ s.params.bufSize)
    (h : meetsFrame s s.dst.toNat (8 * (len.toNat / 8)) = true) :
    chunkExtentChecks s off len = some (.overlap, 0) := by
  rw [chunkExtentChecks, blockCount, if_neg (Nat.not_lt.2 hin), if_neg (not_pastBuf.2 hdst), if_pos h]

end

/-- A CHUNK_DEC whose checks answer an error completes with it at its first step (R260, R262). -/
theorem exec_chunkDec_failed {s : State} {e : CmdError} {info : Word} (hphase : s.phase = .check)
    (hc : chunkChecks s = .next (some (e, info))) : exec .chunkDec s = .next (errorOf s e.code info) :=
  (exec_chunkDec s).trans (commandStep_failed hphase hc)

/-- Settles O35: each clause's premises make its check the first one to fail, and the invariant keeps the descriptor of
a valid index in BUF. -/
theorem chunkDecReportsFirstError : Obligations.ChunkDecReportsFirstError := by
  intro s hinv hphase i valid off len
  have extent_failed {e : CmdError} {info : Word} (hf : s.frameValid = true) (hv : valid)
      (hx : chunkExtentChecks s _ _ = some (e, info)) : exec .chunkDec s = .next (errorOf s e.code info) :=
    exec_chunkDec_failed hphase
      ((hinv.store.chunkChecks_extent hf (validIndex_eq_true.2 hv)).trans (congrArg _ hx))
  refine ⟨fun hf => exec_chunkDec_failed hphase (chunkChecks_noFrame hf),
    fun hf hv => exec_chunkDec_failed hphase (chunkChecks_index hf (mt validIndex_eq_true.1 hv)),
    fun hf hv h => extent_failed hf hv (chunkExtentChecks_frame h),
    fun hf hv hin h => extent_failed hf hv (chunkExtentChecks_dest hin h),
    fun hf hv hin hdst hlen hbelow habove => ?_⟩
  obtain ⟨hfour, -, -⟩ := hinv.frame hf
  have hmeets : meetsFrame s s.dst.toNat (8 * (len / 8)) = true :=
    meets_eq_true.2 ⟨by omega, by omega, hbelow, habove⟩
  exact extent_failed hf hv (chunkExtentChecks_overlap hin hdst hmeets)

/-! ### PARSE's decision -/

/-- A table is too long when it has a descriptor and the last one ends past the start of the trailer (R215). -/
theorem tableTooLong_eq_true {e : ChunkEnd} {n c : Nat} :
    tableTooLong e n c = true ↔ 1 ≤ lastIdx e c ∧ n - 2 < 8 * lastIdx e c + 12 := by
  simp [tableTooLong]

/-- The three ends of PARSE for a frame in BUF: its reads of the trailer and the count answer (R84, R212, R215). -/
theorem parseFinish_inside {u : State} {trailer count : Half} (hlen : 2 ≤ u.len.toNat)
    (hin : u.srcBase + u.len.toNat ≤ u.params.bufSize)
    (htrailer : halfAt u (u.srcBase + u.len.toNat - 2) = trailer) (hcount : halfAt u u.srcBase = count) :
    parseFinish u = .next
      (if u.sum16 ≠ trailer then (u.summedFrame trailer).raiseError .checksum (trailer ++ u.sum16)
      else if tableTooLong u.params.chunkEnd u.len.toNat count.toNat then (u.summedFrame trailer).raiseError .frame 2
      else ((u.summedFrame trailer).recordFrame count).complete) := by
  rw [parseFinish, memRead16_inside (by omega), andThen_next, memRead16_inside (by omega), andThen_next, htrailer,
    hcount]
  split_ifs <;> rfl

/-- Settles O33: the loop leaves the sum, and each of PARSE's three ends excludes the premises of the other two. -/
theorem parseDecidesTheFrame : Obligations.ParseDecidesTheFrame := by
  intro s hs hlen hsrc total trailer count last
  refine ⟨_, (parse_runs hs hlen hsrc).trans
    (parseFinish_inside (trailer := trailer) (count := count) (show 2 ≤ s.len.toNat by omega) hsrc rfl rfl), ?_⟩
  split_ifs with hsum htable
  · exact ⟨fun _ => rfl, fun hequal => absurd hequal hsum, fun hequal => absurd hequal hsum⟩
  · have hreaches : 1 ≤ last ∧ s.len.toNat - 2 < 8 * last + 12 := tableTooLong_eq_true.1 htable
    exact ⟨fun hne => absurd hne hsum, fun _ _ _ => rfl, fun _ hfits => by omega⟩
  · have hends : 1 ≤ last → 8 * last + 12 ≤ s.len.toNat - 2 := tableTooLong_eq_false.1 (Bool.eq_false_iff.2 htable)
    exact ⟨fun hne => absurd hne hsum, fun _ hlast hreaches => by omega, fun _ _ => rfl⟩

end Sys2Proof.Machine
end

section
/-! NOP, completion and abort (spec/45_control.md R240 to R243): a looping command as what its start, one element and
its end do with a pending abort, that every abortable command is one, and from these both sides of its abort points. -/

namespace Sys2Proof.Machine

/-! ### NOP -/

theorem exec_nop (s : State) : exec .nop s = .next s.complete := rfl

/-- Settles O6: the step is the completion, which writes these four fields. -/
theorem nopOnlyCompletes : Obligations.NopOnlyCompletes := exec_nop

/-! ### A state with and without an abort -/

/-- The state `s` with ABORT_PEND as given (R49). -/
def State.withAbort (s : State) (b : Bool) : State := { s with abortPend := b }

theorem State.withAbort_of_eq {s : State} {b : Bool} (h : s.abortPend = b) : s.withAbort b = s := by
  rw [← h]
  rfl

/-- The checks do not read ABORT_PEND. -/
theorem commandChecks_withAbort (s : State) (i : Instr) (b : Bool) :
    commandChecks (s.withAbort b) i = commandChecks s i := by
  cases i <;> rfl

/-- A step that ends in a failed check is the same whatever abort is pending (R260, R262). -/
theorem commandStep_failed_withAbort {checks : State → Result CheckResult} {start : State → State}
    {body last : State → Result State} (hchecks : ∀ s b, checks (s.withAbort b) = checks s) {s u : State}
    (hp : s.phase = .check) (hc : checks s ≠ .next none) (h : commandStep checks start body last s = .next u) :
    u.seq = .idle ∧ u.abortPend = false ∧ ∀ b, commandStep checks start body last (s.withAbort b) = .next u := by
  rcases commandStep_eq_next.1 h with ⟨-, e, info, he, rfl⟩ | ⟨-, hnone, -⟩ | ⟨hloop, -⟩
  · exact ⟨rfl, rfl, fun b => commandStep_failed (s := s.withAbort b) hp ((hchecks s b).trans he)⟩
  · exact absurd hnone hc
  · rw [hp] at hloop
    nomatch hloop

/-! ### One element and the end of a loop -/

/-- A loop's body neither reads nor writes ABORT_PEND, and the command goes on running. -/
def PassesAbort (body : State → Result State) : Prop :=
  ∀ {s u : State}, body s = .next u → u.seq = s.seq ∧ ∀ b, body (s.withAbort b) = .next (u.withAbort b)

theorem swapWord_passesAbort : PassesAbort swapWord := fun h => by
  obtain ⟨hsrc, hdst, rfl⟩ := swapWord_eq_next.1 h
  exact ⟨rfl, fun _ => swapWord_eq_next.2 ⟨hsrc, hdst, rfl⟩⟩

/-- One block of a chain leaves ABORT_PEND alone, whatever the cipher's values are. -/
theorem chainBlock_withAbort (s : State) (x : Rounds) (w f : Block) (a : Nat) (bs : List Byte) (b : Bool) :
    (((s.chained x w f).storeBytes a bs).advance 8).withAbort b =
      (((s.withAbort b).chained x w f).storeBytes a bs).advance 8 := rfl

theorem chainEncBlock_passesAbort (swi swo : Bool) : PassesAbort (chainEncBlock swi swo) := fun h => by
  obtain ⟨hsrc, hdst, rfl⟩ := chainEncBlock_eq_next.1 h
  exact ⟨rfl, fun b => chainEncBlock_eq_next.2 ⟨hsrc, hdst, chainBlock_withAbort _ _ _ _ _ _ b⟩⟩

theorem chainDecBlock_passesAbort (swi swo : Bool) : PassesAbort (chainDecBlock swi swo) := fun h => by
  obtain ⟨hsrc, hdst, rfl⟩ := chainDecBlock_eq_next.1 h
  exact ⟨rfl, fun b => chainDecBlock_eq_next.2 ⟨hsrc, hdst, chainBlock_withAbort _ _ _ _ _ _ b⟩⟩

theorem sumByte_passesAbort : PassesAbort sumByte := fun h => by
  obtain ⟨hsrc, rfl⟩ := sumByte_eq_next.1 h
  exact ⟨rfl, fun _ => sumByte_eq_next.2 ⟨hsrc, rfl⟩⟩

theorem crcStep_passesAbort : PassesAbort crcStep := fun h => by
  obtain ⟨hsrc, rfl⟩ := crcStep_eq_next.1 h
  exact ⟨rfl, fun _ => crcStep_eq_next.2 ⟨hsrc, rfl⟩⟩

/-- What stands after a loop does not read ABORT_PEND, and ends the command with no abort pending (R261, R262). -/
structure LosesAbort (last : State → Result State) : Prop where
  unread : ∀ s b, last (s.withAbort b) = last s
  ended : ∀ {s u}, last s = .next u → u.seq = .idle ∧ u.abortPend = false

/-- What stands after a loop completes the command, whatever result it leaves in CHK and in the CRC register (R261). -/
def CompletesLoop (last : State → Result State) : Prop :=
  ∀ s : State, ∃ chk crc, ∀ b, last (s.withAbort b) = .next (State.complete { s with chk := chk, crc := crc })

theorem finishPlain_completes : CompletesLoop finishPlain := fun s => ⟨s.chk, s.crc, fun _ => rfl⟩

theorem sumFinish_completes : CompletesLoop sumFinish := fun s =>
  ⟨s.sum16.setWidth 32, s.crc, fun _ => rfl⟩

theorem crcFinish_completes : CompletesLoop crcFinish := fun s =>
  ⟨crcResult (s.crcCfg.getLsbD 1) s.crcXorout s.crc, if s.crcCfg.getLsbD 1 then reflect32 s.crc else s.crc,
    fun _ => rfl⟩

theorem CompletesLoop.losesAbort {last : State → Result State} (h : CompletesLoop last) : LosesAbort last where
  unread s b := by
    obtain ⟨_, _, hlast⟩ := h s
    exact (hlast b).trans (hlast s.abortPend).symm
  ended {s _} hu := by
    obtain ⟨_, _, hlast⟩ := h s
    cases (hlast s.abortPend).symm.trans hu
    exact ⟨rfl, rfl⟩

theorem parseFinish_losesAbort : LosesAbort parseFinish where
  unread _ _ := rfl
  ended h := by
    obtain ⟨trailer, -, h⟩ := andThen_eq_next.1 h
    split at h
    · cases h
      exact ⟨rfl, rfl⟩
    · obtain ⟨count, -, h⟩ := andThen_eq_next.1 h
      split at h <;> cases h <;> exact ⟨rfl, rfl⟩

/-! ### A step of a loop -/

section

variable {body last : State → Result State} {s u : State}

/-- With no element left, a pending abort is lost: the step is the same without it (R242). -/
theorem loopStep_abort_lost (hl : LosesAbort last) (hend : ¬ s.index < s.count) (b : Bool) :
    loopStep body last (s.withAbort b) = loopStep body last s := by
  rw [loopStep_last (s := s.withAbort b) hend, loopStep_last hend, hl.unread]

/-- An abort due later than the next element leaves the element's step as it is, and stays pending (R242). -/
theorem loopStep_abort_later (hb : PassesAbort body) (hmore : s.index < s.count) (hlater : s.index < s.abortAt)
    (h : loopStep body last (s.withAbort false) = .next u) :
    u.seq = s.seq ∧ loopStep body last (s.withAbort true) = .next (u.withAbort true) := by
  have hdue : abortDue (s.withAbort true) = false :=
    Bool.eq_false_iff.2 fun hdue => Nat.not_lt.2 (abortDue_eq_true.1 hdue).2 hlater
  rw [loopStep_more (s := s.withAbort false) hmore (abortDue_eq_false rfl)] at h
  obtain ⟨hseq, hbody⟩ := hb h
  exact ⟨hseq, (loopStep_more (s := s.withAbort true) hmore hdue).trans (hbody true)⟩

/-- An abort due later leaves the step of a loop as it is, and stays pending exactly while the command runs (R242). -/
theorem loopStep_abort_busy (hb : PassesAbort body) (hl : LosesAbort last) (hr : s.seq = .run)
    (hlater : s.index < s.abortAt) (h : loopStep body last (s.withAbort false) = .next u) :
    loopStep body last (s.withAbort true) = .next (u.withAbort u.busy) := by
  by_cases hmore : s.index < s.count
  · obtain ⟨hseq, hstep⟩ := loopStep_abort_later hb hmore hlater h
    rw [hstep, busy_eq_true.2 (hseq.trans hr)]
  · rw [loopStep_abort_lost hl hmore] at h ⊢
    obtain ⟨hidle, hlost⟩ := hl.ended ((loopStep_last hmore).symm.trans h)
    rw [h, busy_eq_false.2 hidle, State.withAbort_of_eq hlost]

end

/-! ### A command as its loop -/

/-- The state in which command `i`, its checks passed, enters its loop; where it reads from and what its sum and its CRC
begin with are left open. -/
def State.begun (s : State) (i : Instr) (srcBase : Nat) (sum16 : Half) (crc : Word) : State :=
  { s with fb := startFb s i, frameValid := startFrameValid s i, phase := .loop, index := 0,
           count := elementCount s i, srcBase := srcBase, sum16 := sum16, crc := crc }

/-- `start` enters the loop of command `i`, with any pending abort still pending. -/
def BeginsLoop (i : Instr) (start : State → State) : Prop :=
  ∀ s : State, ∃ srcBase sum16 crc, ∀ b, start (s.withAbort b) = (s.begun i srcBase sum16 crc).withAbort b

/-- Command `i` runs the loop of `body` and `last`, and takes notice of a pending abort at its abort points only. -/
structure RunsLoop (i : Instr) (body last : State → Result State) : Prop where
  loop : ∀ {s}, s.phase = .loop → exec i s = loopStep body last s
  passed : ∀ {s}, s.phase = .check → commandChecks s i = .next none → ∃ srcBase sum16 crc, ∀ b,
    exec i (s.withAbort b) = loopStep body last ((s.begun i srcBase sum16 crc).withAbort b)
  failed : ∀ {s u}, s.phase = .check → commandChecks s i ≠ .next none → exec i s = .next u →
    u.seq = .idle ∧ u.abortPend = false ∧ ∀ b, exec i (s.withAbort b) = .next u
  body : PassesAbort body
  last : LosesAbort last

/-- A command whose step is the shared skeleton runs a loop. -/
theorem runsLoop_of_commandStep {i : Instr} {start : State → State} {body last : State → Result State}
    (hexec : ∀ s, exec i s = commandStep (commandChecks · i) start body last s) (hbegins : BeginsLoop i start)
    (hbody : PassesAbort body) (hlast : LosesAbort last) : RunsLoop i body last where
  loop hp := (hexec _).trans (commandStep_loop hp)
  passed {s} hp hc := by
    obtain ⟨srcBase, sum16, crc, hstart⟩ := hbegins s
    exact ⟨srcBase, sum16, crc, fun b => (hexec _).trans
      ((commandStep_passed (s := s.withAbort b) hp ((commandChecks_withAbort s i b).trans hc)).trans
        (congrArg _ (hstart b)))⟩
  failed {s _} hp hc h := by
    simp only [hexec] at h ⊢
    exact commandStep_failed_withAbort (fun s b => commandChecks_withAbort s i b) hp hc h
  body := hbody
  last := hlast

/-- PARSE's step is the skeleton after FRAME_VALID is cleared, which its checks do not read (R212). -/
theorem parse_runsLoop : RunsLoop .parse sumByte parseFinish where
  loop {s} hp := by rw [exec_parse, parseChecksStart_loop hp, commandStep_loop hp]
  passed {s} hp hc := ⟨s.src.toNat, 0, s.crc, fun b => by
    rw [exec_parse, parseChecksStart_check (s := s.withAbort b) hp]
    exact commandStep_passed (s := { s.withAbort b with frameValid := false }) hp hc⟩
  failed {s u} hp hc h := by
    rw [exec_parse, parseChecksStart_check hp] at h
    obtain ⟨hidle, hlost, hsame⟩ :=
      commandStep_failed_withAbort (s := { s with frameValid := false }) (fun _ _ => rfl) hp hc h
    refine ⟨hidle, hlost, fun b => ?_⟩
    rw [exec_parse, parseChecksStart_check (s := s.withAbort b) hp]
    exact hsame b
  body := sumByte_passesAbort
  last := parseFinish_losesAbort

/-- Every abortable command runs a loop, and all but PARSE complete when its elements are done (R243). -/
theorem exists_runsLoop {i : Instr} (hi : abortable i = true) :
    ∃ body last, RunsLoop i body last ∧ (i ≠ .parse → CompletesLoop last) := by
  have runs {start : State → State} {body last : State → Result State}
      (hexec : ∀ s, exec i s = commandStep (commandChecks · i) start body last s) (hbegins : BeginsLoop i start)
      (hbody : PassesAbort body) (hlast : CompletesLoop last) :
      ∃ body last, RunsLoop i body last ∧ (i ≠ .parse → CompletesLoop last) :=
    ⟨body, last, runsLoop_of_commandStep hexec hbegins hbody hlast.losesAbort, fun _ => hlast⟩
  cases i with
  | nop | encBlock | decBlock => nomatch hi
  | swap =>
    exact runs exec_swap (fun s => ⟨s.src.toNat, s.sum16, s.crc, fun _ => rfl⟩) swapWord_passesAbort
      finishPlain_completes
  | chainEnc swi swo cont =>
    exact runs (exec_chainEnc swi swo cont) (fun s => ⟨s.src.toNat, s.sum16, s.crc, fun _ => rfl⟩)
      (chainEncBlock_passesAbort swi swo) finishPlain_completes
  | chainDec swi swo cont =>
    exact runs (exec_chainDec swi swo cont) (fun s => ⟨s.src.toNat, s.sum16, s.crc, fun _ => rfl⟩)
      (chainDecBlock_passesAbort swi swo) finishPlain_completes
  | sum16 =>
    exact runs exec_sum16 (fun s => ⟨s.src.toNat, 0, s.crc, fun _ => rfl⟩) sumByte_passesAbort sumFinish_completes
  | crc32 =>
    exact runs exec_crc32 (fun s => ⟨s.src.toNat, s.sum16, s.crcInit, fun _ => rfl⟩) crcStep_passesAbort
      crcFinish_completes
  | parse => exact ⟨_, _, parse_runsLoop, fun hne => absurd rfl hne⟩
  | chunkDec =>
    exact runs exec_chunkDec
      (fun s => ⟨s.frameBase.toNat + (wordAt s (chunkOffAddr s s.chunkSel.toNat)).toNat, s.sum16, s.crc, fun _ => rfl⟩)
      (chainDecBlock_passesAbort true true) finishPlain_completes

/-! ### The abort points -/

section

variable {i : Instr} {body last : State → Result State} {s u : State}

/-- An abort due before the first element is taken in the first step, after the start (R242, R260). -/
theorem RunsLoop.abort_at_start (h : RunsLoop i body last) (ha : s.abortPend = true) (hp : s.phase = .check)
    (hc : commandChecks s i = .next none) (hmore : 0 < elementCount s i) (hat : s.abortAt = 0) :
    ∃ srcBase sum16 crc, exec i s = .next (errorOf (s.begun i srcBase sum16 crc) 0x09 s.cur) := by
  obtain ⟨srcBase, sum16, crc, hexec⟩ := h.passed hp hc
  have hdue : abortDue ((s.begun i srcBase sum16 crc).withAbort true) = true := abortDue_eq_true.2 ⟨rfl, hat.le⟩
  refine ⟨srcBase, sum16, crc, ?_⟩
  rw [← State.withAbort_of_eq ha, hexec true]
  exact loopStep_abort hmore hdue

/-- A command without an element takes no notice of an abort in its first step (R242). -/
theorem RunsLoop.abort_lost_at_start (h : RunsLoop i body last) (hp : s.phase = .check)
    (hc : commandChecks s i = .next none) (hnone : elementCount s i = 0) (b : Bool) :
    exec i (s.withAbort b) = exec i s := by
  obtain ⟨srcBase, sum16, crc, hexec⟩ := h.passed hp hc
  have hlost := loopStep_abort_lost (body := body) (s := s.begun i srcBase sum16 crc) h.last (Nat.not_lt.2 hnone.le)
  exact (hexec b).trans ((hlost b).trans ((hlost s.abortPend).symm.trans (hexec s.abortPend).symm))

/-- An abort due after the first step leaves that step as it is, failed check or not, and stays pending exactly while
the command runs (R242, R260). -/
theorem RunsLoop.abort_later_at_start (h : RunsLoop i body last) (hr : s.seq = .run) (hp : s.phase = .check)
    (hlater : 0 < s.abortAt) (hu : exec i (s.withAbort false) = .next u) :
    exec i (s.withAbort true) = .next (u.withAbort u.busy) := by
  by_cases hc : commandChecks s i = .next none
  · obtain ⟨srcBase, sum16, crc, hexec⟩ := h.passed hp hc
    rw [hexec] at hu ⊢
    exact loopStep_abort_busy (s := s.begun i srcBase sum16 crc) h.body h.last hr hlater hu
  · obtain ⟨hidle, hlost, hsame⟩ :=
      h.failed (s := s.withAbort false) hp (by rwa [commandChecks_withAbort]) hu
    rw [busy_eq_false.2 hidle, State.withAbort_of_eq hlost]
    exact hsame true

/-- After its last element every command but PARSE completes with ERR_CODE as it was (R242, R261). -/
theorem RunsLoop.completes_at_end (h : RunsLoop i body last) (hlast : CompletesLoop last) (hp : s.phase = .loop)
    (hend : s.count ≤ s.index) :
    ∃ t, exec i s = .next t ∧ t.errCode = s.errCode ∧ t.seq = .idle ∧ t.done = true ∧ t.abortPend = false := by
  obtain ⟨chk, crc, hcomplete⟩ := hlast s
  exact ⟨_, (h.loop hp).trans ((loopStep_last (Nat.not_lt.2 hend)).trans (hcomplete s.abortPend)),
    rfl, rfl, rfl, rfl⟩

end

/-- After its last byte PARSE ends with one of its three results (R212, R242). -/
theorem parse_ends_at_end {s : State} (hp : s.phase = .loop) (hend : s.count ≤ s.index) (hlen : 2 ≤ s.len.toNat)
    (hin : s.srcBase + s.len.toNat ≤ s.params.bufSize) :
    ∃ t, exec .parse s = .next t ∧ (t.errCode = s.errCode ∨ t.errCode = 0x05 ∨ t.errCode = 0x06) ∧
      t.seq = .idle ∧ t.done = true ∧ t.abortPend = false := by
  refine ⟨_, (parse_runsLoop.loop hp).trans
    ((loopStep_last (Nat.not_lt.2 hend)).trans (parseFinish_inside hlen hin rfl rfl)), ?_⟩
  split_ifs
  · exact ⟨.inr (.inl rfl), rfl, rfl, rfl⟩
  · exact ⟨.inr (.inr rfl), rfl, rfl, rfl⟩
  · exact ⟨.inl rfl, rfl, rfl, rfl⟩

/-- Settles O39: every abortable command runs a loop, whose abort points alone take notice of the abort. -/
theorem abortTakenAtAbortPoint : Obligations.AbortTakenAtAbortPoint := by
  intro s i hi hr ha
  obtain ⟨body, last, h, hlast⟩ := exists_runsLoop hi
  have hs : s.withAbort true = s := State.withAbort_of_eq ha
  refine ⟨fun hp hc hmore hat => ?_, fun hp hc hnone => (h.abort_lost_at_start hp hc hnone false).symm,
    fun hp hlater u hu => ?_, fun hp hmore hat => ?_, fun hp hmore hlater u hu => ?_, fun hp hend => ?_,
    fun hp hend hne => h.completes_at_end (hlast hne) hp hend,
    fun hp hend hparse hlen hin => hparse ▸ parse_ends_at_end hp hend hlen hin⟩
  · obtain ⟨srcBase, sum16, crc, hexec⟩ := h.abort_at_start ha hp hc hmore hat
    exact ⟨_, hexec, rfl⟩
  · exact hs ▸ h.abort_later_at_start hr hp hlater hu
  · exact (h.loop hp).trans (loopStep_abort hmore (abortDue_eq_true.2 ⟨ha, hat⟩))
  · have hloop : loopStep body last (s.withAbort false) = .next u := (h.loop (s := s.withAbort false) hp).symm.trans hu
    obtain ⟨-, hstep⟩ := loopStep_abort_later h.body hmore hlater hloop
    exact (h.loop hp).trans (hs ▸ hstep)
  · exact (h.loop hp).trans ((loopStep_abort_lost h.last (Nat.not_lt.2 hend) false).symm.trans
      (h.loop (s := s.withAbort false) hp).symm)

end Sys2Proof.Machine
end
